-- ==== Sys2Proof/Word.lean ====
section
/-! DEFINITION. The plain value types of the core: the 32-bit word, the 5-bit register index and the 16-bit immediate. -/

namespace Sys2Proof

/-- A register or data-memory value (00_scope.md R6, R7: XLEN = 32). -/
abbrev Word := BitVec 32

/-- A general-register index 0..31 (00_scope.md R6: 5 bits). -/
abbrev RegIdx := BitVec 5

/-- The immediate field (00_scope.md R6: IMM_BITS = 16, signed). -/
abbrev Imm := BitVec 16

/-- One cell of data memory: a byte address and the word it holds (10_state.md R29; 20_memory.md R65: no byte view). -/
abbrev MemCell := Nat × Word

end Sys2Proof
end

