-- ==== Sys2Proof/Syntax.lean ====
section
/-! DEFINITION. The five instructions (00_scope.md R2) as Instruction Records (30_encoding.md R80, R81). -/

namespace Sys2Proof

/-- The `op` field of an Instruction Record (30_encoding.md R80). -/
inductive Op where
  | add | sub | lw | sw | beq
deriving DecidableEq, Repr

/-- An Instruction Record, one constructor per row of spec/opcode_table.json, its operands in the order of the
assembly form (30_encoding.md R81). Fields that R81 calls unused are not held: they have no effect (R82). -/
inductive Instr where
  /-- `add rd rs rt` (42_arith.md R170). -/
  | add (rd rs rt : RegIdx)
  /-- `sub rd rs rt` (42_arith.md R171). -/
  | sub (rd rs rt : RegIdx)
  /-- `lw rt imm(rs)` (43_load_store.md R180). -/
  | lw (rt : RegIdx) (imm : Imm) (rs : RegIdx)
  /-- `sw rt imm(rs)` (43_load_store.md R181). -/
  | sw (rt : RegIdx) (imm : Imm) (rs : RegIdx)
  /-- `beq rs rt imm` (44_branch.md R190). -/
  | beq (rs rt : RegIdx) (imm : Imm)
deriving DecidableEq, Repr

namespace Instr

/-- The record's `op`. -/
def op : Instr → Op
  | .add _ _ _ => .add
  | .sub _ _ _ => .sub
  | .lw _ _ _ => .lw
  | .sw _ _ _ => .sw
  | .beq _ _ _ => .beq

/-- The record's `rs`. -/
def rs : Instr → RegIdx
  | .add _ rs _ => rs
  | .sub _ rs _ => rs
  | .lw _ _ rs => rs
  | .sw _ _ rs => rs
  | .beq rs _ _ => rs

/-- The record's `rt`. -/
def rt : Instr → RegIdx
  | .add _ _ rt => rt
  | .sub _ _ rt => rt
  | .lw rt _ _ => rt
  | .sw rt _ _ => rt
  | .beq _ rt _ => rt

/-- The record's `rd`; unused, so 0, in `lw`, `sw` and `beq` (30_encoding.md R82, R88). -/
def rd : Instr → RegIdx
  | .add rd _ _ => rd
  | .sub rd _ _ => rd
  | .lw _ _ _ => 0
  | .sw _ _ _ => 0
  | .beq _ _ _ => 0

/-- The record's `imm`; unused, so 0, in `add` and `sub` (30_encoding.md R82, R88). -/
def imm : Instr → Imm
  | .add _ _ _ => 0
  | .sub _ _ _ => 0
  | .lw _ imm _ => imm
  | .sw _ imm _ => imm
  | .beq _ _ imm => imm

end Instr

/-- The record `add 0 0 0`, which has no architectural effect (30_encoding.md R93). -/
def Instr.noOp : Instr := .add 0 0 0

end Sys2Proof
end

