-- ==== Sys2Proof/Decode.lean ====
section
/-! DEFINITION. The packed 32-bit instruction word (30_encoding.md R84 to R90): decoder, then encoder. -/

namespace Sys2Proof

/-- The ways a word matches no row of the opcode map, as 30_encoding.md R90 lists them. -/
inductive DecodeError where
  /-- An opcode other than 0x00, 0x04, 0x23 and 0x2B. -/
  | illegalOpcode (opcode : BitVec 6)
  /-- Opcode 0 with a funct other than 0x20 and 0x22. -/
  | illegalFunct (funct : BitVec 6)
  /-- Opcode 0 with the funct of `add` or `sub` and a non-zero shamt. -/
  | nonzeroShamt (shamt : BitVec 5)
deriving DecidableEq, Repr

/-- One row of the opcode map (30_encoding.md R87): a word selects it when its bits under `mask` equal `bits`. -/
structure OpRow where
  op : Op
  bits : Word
  mask : Word
deriving DecidableEq, Repr

/-- The opcode map (30_encoding.md R87). -/
def opRows : List OpRow :=
  [ { op := .add, bits := 0x00000020, mask := 0xFC0007FF },
    { op := .sub, bits := 0x00000022, mask := 0xFC0007FF },
    { op := .lw, bits := 0x8C000000, mask := 0xFC000000 },
    { op := .sw, bits := 0xAC000000, mask := 0xFC000000 },
    { op := .beq, bits := 0x10000000, mask := 0xFC000000 } ]

/-- A word selects a row iff `(w & mask) == match` (30_encoding.md R87). -/
def OpRow.selects (r : OpRow) (w : Word) : Bool := (w &&& r.mask) == r.bits

/-- The opcode of a word: the first row that selects it, tried in the order of 30_encoding.md R88. -/
def selectOp (w : Word) : Option Op := (opRows.find? (fun r => r.selects w)).map OpRow.op

/-- Bits 31:26 (30_encoding.md R85, R86). -/
def opcodeField (w : Word) : BitVec 6 := w.extractLsb' 26 6
/-- Bits 25:21. -/
def rsField (w : Word) : RegIdx := w.extractLsb' 21 5
/-- Bits 20:16. -/
def rtField (w : Word) : RegIdx := w.extractLsb' 16 5
/-- Bits 15:11 of the R format. -/
def rdField (w : Word) : RegIdx := w.extractLsb' 11 5
/-- Bits 10:6 of the R format. -/
def shamtField (w : Word) : BitVec 5 := w.extractLsb' 6 5
/-- Bits 5:0 of the R format. -/
def functField (w : Word) : BitVec 6 := w.extractLsb' 0 6
/-- Bits 15:0 of the I format. -/
def immField (w : Word) : Imm := w.extractLsb' 0 16

/-- Why a word that no row selects is illegal (30_encoding.md R90). -/
def illegalReason (w : Word) : DecodeError :=
  if opcodeField w = 0 then
    if functField w = 0x20 ∨ functField w = 0x22 then .nonzeroShamt (shamtField w)
    else .illegalFunct (functField w)
  else .illegalOpcode (opcodeField w)

/-- Decoding a word into a record (30_encoding.md R88). -/
def decode (w : Word) : Except DecodeError Instr :=
  match selectOp w with
  | some .add => .ok (.add (rdField w) (rsField w) (rtField w))
  | some .sub => .ok (.sub (rdField w) (rsField w) (rtField w))
  | some .lw => .ok (.lw (rtField w) (immField w) (rsField w))
  | some .sw => .ok (.sw (rtField w) (immField w) (rsField w))
  | some .beq => .ok (.beq (rsField w) (rtField w) (immField w))
  | none => .error (illegalReason w)

/-- What the decoder reads from an opcode-table row's bits: one 32-bit word, bits above `nbits` zero (30_encoding.md R91:
one instruction length, one word). -/
def decodeTableWord (nbits w : Nat) : Option Instr := (decode (BitVec.ofNat 32 (w % 2 ^ nbits))).toOption

/-- The R format: opcode, rs, rt, rd, shamt, funct from bit 31 down (30_encoding.md R85). -/
def encodeR (rs rt rd : RegIdx) (funct : BitVec 6) : Word :=
  ((((0#6 ++ rs) ++ rt) ++ rd) ++ 0#5) ++ funct

/-- The I format: opcode, rs, rt, imm from bit 31 down (30_encoding.md R86). -/
def encodeI (opcode : BitVec 6) (rs rt : RegIdx) (imm : Imm) : Word :=
  ((opcode ++ rs) ++ rt) ++ imm

/-- The packed word of a record (30_encoding.md R85, R86). -/
def encode : Instr → Word
  | .add rd rs rt => encodeR rs rt rd 0x20
  | .sub rd rs rt => encodeR rs rt rd 0x22
  | .lw rt imm rs => encodeI 0x23 rs rt imm
  | .sw rt imm rs => encodeI 0x2B rs rt imm
  | .beq rs rt imm => encodeI 0x04 rs rt imm

end Sys2Proof
end

