-- ==== Sys2Proof/Config.lean ====
section
/-! DEFINITION. What a launch fixes (00_scope.md R6, the OPEN parameters): nothing here changes while the core runs. -/

namespace Sys2Proof

/-- The launch parameters of 00_scope.md R6 but for the program, which the Loader writes into the program store.
`reg0` is given for all 32 indices; its entry 0 is ignored (10_state.md R21).
`mem0` lists the data words that are not 0; a later entry for an address wins (log entry 5). -/
structure Launch where
  dmemBytes : Nat
  maxCycles : Nat
  reg0 : Vector Word 32
  mem0 : List MemCell
deriving DecidableEq, Repr

/-- WORD_BYTES (00_scope.md R6; 92_eei_decisions.md D4). -/
def wordBytes : Nat := 4

/-- The word that data memory holds where nothing is listed. DESIGN CHOICE (log entry 5): 10_state.md R39 leaves `mem0` open. -/
def unlistedWord : Word := 0#32

/-- The register values `State.reset` uses. DESIGN CHOICE (log entry 4): 10_state.md R39 leaves `reg0` open. -/
def defaultReg0 : Vector Word 32 := Vector.replicate 32 0#32

/-- The launch `State.reset` stands for. DESIGN CHOICE (log entries 4 to 7): the sizes are the ones
95_test_vectors.md runs with; 00_scope.md R6 leaves all four open. -/
def Launch.default : Launch :=
  { dmemBytes := 256, maxCycles := 1000, reg0 := defaultReg0, mem0 := [] }

end Sys2Proof
end

