-- ==== Sys2Proof/Machine/State.lean ====
section
/-! DEFINITION. The state of the core (10_state.md), as plain data, and the machine right after reset. -/

namespace Sys2Proof.Machine

/-- The seven control signals (10_state.md R31). -/
structure Ctrl where
  regDst : Bool
  aluSrc : Bool
  memToReg : Bool
  regWrite : Bool
  memRead : Bool
  memWrite : Bool
  branch : Bool
deriving DecidableEq, Repr

/-- The bundle of the IF/ID latch (10_state.md R32); `instr` is the field the spec calls `rec`. -/
structure IfId where
  instr : Instr
  pidx : Nat
  stalled : Bool
deriving DecidableEq, Repr

/-- The bundle of the ID/EX latch (10_state.md R33). -/
structure IdEx where
  instr : Instr
  pidx : Nat
  ctrl : Ctrl
  rsVal : Word
  rtVal : Word
  dest : RegIdx
deriving DecidableEq, Repr

/-- The bundle of the EX/MEM latch (10_state.md R34). -/
structure ExMem where
  instr : Instr
  pidx : Nat
  ctrl : Ctrl
  dest : RegIdx
  aluResult : Word
  storeVal : Word
  fwdRs : Bool
  fwdRt : Bool
deriving DecidableEq, Repr

/-- The bundle of the MEM/WB latch (10_state.md R35). -/
structure MemWb where
  instr : Instr
  pidx : Nat
  ctrl : Ctrl
  dest : RegIdx
  aluResult : Word
  loadedValue : Word
deriving DecidableEq, Repr

/-- The run status (10_state.md R37). A fatal outcome of 60_exceptions.md R210 is a status, not a fault of the model. -/
inductive Status where
  | running
  | terminated
  | addressError (pidx cycle : Nat)
  | branchTargetError (pidx cycle : Nat)
  | hazardDefect (cycle : Nat)
  | overrun (cycle : Nat)
deriving DecidableEq, Repr

/-- The five stages, in the order the driver calls them within a tick (40_pipeline.md R102). -/
inductive Slot where
  | writeBack | memory | execute | decode | fetch
deriving DecidableEq, Repr

/-- The tick in progress: the MODEL's own field (log entry 10). It holds the stage that acts and what the stages that
have acted give as next latch values and as the combinational `stall` and `flush` of 10_state.md R38.
At every cycle boundary it is `Tick.rest`, so nothing of it persists from one cycle to the next. -/
structure Tick where
  slot : Slot
  stall : Bool
  /-- The redirected pc of a flush, when there is one (44_branch.md R193). -/
  flush : Option Nat
  /-- IF takes `program[pc]` this cycle (40_pipeline.md R103). -/
  fetched : Bool
  ifId : Option IfId
  idEx : Option IdEx
  exMem : Option ExMem
  memWb : Option MemWb
deriving DecidableEq, Repr

/-- No tick in progress: every next latch a bubble, no stall, no flush, nothing fetched. -/
def Tick.rest : Tick :=
  { slot := .fetch, stall := false, flush := none, fetched := false, ifId := none, idEx := none, exMem := none, memWb := none }

/-- Data memory (10_state.md R29): its cells, addresses strictly rising, none equal to `unlistedWord`. -/
abbrev Memory := List MemCell

/-- The state of the core (10_state.md), with the launch values it was reset with (10_state.md R38; log entry 8)
and the model's own tick in progress (log entry 10). -/
structure State where
  /-- The program store `program[0..N-1]` (20_memory.md R64). -/
  program : List Instr
  /-- DMEM_BYTES (00_scope.md R6). -/
  dmemBytes : Nat
  /-- MAX_CYCLES (00_scope.md R6). -/
  maxCycles : Nat
  /-- The general registers (10_state.md R20). -/
  x : Vector Word 32
  /-- The data memory (10_state.md R29). -/
  dmem : Memory
  /-- The program counter, an instruction index (10_state.md R24). -/
  pc : Nat
  /-- The IF/ID latch; `none` is a bubble (10_state.md R30, R32). -/
  ifId : Option IfId
  /-- The ID/EX latch (10_state.md R33). -/
  idEx : Option IdEx
  /-- The EX/MEM latch (10_state.md R34). -/
  exMem : Option ExMem
  /-- The MEM/WB latch (10_state.md R35). -/
  memWb : Option MemWb
  /-- `cycle_count` (10_state.md R36). -/
  cycleCount : Nat
  /-- `stall_count` (10_state.md R36). -/
  stallCount : Nat
  /-- `status` (10_state.md R37). -/
  status : Status
  /-- The tick in progress (log entry 10). -/
  tick : Tick
deriving DecidableEq, Repr

/-- Reasons a step stops with a fault: none. Every stop the spec describes is a final `status`, a next state
(60_exceptions.md R210, R217, R218; log entry 11). Safe: no behaviour is cut off. -/
inductive Fault where
deriving DecidableEq, Repr

/-- Reasons a step is refused. -/
inductive Refusal where
  /-- An instruction without a meaning in `exec`; nothing raises it, since all five have one. Safe. -/
  | notModelled (mnemonic : String)
deriving DecidableEq, Repr

/-- The machine right after reset (10_state.md R39; 70_reset_and_hazards.md R230), with no program loaded and the open
launch values at the ones `Launch.default` names (log entries 1, 4 to 7). -/
def State.reset : State :=
  { program := []
    dmemBytes := Launch.default.dmemBytes
    maxCycles := Launch.default.maxCycles
    x := defaultReg0
    dmem := []
    pc := 0
    ifId := none
    idEx := none
    exMem := none
    memWb := none
    cycleCount := 0
    stallCount := 0
    status := .running
    tick := Tick.rest }

end Sys2Proof.Machine
end

