-- ==== Sys2Proof/WellFormed.lean ====
section
/-! DEFINITION. The loader's checks before cycle 1 (30_encoding.md R83, R90; 60_exceptions.md R211), and when launch
parameters lie in the ranges of 00_scope.md R6. A record of type `Instr` has passed the range checks by its type. -/

namespace Sys2Proof

/-- Why the loader rejects a line or a word: the named checks of 30_encoding.md R83 and the illegal word of R90.
All are Input errors raised before the cycle loop starts (60_exceptions.md R211); none is a run outcome. -/
inductive InputError where
  /-- The mnemonic is none of the five. -/
  | opKnown
  /-- The operand count does not match the opcode's arity. -/
  | arity
  /-- A numeric field does not parse as an integer. -/
  | intParse
  /-- A register index lies outside 0..31. -/
  | regRange
  /-- An immediate lies outside -32768..32767. -/
  | immRange
  /-- A packed word matches no row of 30_encoding.md R87. -/
  | illegalWord
deriving DecidableEq, Repr

/-- An Instruction Record as an external decoder hands it over, its numbers not yet checked (30_encoding.md R80). -/
structure RawRecord where
  op : Op
  rs : Int
  rt : Int
  rd : Int
  imm : Int
deriving DecidableEq, Repr

/-- `reg_range` (30_encoding.md R83): a register index lies in 0..31. -/
def regInRange (r : Int) : Bool := decide (0 ≤ r) && decide (r ≤ 31)

/-- `imm_range` (30_encoding.md R83): an immediate lies in -32768..32767. -/
def immInRange (v : Int) : Bool := decide (-32768 ≤ v) && decide (v ≤ 32767)

/-- `reg_range` of a whole record. -/
def RawRecord.regsInRange (r : RawRecord) : Bool := regInRange r.rs && regInRange r.rt && regInRange r.rd

/-- The range checks of 30_encoding.md R83 on a record. -/
def RawRecord.wellFormed (r : RawRecord) : Bool := r.regsInRange && immInRange r.imm

/-- The record with its fields cut to their widths; unused fields are dropped (30_encoding.md R81, R82). -/
def RawRecord.toInstr (r : RawRecord) : Instr :=
  match r.op with
  | .add => .add (BitVec.ofInt 5 r.rd) (BitVec.ofInt 5 r.rs) (BitVec.ofInt 5 r.rt)
  | .sub => .sub (BitVec.ofInt 5 r.rd) (BitVec.ofInt 5 r.rs) (BitVec.ofInt 5 r.rt)
  | .lw => .lw (BitVec.ofInt 5 r.rt) (BitVec.ofInt 16 r.imm) (BitVec.ofInt 5 r.rs)
  | .sw => .sw (BitVec.ofInt 5 r.rt) (BitVec.ofInt 16 r.imm) (BitVec.ofInt 5 r.rs)
  | .beq => .beq (BitVec.ofInt 5 r.rs) (BitVec.ofInt 5 r.rt) (BitVec.ofInt 16 r.imm)

/-- The record's checks and, when it passes them, the record the core receives (30_encoding.md R83). -/
def RawRecord.check (r : RawRecord) : Except InputError Instr :=
  if r.regsInRange then
    if immInRange r.imm then .ok r.toInstr else .error .immRange
  else .error .regRange

/-- The record of an instruction with its unused fields 0, as a decoder sets them (30_encoding.md R82). -/
def Instr.toRaw (i : Instr) : RawRecord :=
  { op := i.op, rs := i.rs.toNat, rt := i.rt.toNat, rd := i.rd.toNat, imm := i.imm.toInt }

/-- The ranges 00_scope.md R6 gives DMEM_BYTES and MAX_CYCLES. -/
def paramsOk (dmemBytes maxCycles : Nat) : Bool :=
  decide (dmemBytes % wordBytes = 0) && decide (wordBytes ≤ dmemBytes) && decide (dmemBytes ≤ 2 ^ 31) && decide (1 ≤ maxCycles)

/-- Launch parameters within the ranges of 00_scope.md R6. -/
def Launch.wellFormed (l : Launch) : Bool := paramsOk l.dmemBytes l.maxCycles

end Sys2Proof
end

