-- ==== Sys2Proof/Machine/Ops.lean ====
section
/-! DEFINITION. The named operations over registers, data memory and the tick (00_scope.md R9; 20_memory.md R61 to R63),
ending a run with a fatal status (40_pipeline.md R100 `abort`), and reset (70_reset_and_hazards.md R230). -/

namespace Sys2Proof.Machine

/-! ### Words -/

/-- `signed(w)` (00_scope.md R7). -/
def signed (w : Word) : Int := w.toInt

/-- `sext_32` of an immediate (00_scope.md R8). -/
def sext32 (v : Imm) : Word := v.signExtend 32

/-! ### Registers -/

/-- `x[i]` (00_scope.md R9): register 0 reads 0 (10_state.md R21). -/
def readReg (x : Vector Word 32) (i : RegIdx) : Word := if i = 0#5 then 0#32 else x[i.toNat]

/-- `x[i] <- v` (00_scope.md R9): a write to register 0 is a no-op (10_state.md R21). -/
def writeReg (x : Vector Word 32) (i : RegIdx) (v : Word) : Vector Word 32 := if i = 0#5 then x else x.set i.toNat v

/-- The registers after reset: register 0 is 0 whatever the launch gives (10_state.md R21, R39). -/
def launchRegs (reg0 : Vector Word 32) : Vector Word 32 := reg0.set 0 0#32

/-! ### Data memory -/

/-- The word at address `a`; an address with no cell holds `unlistedWord`. -/
def Memory.read (m : Memory) (a : Nat) : Word :=
  match m with
  | [] => unlistedWord
  | c :: cs => if c.1 = a then c.2 else Memory.read cs a

/-- The cell for `a`, or nothing where `v` is what an unlisted address holds. -/
def memCell (a : Nat) (v : Word) : Memory := if v = unlistedWord then [] else [(a, v)]

/-- Data memory with the word `v` at address `a` and every other word unchanged (20_memory.md R63), in canonical form. -/
def Memory.write (m : Memory) (a : Nat) (v : Word) : Memory :=
  match m with
  | [] => memCell a v
  | c :: cs =>
    if c.1 < a then c :: Memory.write cs a v
    else if c.1 = a then memCell a v ++ cs
    else memCell a v ++ c :: cs

/-- The addresses of the cells are above `lo`, strictly rising, and no cell holds `unlistedWord`. -/
def Memory.wfFrom (lo : Option Nat) (m : Memory) : Bool :=
  match m with
  | [] => true
  | c :: cs => (match lo with | none => true | some b => decide (b < c.1)) && decide (c.2 ≠ unlistedWord) && Memory.wfFrom (some c.1) cs

/-- The canonical form of data memory: equal memories are equal lists. -/
def Memory.wf (m : Memory) : Bool := Memory.wfFrom none m

/-- A valid data address (20_memory.md R61): `0 <= signed(a) < DMEM_BYTES` and `signed(a) mod 4 = 0`. -/
def validAddress (dmemBytes : Nat) (a : Word) : Bool :=
  decide (0 ≤ signed a) && decide (signed a < dmemBytes) && decide (signed a % wordBytes = 0)

/-- The key of a valid address in data memory: `signed(a)`, which is not negative. -/
def addressKey (a : Word) : Nat := (signed a).toNat

/-- `MemRead(a, 4)` (20_memory.md R63). -/
def memRead (m : Memory) (a : Word) : Word := m.read (addressKey a)

/-- `MemWrite(a, 4, v)` (20_memory.md R63). -/
def memWrite (m : Memory) (a v : Word) : Memory := m.write (addressKey a) v

/-- A cell of `mem0` at an address data memory has (10_state.md R29). -/
def launchCellOk (dmemBytes : Nat) (c : MemCell) : Bool := decide (c.1 < dmemBytes) && decide (c.1 % wordBytes = 0)

/-- Data memory after reset: every word from `mem0` (10_state.md R39; log entry 5). -/
def launchMemory (dmemBytes : Nat) (mem0 : List MemCell) : Memory :=
  (mem0.filter (launchCellOk dmemBytes)).foldl (fun m c => m.write c.1 c.2) []

/-- The word `mem0` gives an address: the last one listed for it, else `unlistedWord` (10_state.md R39; log entry 5). -/
def mem0Word (mem0 : List MemCell) (a : Nat) : Word := mem0.foldl (fun v c => if c.1 = a then c.2 else v) unlistedWord

/-! ### Reset -/

/-- Reset with a program store and launch values (10_state.md R39; 70_reset_and_hazards.md R230, R233). -/
def State.launch (program : List Instr) (l : Launch) : State :=
  { program := program
    dmemBytes := l.dmemBytes
    maxCycles := l.maxCycles
    x := launchRegs l.reg0
    dmem := launchMemory l.dmemBytes l.mem0
    pc := 0
    ifId := none
    idEx := none
    exMem := none
    memWb := none
    cycleCount := 0
    stallCount := 0
    status := .running
    tick := Tick.rest }

/-- A clock edge with `rst = 1`, from any state: the launch values are sampled anew and the program store keeps its
contents (70_reset_and_hazards.md R230). -/
def State.resetWith (s : State) (l : Launch) : State := State.launch s.program l

/-! ### The tick in progress -/

/-- The number of the cycle under way: `t = cycle_count + 1` (40_pipeline.md R100). -/
def State.cycle (s : State) : Nat := s.cycleCount + 1

/-- N, the length of the program (00_scope.md R13). -/
def State.progLen (s : State) : Nat := s.program.length

/-- A tick begins: nothing has been computed yet. -/
def State.beginTick (s : State) : State := { s with tick := Tick.rest }

/-- Stage `p` acts next. -/
def State.atSlot (s : State) (p : Slot) : State := { s with tick := { s.tick with slot := p } }

/-- The fatal end of a run (40_pipeline.md R100 `abort`; 60_exceptions.md R217): `cycle_count` rises and the status is
recorded; registers and data memory keep what the earlier stages of this cycle wrote; latches, pc and `stall_count` keep
their start-of-cycle values. There is no handler and no return (60_exceptions.md R219, R220). -/
def State.abort (s : State) (st : Status) : State :=
  { s with cycleCount := s.cycle, status := st, tick := Tick.rest }

/-- The next IF/ID latch: a flush empties it (44_branch.md R193). -/
def Tick.nextIfId (k : Tick) : Option IfId := if k.flush.isSome then none else k.ifId

/-- The next ID/EX latch: a flush empties it (44_branch.md R193). -/
def Tick.nextIdEx (k : Tick) : Option IdEx := if k.flush.isSome then none else k.idEx

/-- The next pc: the target on a flush, one on when IF fetched, else unchanged (10_state.md R25). -/
def State.nextPc (s : State) : Nat :=
  match s.tick.flush with
  | some target => target
  | none => if s.tick.fetched then s.pc + 1 else s.pc

/-- A stall that no flush overrides is counted (41_hazard_forwarding.md R146). -/
def State.nextStallCount (s : State) : Nat :=
  s.stallCount + (if s.tick.stall && s.tick.flush.isNone then 1 else 0)

/-- The pc is exhausted and all four next latches are bubbles (40_pipeline.md R127). -/
def State.drained (s : State) : Bool :=
  decide (s.progLen ≤ s.nextPc) && s.tick.nextIfId.isNone && s.tick.nextIdEx.isNone && s.tick.exMem.isNone && s.tick.memWb.isNone

/-- The status after a tick without a fatal error: `Terminated` is tested before `Overrun` (40_pipeline.md R127 to R129). -/
def State.nextStatus (s : State) : Status :=
  if s.drained then .terminated
  else if s.maxCycles ≤ s.cycle then .overrun s.cycle
  else .running

/-- The end of a tick (40_pipeline.md R100, flush, commit and status): latches, pc and counters take their next values
together (R101). -/
def State.commit (s : State) : State :=
  { s with
    pc := s.nextPc
    ifId := s.tick.nextIfId
    idEx := s.tick.nextIdEx
    exMem := s.tick.exMem
    memWb := s.tick.memWb
    cycleCount := s.cycle
    stallCount := s.nextStallCount
    status := s.nextStatus
    tick := Tick.rest }

end Sys2Proof.Machine
end

