-- ==== Sys2Proof/Machine/Operands.lean ====
section
/-! DEFINITION. Where an instruction's operands come from: control signals and destination (40_pipeline.md R108, R109),
the Hazard Unit (41_hazard_forwarding.md R140 to R144) and the Forwarding Unit (R150 to R158). -/

namespace Sys2Proof.Machine

/-- The control signals of an opcode, the table of 40_pipeline.md R109 with its don't-care entries driven 0. -/
def ctrl : Op → Ctrl
  | .add => { regDst := true, aluSrc := false, memToReg := false, regWrite := true, memRead := false, memWrite := false, branch := false }
  | .sub => { regDst := true, aluSrc := false, memToReg := false, regWrite := true, memRead := false, memWrite := false, branch := false }
  | .lw => { regDst := false, aluSrc := true, memToReg := true, regWrite := true, memRead := true, memWrite := false, branch := false }
  | .sw => { regDst := false, aluSrc := true, memToReg := false, regWrite := false, memRead := false, memWrite := true, branch := false }
  | .beq => { regDst := false, aluSrc := false, memToReg := false, regWrite := false, memRead := false, memWrite := false, branch := true }

/-- The destination field: `rd` if RegDst = 1, else `rt` (40_pipeline.md R108). -/
def destOf (i : Instr) : RegIdx := if (ctrl i.op).regDst then i.rd else i.rt

/-- The registers the Hazard Unit compares, register 0 left out (41_hazard_forwarding.md R140). -/
def sources (i : Instr) : List RegIdx :=
  (match i.op with
    | .lw => [i.rs]
    | _ => [i.rs, i.rt]).filter (fun r => r != 0#5)

/-- `load_use` (41_hazard_forwarding.md R141): a load in ID/EX whose destination is a source of `i`. -/
def loadUse (i : Instr) (idEx : Option IdEx) : Bool :=
  match idEx with
  | none => false
  | some e => e.ctrl.memRead && (sources i).contains e.dest

/-- `branch_haz` (41_hazard_forwarding.md R142): `i` is a `beq` with a source written by the instruction in ID/EX or
by a load in EX/MEM. -/
def branchHazard (i : Instr) (idEx : Option IdEx) (exMem : Option ExMem) : Bool :=
  (i.op == .beq) &&
    ((match idEx with
      | none => false
      | some e => e.ctrl.regWrite && (sources i).contains e.dest) ||
     (match exMem with
      | none => false
      | some m => m.ctrl.memRead && (sources i).contains m.dest))

/-- The stall signal for the instruction `i` in IF/ID (41_hazard_forwarding.md R144). -/
def hazard (i : Instr) (idEx : Option IdEx) (exMem : Option ExMem) : Bool :=
  loadUse i idEx || branchHazard i idEx exMem

/-- The value a MEM/WB bundle writes back (40_pipeline.md R123). -/
def writeBackValue (w : MemWb) : Word := if w.ctrl.memToReg then w.loadedValue else w.aluResult

/-- An operand from the Forwarding Unit: its value and its select flag, or the missed hazard of a load in EX/MEM. -/
inductive Operand where
  | value (v : Word) (forwarded : Bool)
  | defect
deriving DecidableEq, Repr

/-- MEM/WB as the forwarding source of register `r`, behind EX/MEM (41_hazard_forwarding.md R150, R152). -/
def fwdMemWb (r : RegIdx) (v : Word) (memWb : Option MemWb) : Operand :=
  match memWb with
  | none => .value v false
  | some w => if w.ctrl.regWrite && (w.dest == r) then .value (writeBackValue w) true else .value v false

/-- `fwd` (41_hazard_forwarding.md R150): the operand for source register `r` of the bundle in EX, `v` the value ID read.
Register 0 is never forwarded (R151), EX/MEM goes before MEM/WB (R152), a bubble supplies nothing (R153). -/
def fwd (r : RegIdx) (v : Word) (exMem : Option ExMem) (memWb : Option MemWb) : Operand :=
  if r = 0#5 then .value 0#32 false
  else match exMem with
    | none => fwdMemWb r v memWb
    | some m =>
      if m.ctrl.regWrite && (m.dest == r) then
        if m.ctrl.memRead then .defect else .value m.aluResult true
      else fwdMemWb r v memWb

/-- The second ALU operand: the immediate if ALUSrc = 1, else the rt operand (40_pipeline.md R114). -/
def secondOperand (c : Ctrl) (imm : Imm) (b : Word) : Word := if c.aluSrc then sext32 imm else b

/-- The ALU's sum, modulo 2^32 (40_pipeline.md R114; 42_arith.md R170). -/
def aluAdd (a b : Word) : Word := a + b

/-- The ALU's difference, modulo 2^32 (40_pipeline.md R114; 42_arith.md R171). -/
def aluSub (a b : Word) : Word := a - b

/-- The effective address of `lw` and `sw`, modulo 2^32 (43_load_store.md R180 to R182). -/
def effectiveAddress (base offset : Word) : Word := base + offset

end Sys2Proof.Machine
end

