-- ==== Sys2Proof/Machine/Flags.lean ====
section
/-! DEFINITION. The core has no flags, condition codes or predicates (10_state.md R27), so no flag is computed. What other
cores test a flag for, `beq` decides by comparing two register values in EX: the Branch Unit (44_branch.md R190 to R193). -/

namespace Sys2Proof.Machine

/-- The branch is taken: Branch = 1 and the operands are equal in all 32 bits (44_branch.md R190). -/
def branchTaken (c : Ctrl) (a b : Word) : Bool := c.branch && (a == b)

/-- `pidx + 1 + imm` over the integers (44_branch.md R192). -/
def branchTarget (pidx : Nat) (imm : Imm) : Int := (pidx : Int) + 1 + imm.toInt

end Sys2Proof.Machine
end

