-- ==== Sys2Proof/Machine/Stages.lean ====
section
/-! DEFINITION. What an instruction does in each of the five stages (40_pipeline.md R103 to R125), as operations that the
meanings of the instructions share. Each reads the start-of-cycle latches and writes the tick in progress (R101), but for
WB and MEM, which write the registers and data memory at once: WB is read by ID in the same cycle (R107), and MEM is
the only stage that reaches data memory. -/

namespace Sys2Proof.Machine

/-- What a stage action answers: always a next state, for every stop of the spec is a status. -/
abbrev Result := Host.Outcome State Fault Refusal

/-- IF of the record `i` found at `program[pc]` (40_pipeline.md R103). -/
def fetchStage (i : Instr) (s : State) : Result :=
  .next { s with tick := { s.tick with ifId := some { instr := i, pidx := s.pc, stalled := false }, fetched := true } }

/-- The ID/EX bundle of the instruction `i` decoded from IF/ID (40_pipeline.md R106 (c), R107, R108): the registers are
read after this cycle's write-back. -/
def decodedBundle (i : Instr) (d : IfId) (x : Vector Word 32) : IdEx :=
  { instr := i, pidx := d.pidx, ctrl := ctrl i.op, rsVal := readReg x i.rs, rtVal := readReg x i.rt, dest := destOf i }

/-- ID of the instruction `i` (40_pipeline.md R106): a stall writes a bubble into ID/EX, else the decoded bundle. -/
def decodeStage (i : Instr) (s : State) : Result :=
  match s.ifId with
  | none => .next { s with tick := { s.tick with idEx := none, stall := false } }
  | some d =>
    if hazard i s.idEx s.exMem then .next { s with tick := { s.tick with idEx := none, stall := true } }
    else .next { s with tick := { s.tick with idEx := some (decodedBundle i d s.x), stall := false } }

/-- The EX/MEM bundle (40_pipeline.md R113). -/
def executedBundle (i : Instr) (e : IdEx) (result b : Word) (fa fb : Bool) : ExMem :=
  { instr := i, pidx := e.pidx, ctrl := e.ctrl, dest := e.dest, aluResult := result, storeVal := b, fwdRs := fa, fwdRt := fb }

/-- The Branch Unit's part of EX (44_branch.md R190 to R193; 40_pipeline.md R115): a taken branch to a negative target
ends the run, any other taken branch sets the flush. `k` is the EX/MEM bundle the instruction leaves. -/
def resolveBranch (i : Instr) (e : IdEx) (a b : Word) (k : ExMem) (s : State) : Result :=
  if branchTaken e.ctrl a b then
    if branchTarget e.pidx i.imm < 0 then .next (s.abort (.branchTargetError e.pidx s.cycle))
    else .next { s with tick := { s.tick with exMem := some k, flush := some (branchTarget e.pidx i.imm).toNat } }
  else .next { s with tick := { s.tick with exMem := some k, flush := none } }

/-- EX of the instruction `i` with its ALU function and its rt operand (40_pipeline.md R112 to R115): `rt e` is the rt
operand, forwarded or not; a missed hazard ends the run (41_hazard_forwarding.md R150). -/
def executeStage (i : Instr) (alu : Word → Word → Word) (rt : IdEx → Operand) (s : State) : Result :=
  match s.idEx with
  | none => .next { s with tick := { s.tick with exMem := none, flush := none } }
  | some e =>
    match fwd i.rs e.rsVal s.exMem s.memWb, rt e with
    | .value a fa, .value b fb =>
      resolveBranch i e a b (executedBundle i e (alu a (secondOperand e.ctrl i.imm b)) b fa fb) s
    | _, _ => .next (s.abort (.hazardDefect s.cycle))

/-- The rt operand from the Forwarding Unit (40_pipeline.md R112; 41_hazard_forwarding.md R155). -/
def forwardedRt (i : Instr) (s : State) (e : IdEx) : Operand := fwd i.rt e.rtVal s.exMem s.memWb

/-- The rt value as ID read it: `lw`'s rt is its destination, not a source (41_hazard_forwarding.md R156). -/
def unforwardedRt (e : IdEx) : Operand := .value e.rtVal false

/-- The bundle accesses data memory at an address that is not valid (40_pipeline.md R117). -/
def memFaults (dmemBytes : Nat) (m : ExMem) : Bool :=
  (m.ctrl.memRead || m.ctrl.memWrite) && !(validAddress dmemBytes m.aluResult)

/-- The MEM/WB bundle (40_pipeline.md R118 to R120): `loaded_value` is read from memory as it stood at the start of the
cycle, and is 0 for what is no load. -/
def accessedBundle (i : Instr) (m : ExMem) (dmem : Memory) : MemWb :=
  { instr := i, pidx := m.pidx, ctrl := m.ctrl, dest := m.dest, aluResult := m.aluResult,
    loadedValue := if m.ctrl.memRead then memRead dmem m.aluResult else 0#32 }

/-- Data memory after the bundle's access (40_pipeline.md R121). -/
def accessedMemory (m : ExMem) (dmem : Memory) : Memory :=
  if m.ctrl.memWrite then memWrite dmem m.aluResult m.storeVal else dmem

/-- MEM of the instruction `i` (40_pipeline.md R116 to R121), by the control signals its latch carries (R110). -/
def memoryStage (i : Instr) (s : State) : Result :=
  match s.exMem with
  | none => .next { s with tick := { s.tick with memWb := none } }
  | some m =>
    if memFaults s.dmemBytes m then .next (s.abort (.addressError m.pidx s.cycle))
    else .next { s with dmem := accessedMemory m s.dmem, tick := { s.tick with memWb := some (accessedBundle i m s.dmem) } }

/-- The registers after a bundle's write-back (40_pipeline.md R123, R124). -/
def writtenBack (w : MemWb) (x : Vector Word 32) : Vector Word 32 :=
  if w.ctrl.regWrite && (w.dest != 0#5) then writeReg x w.dest (writeBackValue w) else x

/-- WB (40_pipeline.md R122 to R125), by the control signals its latch carries (R110). -/
def writeBackStage (s : State) : Result :=
  match s.memWb with
  | none => .next s
  | some w => .next { s with x := writtenBack w s.x }

end Sys2Proof.Machine
end

