-- ==== Sys2Proof/Machine/Arith.lean ====
section
/-! DEFINITION. Register-register arithmetic (42_arith.md R170 to R172): what `add` and `sub` do in each stage. -/

namespace Sys2Proof.Machine

/-- `add rd rs rt` (42_arith.md R170), in the stage that acts. No flag, no trap: the sum wraps modulo 2^32. -/
def execAdd (rd rs rt : RegIdx) (s : State) : Result :=
  match s.tick.slot with
  | .fetch => fetchStage (.add rd rs rt) s
  | .decode => decodeStage (.add rd rs rt) s
  | .execute => executeStage (.add rd rs rt) aluAdd (forwardedRt (.add rd rs rt) s) s
  | .memory => memoryStage (.add rd rs rt) s
  | .writeBack => writeBackStage s

/-- `sub rd rs rt` (42_arith.md R171), in the stage that acts: `rs - rt` modulo 2^32. -/
def execSub (rd rs rt : RegIdx) (s : State) : Result :=
  match s.tick.slot with
  | .fetch => fetchStage (.sub rd rs rt) s
  | .decode => decodeStage (.sub rd rs rt) s
  | .execute => executeStage (.sub rd rs rt) aluSub (forwardedRt (.sub rd rs rt) s) s
  | .memory => memoryStage (.sub rd rs rt) s
  | .writeBack => writeBackStage s

end Sys2Proof.Machine
end

