-- ==== Sys2Proof/Machine/Branch.lean ====
section
/-! DEFINITION. The equality branch (44_branch.md R190 to R198): what `beq` does in each stage. -/

namespace Sys2Proof.Machine

/-- `beq rs rt imm` (44_branch.md R190), in the stage that acts: resolved in EX, where a taken branch flushes and redirects
the pc or ends the run; it goes on through MEM and WB without effect (R197). -/
def execBeq (rs rt : RegIdx) (imm : Imm) (s : State) : Result :=
  match s.tick.slot with
  | .fetch => fetchStage (.beq rs rt imm) s
  | .decode => decodeStage (.beq rs rt imm) s
  | .execute => executeStage (.beq rs rt imm) aluSub (forwardedRt (.beq rs rt imm) s) s
  | .memory => memoryStage (.beq rs rt imm) s
  | .writeBack => writeBackStage s

end Sys2Proof.Machine
end

