-- ==== Sys2Proof/Machine/LoadStore.lean ====
section
/-! DEFINITION. Loads and stores (43_load_store.md R180 to R182): what `lw` and `sw` do in each stage. -/

namespace Sys2Proof.Machine

/-- `lw rt imm(rs)` (43_load_store.md R180), in the stage that acts: the address in EX, rt not forwarded there
(41_hazard_forwarding.md R156), the checked access in MEM, the register in WB. -/
def execLw (rt : RegIdx) (imm : Imm) (rs : RegIdx) (s : State) : Result :=
  match s.tick.slot with
  | .fetch => fetchStage (.lw rt imm rs) s
  | .decode => decodeStage (.lw rt imm rs) s
  | .execute => executeStage (.lw rt imm rs) effectiveAddress unforwardedRt s
  | .memory => memoryStage (.lw rt imm rs) s
  | .writeBack => writeBackStage s

/-- `sw rt imm(rs)` (43_load_store.md R181), in the stage that acts: the address and the store data in EX, the checked
store in MEM, nothing in WB. -/
def execSw (rt : RegIdx) (imm : Imm) (rs : RegIdx) (s : State) : Result :=
  match s.tick.slot with
  | .fetch => fetchStage (.sw rt imm rs) s
  | .decode => decodeStage (.sw rt imm rs) s
  | .execute => executeStage (.sw rt imm rs) effectiveAddress (forwardedRt (.sw rt imm rs) s) s
  | .memory => memoryStage (.sw rt imm rs) s
  | .writeBack => writeBackStage s

end Sys2Proof.Machine
end

