-- ==== Sys2Proof/Machine/Driver.lean ====
section
/-! DEFINITION. The pipeline driver (40_pipeline.md R100 to R102): one tick calls the stages WB, MEM, EX, ID, IF in that
order, each stage being `exec` of the instruction in its input latch, and then commits. A stage that ends the run ends the
tick (60_exceptions.md R216). -/

namespace Sys2Proof.Machine

/-- Go on with `f` while the run has not ended. -/
def andThen (o : Result) (f : State → Result) : Result :=
  match o with
  | .next s => if s.status = .running then f s else .next s
  | .fault r => .fault r
  | .refused r => .refused r

/-- Stage `p` of a tick: `exec` of the instruction its input latch holds; with a bubble it does nothing (10_state.md R30). -/
def runSlot (p : Slot) (i : Option Instr) (s : State) : Result :=
  match i with
  | none => .next (s.atSlot p)
  | some i => exec i (s.atSlot p)

/-- The instruction in WB (00_scope.md R11). -/
def State.inWriteBack (s : State) : Option Instr := s.memWb.map MemWb.instr
/-- The instruction in MEM (00_scope.md R11). -/
def State.inMemory (s : State) : Option Instr := s.exMem.map ExMem.instr
/-- The instruction in EX (00_scope.md R11). -/
def State.inExecute (s : State) : Option Instr := s.idEx.map IdEx.instr
/-- The instruction in ID (00_scope.md R11). -/
def State.inDecode (s : State) : Option Instr := s.ifId.map IfId.instr
/-- The instruction in IF: `program[pc]` when `pc < N` (00_scope.md R11; 20_memory.md R64). -/
def State.inFetch (s : State) : Option Instr := s.program[s.pc]?

/-- WB, MEM, EX and ID of a tick that begins. -/
def upstream (s : State) : Result :=
  andThen (runSlot .writeBack s.inWriteBack s.beginTick) fun s =>
  andThen (runSlot .memory s.inMemory s) fun s =>
  andThen (runSlot .execute s.inExecute s) fun s =>
  runSlot .decode s.inDecode s

/-- IF/ID held by a stall, with `stalled` set; nothing is fetched (41_hazard_forwarding.md R145). -/
def State.holdFetch (s : State) : State :=
  { s with tick := { s.tick with ifId := s.ifId.map (fun d => { d with stalled := true }), fetched := false } }

/-- IF of a tick (40_pipeline.md R103 to R105). -/
def fetchSlot (s : State) : Result :=
  if s.tick.stall then .next s.holdFetch else runSlot .fetch s.inFetch s

/-- All five stages of a tick, before the commit; a state whose status is no longer `Running` is the end of the run. -/
def stages (s : State) : Result := andThen (upstream s) fetchSlot

/-- One clock tick from `Running` (40_pipeline.md R100). -/
def clockTick (s : State) : Result := andThen (stages s) fun s => .next s.commit

/-- The program with the record `i` at index `k`; indices below `k` that the program lacks hold the no-op of
30_encoding.md R93. -/
def placeRecord (program : List Instr) (k : Nat) (i : Instr) : List Instr :=
  match k, program with
  | 0, [] => [i]
  | 0, _ :: is => i :: is
  | k + 1, [] => Instr.noOp :: placeRecord [] k i
  | k + 1, j :: is => j :: placeRecord is k i

end Sys2Proof.Machine
end

