-- ==== Sys2Proof/Machine/Step.lean ====
section
/-! DEFINITION. The one step of the core: a clock edge with `rst = 0` (00_scope.md R5; 40_pipeline.md R100). -/

namespace Sys2Proof.Machine

/-- A clock edge: one tick while `Running`; every other status is final and quiescent (60_exceptions.md R218). -/
def step (s : State) : Host.Outcome State Fault Refusal :=
  if s.status = .running then clockTick s else .next s

/-- `s` with the record of the packed word `w` in the program store where IF fetches next, at index `pc` (20_memory.md R64;
log entry 1). A word the decoder refuses never reaches the program store (30_encoding.md R90), so it leaves `s` as it is. -/
def State.withFetchWord (s : State) (nbits w : Nat) : State :=
  match decodeTableWord nbits w with
  | some i => { s with program := placeRecord s.program s.pc i }
  | none => s

end Sys2Proof.Machine
end

