-- ==== Sys2Proof/Machine/Loader.lean ====
section
/-! DEFINITION. The loader's side of the core's interface (00_scope.md R4 (a)): assembly lines or packed words become the
program, or the whole program is rejected with a named Input error before cycle 1 (30_encoding.md R83, R90, R92;
60_exceptions.md R211; 70_reset_and_hazards.md R233). Choices the spec leaves open here: log entry 14. -/

namespace Sys2Proof.Machine

/-- One line of assembly text. -/
abbrev Line := List Char

/-- White space between operands (30_encoding.md R92). Which characters count is a DESIGN CHOICE (log entry 14): space and
tab, and no other; a line with a carriage return or a form feed in it is not read as if that were a space. -/
def isBlank (c : Char) : Bool := c == ' ' || c == '\t'

/-- A decimal digit's value. -/
def digitValue (c : Char) : Option Nat :=
  if '0'.toNat ≤ c.toNat ∧ c.toNat ≤ '9'.toNat then some (c.toNat - '0'.toNat) else none

/-- Decimal digits after those that make `acc`. -/
def digitsFrom (acc : Nat) : Line → Option Nat
  | [] => some acc
  | c :: cs => (digitValue c).bind fun d => digitsFrom (10 * acc + d) cs

/-- One or more decimal digits (30_encoding.md R92). -/
def parseDigits : Line → Option Nat
  | [] => none
  | cs => digitsFrom 0 cs

/-- `int := ["-" | "+"] digits` (30_encoding.md R92). -/
def parseInt : Line → Option Int
  | '-' :: cs => (parseDigits cs).map fun n => -(n : Int)
  | '+' :: cs => (parseDigits cs).map fun n => (n : Int)
  | cs => (parseDigits cs).map fun n => (n : Int)

/-- The `decimal` of a register, which has no sign (30_encoding.md R92). Leading zeros are allowed (DESIGN CHOICE, log
entry 14). No signed register loads: a negative number parses, so that `reg_range` rejects it (R83), and `-0`, which is in
range as a number, does not parse (DESIGN CHOICE which check names it, log entry 14). -/
def parseRegNumber : Line → Option Int
  | '-' :: cs => (parseDigits cs).bind fun n => if n = 0 then none else some (-(n : Int))
  | cs => (parseDigits cs).map fun n => (n : Int)

/-- `reg := ["$"] decimal` (30_encoding.md R92). -/
def parseReg : Line → Option Int
  | '$' :: cs => parseRegNumber cs
  | cs => parseRegNumber cs

/-- The text before and after the first `sep`, when there is one. -/
def splitAtChar (sep : Char) : Line → Option (Line × Line)
  | [] => none
  | c :: cs => if c = sep then some ([], cs) else (splitAtChar sep cs).map fun p => (c :: p.1, p.2)

/-- The text without a last `)`. -/
def dropCloseParen : Line → Option Line
  | [] => none
  | [c] => if c = ')' then some [] else none
  | c :: cs => (dropCloseParen cs).map fun r => c :: r

/-- `mem := int "(" reg ")"`, as its offset and its base (30_encoding.md R92). -/
def parseMem (cs : Line) : Option (Int × Int) :=
  (splitAtChar '(' cs).bind fun p =>
  (parseInt p.1).bind fun imm =>
  ((dropCloseParen p.2).bind parseReg).map fun rs => (imm, rs)

/-- The words of a line and how many of `,` stand between them: `word` is the word being read, in reverse, and `comma`
says that a comma has come since the last word. Two commas in a row, or a comma before the first or after the last word,
give `none` (30_encoding.md R92 `sep`). -/
def lineWords (started comma : Bool) (word : Line) : Line → Option (List Line)
  | [] => if word = [] then (if comma then none else some []) else some [word.reverse]
  | c :: cs =>
    if c = ',' then
      if word = [] then (if comma || !started then none else lineWords started true [] cs)
      else (lineWords true true [] cs).map fun ws => word.reverse :: ws
    else if isBlank c then
      if word = [] then lineWords started comma [] cs
      else (lineWords true false [] cs).map fun ws => word.reverse :: ws
    else lineWords started false (c :: word) cs

/-- `op_known` (30_encoding.md R83): the mnemonics, lower case (R92). -/
def parseOp (w : Line) : Option Op :=
  if w = ['a', 'd', 'd'] then some .add
  else if w = ['s', 'u', 'b'] then some .sub
  else if w = ['l', 'w'] then some .lw
  else if w = ['s', 'w'] then some .sw
  else if w = ['b', 'e', 'q'] then some .beq
  else none

/-- A parsed field, or the Input error `int_parse`. -/
def orIntParse {α : Type} : Option α → Except InputError α
  | some v => .ok v
  | none => .error .intParse

/-- The operands of a line as a record: `arity`, then `int_parse` (30_encoding.md R81, R83, R92). -/
def parseOperands (op : Op) (args : List Line) : Except InputError RawRecord :=
  match op, args with
  | .add, [a, b, c] | .sub, [a, b, c] => do
    let rd ← orIntParse (parseReg a)
    let rs ← orIntParse (parseReg b)
    let rt ← orIntParse (parseReg c)
    return { op := op, rs := rs, rt := rt, rd := rd, imm := 0 }
  | .lw, [a, m] | .sw, [a, m] => do
    let rt ← orIntParse (parseReg a)
    let mem ← orIntParse (parseMem m)
    return { op := op, rs := mem.2, rt := rt, rd := 0, imm := mem.1 }
  | .beq, [a, b, c] => do
    let rs ← orIntParse (parseReg a)
    let rt ← orIntParse (parseReg b)
    let imm ← orIntParse (parseInt c)
    return { op := op, rs := rs, rt := rt, rd := 0, imm := imm }
  | _, _ => .error .arity

/-- One line becomes exactly one record that passes the checks of 30_encoding.md R83, or the first check it fails. -/
def parseLine (line : Line) : Except InputError Instr :=
  match lineWords false false [] line with
  | none => .error .arity
  | some [] => .error .opKnown
  | some (w :: args) =>
    match parseOp w with
    | none => .error .opKnown
    | some op => (parseOperands op args).bind RawRecord.check

/-- Every element converted, or the first error: a program that fails any check is rejected whole (30_encoding.md R83). -/
def convertAll {α β ε : Type} (f : α → Except ε β) : List α → Except ε (List β)
  | [] => .ok []
  | a :: as =>
    match f a, convertAll f as with
    | .error e, _ => .error e
    | .ok _, .error e => .error e
    | .ok b, .ok bs => .ok (b :: bs)

/-- The program of an assembly text, line by line (70_reset_and_hazards.md R233, step 1). -/
def loadText (lines : List Line) : Except InputError (List Instr) := convertAll parseLine lines

/-- One packed word; an illegal one is an Input error (30_encoding.md R90). -/
def loadWord (w : Word) : Except InputError Instr :=
  match decode w with
  | .ok i => .ok i
  | .error _ => .error .illegalWord

/-- The program of a sequence of packed words (30_encoding.md R84, R90). -/
def loadWords (ws : List Word) : Except InputError (List Instr) := convertAll loadWord ws

/-- Boot (70_reset_and_hazards.md R233): a rejected program starts no run. -/
def boot (program : Except InputError (List Instr)) (l : Launch) : Except InputError State :=
  program.map fun p => State.launch p l

end Sys2Proof.Machine
end

