-- ==== Sys2Proof/Machine/Reference.lean ====
section
/-! DEFINITION. The whole tick of 40_pipeline.md R100 as one function, written from its pseudocode line by line: the clear
version the staged `step` is to be compared with. `step` does not use it. -/

namespace Sys2Proof.Machine

/-- `alu(op, a, op2)` (40_pipeline.md R114). -/
def alu : Op → Word → Word → Word
  | .add, a, op2 => a + op2
  | .sub, a, op2 => a - op2
  | .lw, a, op2 => a + op2
  | .sw, a, op2 => a + op2
  | .beq, a, op2 => a - op2

/-- What EX of R100 computes: nothing, the bundle EM' with the redirected pc, or the fatal status that aborts. -/
inductive ExOutcome where
  | bubble
  | done (em : ExMem) (target : Option Nat)
  | abort (st : Status)
deriving DecidableEq, Repr

/-- The WB lines of R100: the registers X. -/
def refWriteBack (s : State) : Vector Word 32 :=
  match s.memWb with
  | none => s.x
  | some w =>
    if w.ctrl.regWrite = true ∧ w.dest ≠ 0#5 then
      writeReg s.x w.dest (if w.ctrl.memToReg then w.loadedValue else w.aluResult)
    else s.x

/-- The address check of R100's MEM lines. -/
def refMemAborts (s : State) : Option Status :=
  match s.exMem with
  | none => none
  | some m =>
    if (m.ctrl.memRead = true ∨ m.ctrl.memWrite = true) ∧ validAddress s.dmemBytes m.aluResult = false then
      some (.addressError m.pidx (s.cycleCount + 1))
    else none

/-- The MEM lines of R100 past the check: D and MW'. -/
def refMemory (s : State) : Memory × Option MemWb :=
  match s.exMem with
  | none => (s.dmem, none)
  | some m =>
    (if m.ctrl.memWrite then memWrite s.dmem m.aluResult m.storeVal else s.dmem,
     some { instr := m.instr, pidx := m.pidx, ctrl := m.ctrl, dest := m.dest, aluResult := m.aluResult,
            loadedValue := if m.ctrl.memRead then memRead s.dmem m.aluResult else 0#32 })

/-- The EX lines of R100. -/
def refExecute (s : State) : ExOutcome :=
  match s.idEx with
  | none => .bubble
  | some e =>
    match fwd e.instr.rs e.rsVal s.exMem s.memWb,
      (if e.instr.op = .lw then .value e.rtVal false else fwd e.instr.rt e.rtVal s.exMem s.memWb) with
    | .value a fa, .value b fb =>
      let em : ExMem :=
        { instr := e.instr, pidx := e.pidx, ctrl := e.ctrl, dest := e.dest,
          aluResult := alu e.instr.op a (if e.ctrl.aluSrc then sext32 e.instr.imm else b),
          storeVal := b, fwdRs := fa, fwdRt := fb }
      if e.ctrl.branch = true ∧ a = b then
        if (e.pidx : Int) + 1 + e.instr.imm.toInt < 0 then .abort (.branchTargetError e.pidx (s.cycleCount + 1))
        else .done em (some ((e.pidx : Int) + 1 + e.instr.imm.toInt).toNat)
      else .done em none
    | _, _ => .abort (.hazardDefect (s.cycleCount + 1))

/-- `stall` of R100's ID lines. -/
def refStall (s : State) : Bool :=
  match s.ifId with
  | none => false
  | some d => hazard d.instr s.idEx s.exMem

/-- IE' of R100's ID lines, with X the registers after WB. -/
def refDecode (s : State) (X : Vector Word 32) : Option IdEx :=
  match s.ifId with
  | none => none
  | some d =>
    if refStall s then none
    else some { instr := d.instr, pidx := d.pidx, ctrl := ctrl d.instr.op, rsVal := readReg X d.instr.rs,
                rtVal := readReg X d.instr.rt, dest := if (ctrl d.instr.op).regDst then d.instr.rd else d.instr.rt }

/-- FD' and pc' of R100's IF lines. -/
def refFetch (s : State) : Option IfId × Nat :=
  if refStall s then (s.ifId.map fun d => { d with stalled := true }, s.pc)
  else match s.program[s.pc]? with
    | some i => (some { instr := i, pidx := s.pc, stalled := false }, s.pc + 1)
    | none => (none, s.pc)

/-- R100's `abort(S, X, D, st)`. -/
def refAbort (s : State) (X : Vector Word 32) (D : Memory) (st : Status) : State :=
  { s with x := X, dmem := D, cycleCount := s.cycleCount + 1, status := st, tick := Tick.rest }

/-- R100's commit: S' from the next values. -/
def refCommit (s : State) (X : Vector Word 32) (D : Memory) (MW' : Option MemWb) (EM' : Option ExMem) (target : Option Nat) : State :=
  let t := s.cycleCount + 1
  let FD' := if target.isSome then none else (refFetch s).1
  let IE' := if target.isSome then none else refDecode s X
  let pc' := target.getD (refFetch s).2
  let stalls' := s.stallCount + (if refStall s ∧ target = none then 1 else 0)
  let status :=
    if pc' ≥ s.program.length ∧ FD' = none ∧ IE' = none ∧ EM' = none ∧ MW' = none then Status.terminated
    else if t ≥ s.maxCycles then Status.overrun t
    else Status.running
  { s with x := X, dmem := D, pc := pc', ifId := FD', idEx := IE', exMem := EM', memWb := MW', cycleCount := t,
           stallCount := stalls', status := status, tick := Tick.rest }

/-- `tick(S)` of 40_pipeline.md R100, for a state whose status is `Running`. -/
def referenceTick (s : State) : State :=
  let X := refWriteBack s
  match refMemAborts s with
  | some st => refAbort s X s.dmem st
  | none =>
    let D := (refMemory s).1
    let MW' := (refMemory s).2
    match refExecute s with
    | .abort st => refAbort s X D st
    | .bubble => refCommit s X D MW' none none
    | .done em target => refCommit s X D MW' (some em) target

end Sys2Proof.Machine
end

