-- ==== Sys2Proof/Machine/Outputs.lean ====
section
/-! DEFINITION. What the core shows outside (40_pipeline.md R133 to R136): the snapshot of a cycle, the ports and the final
outputs, all functions of the state, and the clock edge with the reset pin. No rule reads any of them. -/

namespace Sys2Proof.Machine

/-- The numeric code of the `status` output (60_exceptions.md R210). -/
def statusCode : Status → Nat
  | .running => 0
  | .terminated => 1
  | .addressError _ _ => 2
  | .branchTargetError _ _ => 3
  | .hazardDefect _ => 4
  | .overrun _ => 5

/-- The `fault_pidx` output, where the status records one (60_exceptions.md R210; log entry 15). -/
def faultPidx : Status → Option Nat
  | .addressError p _ => some p
  | .branchTargetError p _ => some p
  | .running | .terminated | .hazardDefect _ | .overrun _ => none

/-- The `fault_cycle` output, where the status records one (60_exceptions.md R210; log entry 15). -/
def faultCycle : Status → Option Nat
  | .addressError _ t => some t
  | .branchTargetError _ t => some t
  | .hazardDefect t => some t
  | .overrun t => some t
  | .running | .terminated => none

/-- The `done` output: `status != Running`, the return value of `tick()` (40_pipeline.md R136). -/
def State.done (s : State) : Bool := decide (s.status ≠ .running)

/-- The `imem_index` output (40_pipeline.md R136). -/
def State.imemIndex (s : State) : Nat := s.pc

/-- The `imem_valid` output: `pc < N` (40_pipeline.md R136). -/
def State.imemValid (s : State) : Bool := decide (s.pc < s.progLen)

/-- The debug read port on the registers (40_pipeline.md R136). -/
def State.dbgReg (s : State) (i : RegIdx) : Word := readReg s.x i

/-- The debug read port on data memory, at a valid address (40_pipeline.md R136; log entry 15). -/
def State.dbgMem (s : State) (a : Word) : Option Word :=
  if validAddress s.dmemBytes a then some (memRead s.dmem a) else none

/-- The IF slot of a snapshot (40_pipeline.md R133). -/
structure FetchView where
  op : Op
  pidx : Nat
deriving DecidableEq, Repr

/-- The EX, MEM or WB slot of a snapshot (40_pipeline.md R133). -/
structure StageView where
  op : Op
  pidx : Nat
  ctrl : Ctrl
deriving DecidableEq, Repr

/-- The ID slot of a snapshot (40_pipeline.md R133). -/
structure DecodeView where
  op : Op
  pidx : Nat
  ctrl : Ctrl
  stalled : Bool
deriving DecidableEq, Repr

/-- The stage-occupancy snapshot of a cycle (40_pipeline.md R133); `none` in a slot is a bubble. -/
structure Snapshot where
  cycle : Nat
  inFetch : Option FetchView
  inDecode : Option DecodeView
  inExecute : Option StageView
  inMemory : Option StageView
  inWriteBack : Option StageView
  stall : Bool
  flush : Bool
deriving DecidableEq, Repr

/-- The tick that starts at `s` once its five stages have acted, or the resting tick when the cycle aborts. -/
def State.cycleTick (s : State) : Tick :=
  match stages s with
  | .next u => if u.status = .running then u.tick else Tick.rest
  | .fault _ => Tick.rest
  | .refused _ => Tick.rest

/-- A stall that no flush overrides; 0 in a tick that aborts (40_pipeline.md R133). -/
def State.stallSignal (s : State) : Bool := s.cycleTick.stall && s.cycleTick.flush.isNone

/-- The flush of this cycle; 0 in a tick that aborts (40_pipeline.md R133). -/
def State.flushSignal (s : State) : Bool := s.cycleTick.flush.isSome

/-- The snapshot the tick from `s` emits (40_pipeline.md R133); a final status emits none (log entry 16). -/
def State.snapshot (s : State) : Option Snapshot :=
  if s.status = .running then
    some
      { cycle := s.cycle
        inFetch := s.inFetch.map fun i => { op := i.op, pidx := s.pc }
        inDecode := s.ifId.map fun d => { op := d.instr.op, pidx := d.pidx, ctrl := ctrl d.instr.op, stalled := s.stallSignal }
        inExecute := s.idEx.map fun e => { op := e.instr.op, pidx := e.pidx, ctrl := e.ctrl }
        inMemory := s.exMem.map fun m => { op := m.instr.op, pidx := m.pidx, ctrl := m.ctrl }
        inWriteBack := s.memWb.map fun w => { op := w.instr.op, pidx := w.pidx, ctrl := w.ctrl }
        stall := s.stallSignal
        flush := s.flushSignal }
  else none

/-- What the core exposes once the status has left `Running` (40_pipeline.md R135). -/
structure FinalOutputs where
  regs : List Word
  dmem : Memory
  cycleCount : Nat
  stallCount : Nat
  status : Status
deriving DecidableEq, Repr

/-- The 32 register indices in order. -/
def regIndices : List RegIdx := (List.range 32).map (BitVec.ofNat 5)

/-- The final outputs (40_pipeline.md R135). -/
def State.finalOutputs (s : State) : Option FinalOutputs :=
  if s.done then
    some { regs := regIndices.map (readReg s.x), dmem := s.dmem, cycleCount := s.cycleCount, stallCount := s.stallCount, status := s.status }
  else none

/-- A rising edge of `clk` (40_pipeline.md R136): with `rst = 1` reset with the launch values sampled at that edge and no
tick, with `rst = 0` one step (70_reset_and_hazards.md R230; log entry 13). -/
def clockEdge (rst : Option Launch) (s : State) : Result :=
  match rst with
  | some l => .next (s.resetWith l)
  | none => step s

end Sys2Proof.Machine
end

