-- ==== Sys2Proof/Machine/Sequential.lean ====
section
/-! DEFINITION. The machine that runs the same program one instruction at a time (70_reset_and_hazards.md R236), and the
sequential state a pipelined state stands for. -/

namespace Sys2Proof.Machine

/-- How the sequential machine stands: running, or stopped by an error of the instruction at `pidx` (70_reset_and_hazards.md
R236). It has stopped normally when `pc` is at or past N. -/
inductive SeqStatus where
  | running
  | addressError (pidx : Nat)
  | branchTargetError (pidx : Nat)
deriving DecidableEq, Repr

/-- The state of the sequential machine. -/
structure SeqState where
  x : Vector Word 32
  dmem : Memory
  pc : Nat
  status : SeqStatus
deriving DecidableEq, Repr

/-- `add` on its own (42_arith.md R170). -/
def seqAdd (rd rs rt : RegIdx) (q : SeqState) : SeqState :=
  { q with x := writeReg q.x rd (readReg q.x rs + readReg q.x rt), pc := q.pc + 1 }

/-- `sub` on its own (42_arith.md R171). -/
def seqSub (rd rs rt : RegIdx) (q : SeqState) : SeqState :=
  { q with x := writeReg q.x rd (readReg q.x rs - readReg q.x rt), pc := q.pc + 1 }

/-- `lw` on its own (43_load_store.md R180). -/
def seqLw (dmemBytes : Nat) (rt : RegIdx) (imm : Imm) (rs : RegIdx) (q : SeqState) : SeqState :=
  if validAddress dmemBytes (readReg q.x rs + sext32 imm) then
    { q with x := writeReg q.x rt (memRead q.dmem (readReg q.x rs + sext32 imm)), pc := q.pc + 1 }
  else { q with status := .addressError q.pc }

/-- `sw` on its own (43_load_store.md R181). -/
def seqSw (dmemBytes : Nat) (rt : RegIdx) (imm : Imm) (rs : RegIdx) (q : SeqState) : SeqState :=
  if validAddress dmemBytes (readReg q.x rs + sext32 imm) then
    { q with dmem := memWrite q.dmem (readReg q.x rs + sext32 imm) (readReg q.x rt), pc := q.pc + 1 }
  else { q with status := .addressError q.pc }

/-- `beq` on its own (44_branch.md R190, R192). -/
def seqBeq (rs rt : RegIdx) (imm : Imm) (q : SeqState) : SeqState :=
  if readReg q.x rs = readReg q.x rt then
    if branchTarget q.pc imm < 0 then { q with status := .branchTargetError q.pc }
    else { q with pc := (branchTarget q.pc imm).toNat }
  else { q with pc := q.pc + 1 }

/-- One instruction of the sequential machine. -/
def seqInstr (dmemBytes : Nat) (i : Instr) (q : SeqState) : SeqState :=
  match i with
  | .add rd rs rt => seqAdd rd rs rt q
  | .sub rd rs rt => seqSub rd rs rt q
  | .lw rt imm rs => seqLw dmemBytes rt imm rs q
  | .sw rt imm rs => seqSw dmemBytes rt imm rs q
  | .beq rs rt imm => seqBeq rs rt imm q

/-- One step of the sequential machine; it stays where it is once it has stopped. -/
def seqStep (program : List Instr) (dmemBytes : Nat) (q : SeqState) : SeqState :=
  match q.status, program[q.pc]? with
  | .running, some i => seqInstr dmemBytes i q
  | _, _ => q

/-- `n` steps of the sequential machine. -/
def seqRun (program : List Instr) (dmemBytes : Nat) : Nat → SeqState → SeqState
  | 0, q => q
  | n + 1, q => seqRun program dmemBytes n (seqStep program dmemBytes q)

/-- The sequential machine at the starting state of a launch, index 0. -/
def seqLaunch (l : Launch) : SeqState :=
  { x := launchRegs l.reg0, dmem := launchMemory l.dmemBytes l.mem0, pc := 0, status := .running }

/-- The registers once the instruction in WB has written back. -/
def State.retiredRegs (s : State) : Vector Word 32 :=
  match s.memWb with
  | none => s.x
  | some w => writtenBack w s.x

/-- The index of the oldest instruction that EX has not acted on, or the next one to fetch. -/
def State.resumeIndex (s : State) : Nat :=
  match s.idEx, s.ifId with
  | some e, _ => e.pidx
  | none, some d => d.pidx
  | none, none => s.pc

/-- The sequential state a pipelined state stands for: the instructions in WB and MEM completed, those not yet in EX/MEM
not begun. -/
def State.sequential (s : State) : SeqState :=
  match s.exMem with
  | none => { x := s.retiredRegs, dmem := s.dmem, pc := s.resumeIndex, status := .running }
  | some m =>
    if memFaults s.dmemBytes m then
      { x := s.retiredRegs, dmem := s.dmem, pc := m.pidx, status := .addressError m.pidx }
    else
      { x := writtenBack (accessedBundle m.instr m s.dmem) s.retiredRegs, dmem := accessedMemory m s.dmem,
        pc := s.resumeIndex, status := .running }

end Sys2Proof.Machine
end

