-- ==== Sys2Proof/Safety.lean ====
section
/-! DEFINITION. What counts as a safe run: the fatal outcomes (60_exceptions.md R210), the invariants of the state
(10_state.md section 8), and what a run is counted by (70_reset_and_hazards.md R240). -/

namespace Sys2Proof.Machine

/-- A final status is any other than `Running` (60_exceptions.md R218). -/
def Status.final (st : Status) : Bool := decide (st ≠ .running)

/-- The fatal errors that name an instruction or a cycle of the run (60_exceptions.md R210). -/
def Status.fatal : Status → Bool
  | .addressError _ _ | .branchTargetError _ _ | .hazardDefect _ => true
  | .running | .terminated | .overrun _ => false

/-- Every cell of data memory lies at an address data memory has (10_state.md R29). -/
def Memory.inRange (dmemBytes : Nat) (m : Memory) : Bool := m.all (launchCellOk dmemBytes)

/-- Data memory is in canonical form and holds nothing outside its range. -/
def State.memoryOk (s : State) : Prop := s.dmem.wf = true ∧ s.dmem.inRange s.dmemBytes = true

/-- The launch values lie in the ranges of 00_scope.md R6. -/
def State.paramsOk (s : State) : Prop := Sys2Proof.paramsOk s.dmemBytes s.maxCycles = true

/-- The bundle in IF/ID is the record at its index, and the pc is the index after it (10_state.md R25, R26). -/
def State.ifIdOk (s : State) : Prop :=
  ∀ d, s.ifId = some d → s.program[d.pidx]? = some d.instr ∧ s.pc = d.pidx + 1

/-- The bundle in ID/EX is the record at its index with its own control signals and destination (40_pipeline.md R108 to
R110), and what stands behind it is the record at the next index (10_state.md R40). -/
def State.idExOk (s : State) : Prop :=
  ∀ e, s.idEx = some e → s.program[e.pidx]? = some e.instr ∧ e.ctrl = ctrl e.instr.op ∧ e.dest = destOf e.instr ∧
    (∀ d, s.ifId = some d → d.pidx = e.pidx + 1) ∧ (s.ifId = none → s.pc = e.pidx + 1)

/-- The bundle in EX/MEM is the record at its index with its own control signals and destination (40_pipeline.md R110). -/
def State.exMemOk (s : State) : Prop :=
  ∀ m, s.exMem = some m → s.program[m.pidx]? = some m.instr ∧ m.ctrl = ctrl m.instr.op ∧ m.dest = destOf m.instr

/-- The bundle in MEM/WB is the record at its index with its own control signals and destination (40_pipeline.md R110). -/
def State.memWbOk (s : State) : Prop :=
  ∀ w, s.memWb = some w → s.program[w.pidx]? = some w.instr ∧ w.ctrl = ctrl w.instr.op ∧ w.dest = destOf w.instr

/-- No hazard has been missed: a load in EX/MEM writes no source of the instruction in EX (41_hazard_forwarding.md R159). -/
def State.noMissedHazard (s : State) : Prop :=
  ∀ e m, s.idEx = some e → s.exMem = some m → m.ctrl.memRead = true → m.dest ∉ sources e.instr

/-- While the run goes on, the operands in ID/EX are the registers as they stand (40_pipeline.md R107). -/
def State.operandsFresh (s : State) : Prop :=
  s.status = .running → ∀ e, s.idEx = some e → e.rsVal = readReg s.x e.instr.rs ∧ e.rtVal = readReg s.x e.instr.rt

/-- While the run goes on, the watchdog has not been reached, and no more cycles stalled than passed (40_pipeline.md R128, R131). -/
def State.countersOk (s : State) : Prop :=
  (s.status = .running → s.cycleCount < s.maxCycles) ∧ s.stallCount ≤ s.cycleCount

/-- The invariant of the core. -/
structure State.Inv (s : State) : Prop where
  regZero : s.x[0] = 0#32
  memory : s.memoryOk
  params : s.paramsOk
  ifId : s.ifIdOk
  idEx : s.idExOk
  exMem : s.exMemOk
  memWb : s.memWbOk
  noMissedHazard : s.noMissedHazard
  operandsFresh : s.operandsFresh
  counters : s.countersOk
  resting : s.tick = Tick.rest

/-- `k` steps of the core from `s`, as a state: `step` always answers a next state. -/
def runState : Nat → State → State
  | 0, s => s
  | k + 1, s =>
    match step s with
    | .next s' => runState k s'
    | .fault _ => s
    | .refused _ => s

/-- A write-back is performed by the tick from `s` (40_pipeline.md R125). -/
def State.writesBack (s : State) : Bool := decide (s.status = .running) && s.memWb.isSome

/-- The tick from `s` flushes to a target below N (70_reset_and_hazards.md R240). -/
def State.flushesInside (s : State) : Bool :=
  decide (s.status = .running) &&
    (match s.cycleTick.flush with
     | none => false
     | some target => decide (target < s.progLen))

/-- The write-backs W that `k` ticks from `s` perform (70_reset_and_hazards.md R240). -/
def writeBacks : Nat → State → Nat
  | 0, _ => 0
  | k + 1, s => writeBacks k s + (if (runState k s).writesBack then 1 else 0)

/-- The flushes F to a target below N of `k` ticks from `s` (70_reset_and_hazards.md R240). -/
def flushesInside : Nat → State → Nat
  | 0, _ => 0
  | k + 1, s => flushesInside k s + (if (runState k s).flushesInside then 1 else 0)

end Sys2Proof.Machine
end

