-- ==== Sys2Proof/Certificates/Slice0/Obligations.lean ====
section
/-! DEFINITION. The statements about the model, each a `Prop` named for what it says. A next state is written out whole
wherever it can be, so that it is its own frame: a field the update does not name is unchanged. -/

open Sys2Proof Sys2Proof.Machine

/-! ### Encoding and loading -/

/-- Words of 95_test_vectors.md section 2.1 decode to the records they stand for; the word 0 is refused. -/
def Obligations.DecodesSpecWords : Prop :=
  decode 0x00221820 = .ok (.add 3 1 2) ∧ decode 0x03FFF822 = .ok (.sub 31 31 31) ∧ decode 0x8C22FFFC = .ok (.lw 2 0xFFFC 1) ∧
  decode 0xAFFF7FFF = .ok (.sw 31 0x7FFF 31) ∧ decode 0x1000FFFA = .ok (.beq 0 0 0xFFFA) ∧
  decode 0x00000000 = .error (.illegalFunct 0) ∧ decode 0x00000060 = .error (.nonzeroShamt 1)

/-- Decoding the packed word of a record gives the record back, with every operand at every value
(30_encoding.md R85, R86, R88). -/
def Obligations.DecodeEncodeAgree : Prop := ∀ i : Instr, decode (encode i) = .ok i

/-- Each record has one packed word: a word that decodes is the word of what it decodes to (30_encoding.md R85 to R88). -/
def Obligations.EncodeDecodeAgree : Prop := ∀ (w : Word) (i : Instr), decode w = .ok i → encode i = w

/-- At most one row of the opcode map matches any word (30_encoding.md R87). -/
def Obligations.OpcodeRowsAreDisjoint : Prop :=
  ∀ (w : Word) (r r' : OpRow), r ∈ opRows → r' ∈ opRows → r.selects w = true → r'.selects w = true → r = r'

/-- The words the decoder refuses are exactly those of 30_encoding.md R90: another opcode, or opcode 0 with another funct or a
non-zero shamt. -/
def Obligations.RefusesExactlyIllegalWords : Prop :=
  ∀ w : Word, (∃ e, decode w = .error e) ↔
    ((opcodeField w ≠ 0x00 ∧ opcodeField w ≠ 0x04 ∧ opcodeField w ≠ 0x23 ∧ opcodeField w ≠ 0x2B) ∨
     (opcodeField w = 0x00 ∧ ((functField w ≠ 0x20 ∧ functField w ≠ 0x22) ∨ shamtField w ≠ 0)))

/-- A sequence of words loads iff every word decodes, and then record k is what word k decodes to (30_encoding.md R90). -/
def Obligations.LoadWordsDecodesEachWord : Prop :=
  ∀ ws : List Word,
    ((∃ p, loadWords ws = .ok p) ↔ ∀ w ∈ ws, ∃ i, decode w = .ok i) ∧
    (∀ p, loadWords ws = .ok p →
      p.length = ws.length ∧ ∀ (k : Nat) (w : Word), ws[k]? = some w → ∃ i, decode w = .ok i ∧ p[k]? = some i)

/-- A text loads iff every line passes its checks, and then each line is exactly one record (30_encoding.md R83). The checks:
`op_known`, the first word is one of the five mnemonics; `arity`, three operands, or two where one is a memory operand;
`int_parse`, every operand parses; `reg_range` and `imm_range`, the registers lie in 0..31 and the immediate in
-32768..32767. Which check is named first is the model's choice (log entry 14). -/
def Obligations.LoadTextIsLineByLine : Prop :=
  ∀ ls : List Line,
    ((∃ p, loadText ls = .ok p) ↔ ∀ l ∈ ls, ∃ i, parseLine l = .ok i) ∧
    (∀ p, loadText ls = .ok p →
      p.length = ls.length ∧ ∀ (k : Nat) (l : Line), ls[k]? = some l → ∃ i, parseLine l = .ok i ∧ p[k]? = some i) ∧
    (∀ (l : Line) (i : Instr), parseLine l = .ok i ↔
      ∃ w args op r, lineWords false false [] l = some (w :: args) ∧ parseOp w = some op ∧ parseOperands op args = .ok r ∧
        r.check = .ok i) ∧
    (∀ (w : Line) (op : Op), parseOp w = some op ↔
      w = (match op with | .add => "add" | .sub => "sub" | .lw => "lw" | .sw => "sw" | .beq => "beq").toList) ∧
    (∀ (op : Op) (args : List Line),
      parseOperands op args = .error .arity ↔ args.length ≠ if op = .lw ∨ op = .sw then 2 else 3) ∧
    (∀ (op : Op) (a b c : Line) (r : RawRecord), op = .add ∨ op = .sub →
      (parseOperands op [a, b, c] = .ok r ↔ r.op = op ∧ r.imm = 0 ∧
        parseReg a = some r.rd ∧ parseReg b = some r.rs ∧ parseReg c = some r.rt)) ∧
    (∀ (op : Op) (a m : Line) (r : RawRecord), op = .lw ∨ op = .sw →
      (parseOperands op [a, m] = .ok r ↔ r.op = op ∧ r.rd = 0 ∧ parseReg a = some r.rt ∧ parseMem m = some (r.imm, r.rs))) ∧
    (∀ (a b c : Line) (r : RawRecord),
      parseOperands .beq [a, b, c] = .ok r ↔ r.op = .beq ∧ r.rd = 0 ∧
        parseReg a = some r.rs ∧ parseReg b = some r.rt ∧ parseInt c = some r.imm) ∧
    (∀ r : RawRecord, r.check =
      if (0 ≤ r.rs ∧ r.rs ≤ 31) ∧ (0 ≤ r.rt ∧ r.rt ≤ 31) ∧ (0 ≤ r.rd ∧ r.rd ≤ 31) then
        if -32768 ≤ r.imm ∧ r.imm ≤ 32767 then .ok r.toInstr else .error .immRange
      else .error .regRange)

/-! ### Reset and boot -/

/-- At a clock edge with rst = 1 every piece of state takes the value of the table of 10_state.md R39, from any state. -/
def Obligations.ResetLoadsEveryPieceOfState : Prop :=
  ∀ (s : State) (l : Launch), ∃ t, clockEdge (some l) s = .next t ∧
    readReg t.x 0#5 = 0#32 ∧ (∀ r : RegIdx, r ≠ 0#5 → readReg t.x r = l.reg0[r.toNat]) ∧
    (∀ a : Nat, a < l.dmemBytes → a % 4 = 0 → t.dmem.read a = mem0Word l.mem0 a) ∧
    t.pc = 0 ∧ t.ifId = none ∧ t.idEx = none ∧ t.exMem = none ∧ t.memWb = none ∧
    t.cycleCount = 0 ∧ t.stallCount = 0 ∧ t.status = .running

/-- Reset depends on nothing but the launch values and the program store, which it leaves as it is
(70_reset_and_hazards.md R230). That DMEM_BYTES is replaced too is the model's choice (log entry 8): R230 does not list it
among the values sampled, and 00_scope.md R6 and 20_memory.md R68 leave it to the launch. -/
def Obligations.ResetKeepsOnlyTheProgram : Prop :=
  ∀ (s s' : State) (l : Launch), s.program = s'.program →
    clockEdge (some l) s = clockEdge (some l) s' ∧ ∃ t, clockEdge (some l) s = .next t ∧ t.program = s.program ∧
      t.dmemBytes = l.dmemBytes ∧ t.maxCycles = l.maxCycles

/-- The reset state meets the invariant of the core. Its open launch values are the model's choice (log entries 4 to 7). -/
def Obligations.ResetMeetsInvariant : Prop := State.reset.Inv

/-- Every launch with parameters in range meets the invariant of the core. -/
def Obligations.LaunchMeetsInvariant : Prop :=
  ∀ (program : List Instr) (l : Launch), l.wellFormed = true → (State.launch program l).Inv

/-- The empty program terminates in tick 1 with no other change (70_reset_and_hazards.md R234). -/
def Obligations.EmptyProgramTerminatesInOneCycle : Prop :=
  ∀ l : Launch, step (State.launch [] l) = .next { State.launch [] l with cycleCount := 1, status := .terminated }

/-! ### The step -/

/-- A step runs the instruction at the program counter: when the stages ahead of IF have not ended the run and ID does not
stall, the step is `exec` of `program[pc]` in the fetch slot, and then the commit; the record there is the one the loaded
word decodes to. -/
def Obligations.StepRunsDecodedInstruction : Prop :=
  ∀ (s u : State) (i : Instr), s.status = .running → upstream s = .next u → u.status = .running → u.tick.stall = false →
    (s.program[s.pc]? = some i ∨
      ∃ ws w, loadWords ws = .ok s.program ∧ ws[s.pc]? = some w ∧ decode w = .ok i) →
    step s = andThen (exec i (u.atSlot .fetch)) (fun v => .next v.commit)

/-- A step runs every instruction in flight: with all four latches full it is `exec` of each of them in the slot of its stage,
in the order WB, MEM, EX, ID, then IF, then the commit (40_pipeline.md R102). -/
def Obligations.StepRunsEveryStageInOrder : Prop :=
  ∀ (s : State) (d : IfId) (e : IdEx) (m : ExMem) (w : MemWb), s.status = .running →
    s.ifId = some d → s.idEx = some e → s.exMem = some m → s.memWb = some w →
    step s =
      andThen (exec w.instr (s.beginTick.atSlot .writeBack)) fun s1 =>
      andThen (exec m.instr (s1.atSlot .memory)) fun s2 =>
      andThen (exec e.instr (s2.atSlot .execute)) fun s3 =>
      andThen (exec d.instr (s3.atSlot .decode)) fun s4 =>
      andThen (fetchSlot s4) fun s5 => .next s5.commit

/-- The step is the tick of 40_pipeline.md R100, from every `Running` state. -/
def Obligations.StepIsTheReferenceTick : Prop :=
  ∀ s : State, s.status = .running → step s = .next (referenceTick s)

/-- Every status other than `Running` is final and quiescent, until reset (60_exceptions.md R218). -/
def Obligations.FinalStatusIsQuiescent : Prop :=
  ∀ s : State, s.status ≠ .running →
    clockEdge none s = .next s ∧ ∀ l, ∃ t, clockEdge (some l) s = .next t ∧ t.status = .running

/-! ### What each instruction does in each stage -/

/-- Every instruction, in IF: its record enters IF/ID with the pc as its index (40_pipeline.md R103). -/
def Obligations.FetchLatchesTheRecord : Prop :=
  ∀ (i : Instr) (s : State), s.tick.slot = .fetch →
    exec i s = .next { s with tick := { s.tick with
      ifId := some { instr := i, pidx := s.pc, stalled := false }, fetched := true } }

/-- Every instruction, in ID without a hazard: its control signals, both registers and its destination enter ID/EX
(40_pipeline.md R106 to R109). -/
def Obligations.DecodeLatchesOperands : Prop :=
  ∀ (i : Instr) (s : State) (d : IfId), s.tick.slot = .decode → s.ifId = some d → hazard i s.idEx s.exMem = false →
    exec i s = .next { s with tick := { s.tick with
      stall := false
      idEx := some {
        instr := i, pidx := d.pidx, ctrl := ctrl i.op, rsVal := readReg s.x i.rs, rtVal := readReg s.x i.rt,
        dest := match i with
          | .add rd _ _ => rd
          | .sub rd _ _ => rd
          | .lw rt _ _ => rt
          | .sw rt _ _ => rt
          | .beq _ rt _ => rt } } }

/-- Every instruction, in ID with a hazard: a bubble enters ID/EX and the stall is signalled (40_pipeline.md R106). The hazard
is a load in ID/EX that writes a source of the instruction, or, for a `beq`, any writer of a source in ID/EX or a load of one
in EX/MEM (41_hazard_forwarding.md R141, R142, R144); the sources are rs and rt, rs alone for `lw`, never register 0 (R140). -/
def Obligations.DecodeStallsOnHazard : Prop :=
  (∀ (i : Instr) (s : State) (d : IfId), s.tick.slot = .decode → s.ifId = some d → hazard i s.idEx s.exMem = true →
    exec i s = .next { s with tick := { s.tick with stall := true, idEx := none } }) ∧
  (∀ (i : Instr) (idEx : Option IdEx) (exMem : Option ExMem), hazard i idEx exMem = true ↔
    (∃ e, idEx = some e ∧ e.ctrl.memRead = true ∧ e.dest ∈ sources i) ∨
    (i.op = .beq ∧
      ((∃ e, idEx = some e ∧ e.ctrl.regWrite = true ∧ e.dest ∈ sources i) ∨
       (∃ m, exMem = some m ∧ m.ctrl.memRead = true ∧ m.dest ∈ sources i)))) ∧
  (∀ (i : Instr) (r : RegIdx), r ∈ sources i ↔ r ≠ 0#5 ∧
    match i with
    | .add _ rs rt => r = rs ∨ r = rt
    | .sub _ rs rt => r = rs ∨ r = rt
    | .lw _ _ rs => r = rs
    | .sw rt _ rs => r = rs ∨ r = rt
    | .beq rs rt _ => r = rs ∨ r = rt)

/-- `add` in EX: the sum of its forwarded operands modulo 2^32 enters EX/MEM; nothing else changes (42_arith.md R170). -/
def Obligations.AddExecutes : Prop :=
  ∀ (rd rs rt : RegIdx) (s : State) (e : IdEx) (a b : Word) (fa fb : Bool), s.tick.slot = .execute → s.idEx = some e →
    e.ctrl = ctrl .add → fwd rs e.rsVal s.exMem s.memWb = .value a fa → fwd rt e.rtVal s.exMem s.memWb = .value b fb →
    exec (.add rd rs rt) s = .next { s with tick := { s.tick with
      flush := none
      exMem := some {
        instr := .add rd rs rt, pidx := e.pidx, ctrl := e.ctrl, dest := e.dest,
        aluResult := BitVec.ofNat 32 ((a.toNat + b.toNat) % 2 ^ 32), storeVal := b, fwdRs := fa, fwdRt := fb } } }

/-- `sub` in EX: the difference of its forwarded operands modulo 2^32 enters EX/MEM; nothing else changes (42_arith.md R171). -/
def Obligations.SubExecutes : Prop :=
  ∀ (rd rs rt : RegIdx) (s : State) (e : IdEx) (a b : Word) (fa fb : Bool), s.tick.slot = .execute → s.idEx = some e →
    e.ctrl = ctrl .sub → fwd rs e.rsVal s.exMem s.memWb = .value a fa → fwd rt e.rtVal s.exMem s.memWb = .value b fb →
    exec (.sub rd rs rt) s = .next { s with tick := { s.tick with
      flush := none
      exMem := some {
        instr := .sub rd rs rt, pidx := e.pidx, ctrl := e.ctrl, dest := e.dest,
        aluResult := BitVec.ofInt 32 ((a.toInt - b.toInt) % 2 ^ 32), storeVal := b, fwdRs := fa, fwdRt := fb } } }

/-- `lw` in EX: base plus sign-extended offset modulo 2^32 enters EX/MEM, rt taken unforwarded; nothing else changes
(43_load_store.md R180, R182; 41_hazard_forwarding.md R156). -/
def Obligations.LwExecutes : Prop :=
  ∀ (rt : RegIdx) (imm : Imm) (rs : RegIdx) (s : State) (e : IdEx) (a : Word) (fa : Bool), s.tick.slot = .execute →
    s.idEx = some e → e.ctrl = ctrl .lw → fwd rs e.rsVal s.exMem s.memWb = .value a fa →
    exec (.lw rt imm rs) s = .next { s with tick := { s.tick with
      flush := none
      exMem := some {
        instr := .lw rt imm rs, pidx := e.pidx, ctrl := e.ctrl, dest := e.dest,
        aluResult := BitVec.ofInt 32 (a.toInt + imm.toInt), storeVal := e.rtVal, fwdRs := fa, fwdRt := false } } }

/-- `sw` in EX: base plus sign-extended offset modulo 2^32 and the forwarded store data enter EX/MEM; nothing else changes
(43_load_store.md R181, R182). -/
def Obligations.SwExecutes : Prop :=
  ∀ (rt : RegIdx) (imm : Imm) (rs : RegIdx) (s : State) (e : IdEx) (a b : Word) (fa fb : Bool), s.tick.slot = .execute →
    s.idEx = some e → e.ctrl = ctrl .sw → fwd rs e.rsVal s.exMem s.memWb = .value a fa →
    fwd rt e.rtVal s.exMem s.memWb = .value b fb →
    exec (.sw rt imm rs) s = .next { s with tick := { s.tick with
      flush := none
      exMem := some {
        instr := .sw rt imm rs, pidx := e.pidx, ctrl := e.ctrl, dest := e.dest,
        aluResult := BitVec.ofInt 32 (a.toInt + imm.toInt), storeVal := b, fwdRs := fa, fwdRt := fb } } }

/-- `beq` in EX: with unequal operands no flush; with equal ones and a target that is not negative, a flush to
`pidx + 1 + imm`; the beq itself enters EX/MEM either way; nothing else changes (44_branch.md R190, R192, R193). -/
def Obligations.BeqExecutes : Prop :=
  ∀ (rs rt : RegIdx) (imm : Imm) (s : State) (e : IdEx) (a b : Word) (fa fb : Bool), s.tick.slot = .execute →
    s.idEx = some e → e.ctrl = ctrl .beq → fwd rs e.rsVal s.exMem s.memWb = .value a fa →
    fwd rt e.rtVal s.exMem s.memWb = .value b fb → (a = b → 0 ≤ (e.pidx : Int) + 1 + imm.toInt) →
    exec (.beq rs rt imm) s = .next { s with tick := { s.tick with
      flush := if a = b then some ((e.pidx : Int) + 1 + imm.toInt).toNat else none
      exMem := some {
        instr := .beq rs rt imm, pidx := e.pidx, ctrl := e.ctrl, dest := e.dest, aluResult := a - b,
        storeVal := b, fwdRs := fa, fwdRt := fb } } }

/-- `beq` in EX with equal operands and a negative target: the run ends with BranchTargetError, the registers and data memory
as they stand, latches, pc and stall count unchanged (60_exceptions.md R213, R217). -/
def Obligations.BeqNegativeTargetEndsTheRun : Prop :=
  ∀ (rs rt : RegIdx) (imm : Imm) (s : State) (e : IdEx) (a : Word) (fa fb : Bool), s.tick.slot = .execute →
    s.idEx = some e → e.ctrl = ctrl .beq → fwd rs e.rsVal s.exMem s.memWb = .value a fa →
    fwd rt e.rtVal s.exMem s.memWb = .value a fb → (e.pidx : Int) + 1 + imm.toInt < 0 →
    exec (.beq rs rt imm) s = .next { s with
      cycleCount := s.cycleCount + 1, status := .branchTargetError e.pidx (s.cycleCount + 1), tick := Tick.rest }

/-- Any instruction in EX with a source that a load in EX/MEM writes (rs, and rt but for `lw`): the run ends with HazardDefect
rather than with a wrong value (60_exceptions.md R214; 41_hazard_forwarding.md R150, R156). -/
def Obligations.MissedHazardEndsTheRun : Prop :=
  ∀ (i : Instr) (s : State) (e : IdEx) (m : ExMem), s.tick.slot = .execute → s.idEx = some e → s.exMem = some m →
    m.ctrl = ctrl .lw → m.dest ≠ 0#5 → (m.dest = i.rs ∨ (m.dest = i.rt ∧ i.op ≠ .lw)) →
    exec i s = .next { s with
      cycleCount := s.cycleCount + 1, status := .hazardDefect (s.cycleCount + 1), tick := Tick.rest }

/-- `add`, `sub` and `beq` in MEM: no access and no address check; the bundle enters MEM/WB with loaded value 0 and nothing
else changes (40_pipeline.md R118). -/
def Obligations.ArithAndBranchPassMemory : Prop :=
  ∀ (i : Instr) (s : State) (m : ExMem), (i.op = .add ∨ i.op = .sub ∨ i.op = .beq) → s.tick.slot = .memory →
    s.exMem = some m → m.ctrl = ctrl i.op →
    exec i s = .next { s with tick := { s.tick with
      memWb := some { instr := i, pidx := m.pidx, ctrl := m.ctrl, dest := m.dest, aluResult := m.aluResult, loadedValue := 0#32 } } }

/-- `lw` in MEM at a valid address: the word there enters MEM/WB; nothing else changes (43_load_store.md R180). -/
def Obligations.LwLoadsTheWord : Prop :=
  ∀ (rt : RegIdx) (imm : Imm) (rs : RegIdx) (s : State) (m : ExMem), s.tick.slot = .memory → s.exMem = some m →
    m.ctrl = ctrl .lw → validAddress s.dmemBytes m.aluResult = true →
    exec (.lw rt imm rs) s = .next { s with tick := { s.tick with
      memWb := some {
        instr := .lw rt imm rs, pidx := m.pidx, ctrl := m.ctrl, dest := m.dest, aluResult := m.aluResult,
        loadedValue := s.dmem.read m.aluResult.toInt.toNat } } }

/-- `sw` in MEM at a valid address: the word at that address becomes the store data and every other word is unchanged, and so
is everything else but MEM/WB (43_load_store.md R181; 20_memory.md R63). -/
def Obligations.SwStoresTheWord : Prop :=
  ∀ (rt : RegIdx) (imm : Imm) (rs : RegIdx) (s : State) (m : ExMem), s.tick.slot = .memory → s.exMem = some m →
    m.ctrl = ctrl .sw → validAddress s.dmemBytes m.aluResult = true → s.dmem.wf = true →
    ∃ D : Memory, exec (.sw rt imm rs) s = .next { s with dmem := D, tick := { s.tick with
      memWb := some {
        instr := .sw rt imm rs, pidx := m.pidx, ctrl := m.ctrl, dest := m.dest, aluResult := m.aluResult,
        loadedValue := 0#32 } } } ∧
      D.wf = true ∧ ∀ a : Nat, D.read a = if a = m.aluResult.toInt.toNat then m.storeVal else s.dmem.read a

/-- `lw` and `sw` in MEM at an address that is negative, at or above DMEM_BYTES, or no multiple of 4: the run ends with
AddressError; no access, latches, pc and stall count unchanged (60_exceptions.md R212, R217). -/
def Obligations.InvalidAddressEndsTheRun : Prop :=
  ∀ (i : Instr) (s : State) (m : ExMem), (i.op = .lw ∨ i.op = .sw) → s.tick.slot = .memory → s.exMem = some m →
    m.ctrl = ctrl i.op →
    (m.aluResult.toInt < 0 ∨ (s.dmemBytes : Int) ≤ m.aluResult.toInt ∨ m.aluResult.toInt % 4 ≠ 0) →
    exec i s = .next { s with
      cycleCount := s.cycleCount + 1, status := .addressError m.pidx (s.cycleCount + 1), tick := Tick.rest }

/-- `add`, `sub` and `lw` in WB: the destination register takes the result, or the loaded word for `lw`; register 0 stays 0;
every other register and everything else is unchanged (42_arith.md R170, R171; 43_load_store.md R180). -/
def Obligations.WriteBackWritesTheDestination : Prop :=
  ∀ (i : Instr) (s : State) (w : MemWb), (i.op = .add ∨ i.op = .sub ∨ i.op = .lw) → s.tick.slot = .writeBack →
    s.memWb = some w → w.ctrl = ctrl i.op →
    ∃ X : Vector Word 32, exec i s = .next { s with x := X } ∧ X[0] = s.x[0] ∧
      ∀ r : RegIdx, readReg X r =
        if r = w.dest ∧ r ≠ 0#5 then (if i.op = .lw then w.loadedValue else w.aluResult) else readReg s.x r

/-- `sw` and `beq` in WB: nothing changes (43_load_store.md R181; 44_branch.md R197). -/
def Obligations.StoreAndBranchWriteNoRegister : Prop :=
  ∀ (i : Instr) (s : State) (w : MemWb), (i.op = .sw ∨ i.op = .beq) → s.tick.slot = .writeBack → s.memWb = some w →
    w.ctrl = ctrl i.op → exec i s = .next s

/-! ### One instruction on its own, from fetch to write-back -/

/-- `add` as the last instruction of a drained pipeline: five ticks, no stall, rd takes rs + rt, the run terminates and
nothing else changes; with rd = 0 no register changes (42_arith.md R170; 70_reset_and_hazards.md R241). -/
def Obligations.AddCompletesInFiveTicks : Prop :=
  ∀ (rd rs rt : RegIdx) (s : State), s.status = .running → s.ifId = none → s.idEx = none → s.exMem = none → s.memWb = none →
    s.program[s.pc]? = some (.add rd rs rt) → s.progLen = s.pc + 1 → s.cycleCount + 4 < s.maxCycles →
    runState 5 s = { s with
      x := writeReg s.x rd (readReg s.x rs + readReg s.x rt), pc := s.pc + 1, cycleCount := s.cycleCount + 5,
      status := .terminated, tick := Tick.rest }

/-- `sub` as the last instruction of a drained pipeline: as `add`, with rs - rt (42_arith.md R171). -/
def Obligations.SubCompletesInFiveTicks : Prop :=
  ∀ (rd rs rt : RegIdx) (s : State), s.status = .running → s.ifId = none → s.idEx = none → s.exMem = none → s.memWb = none →
    s.program[s.pc]? = some (.sub rd rs rt) → s.progLen = s.pc + 1 → s.cycleCount + 4 < s.maxCycles →
    runState 5 s = { s with
      x := writeReg s.x rd (readReg s.x rs - readReg s.x rt), pc := s.pc + 1, cycleCount := s.cycleCount + 5,
      status := .terminated, tick := Tick.rest }

/-- `lw` as the last instruction of a drained pipeline: at a valid address, five ticks and rt takes the word at
rs + sext(imm); at any other, AddressError in the fourth tick with registers and data memory unchanged
(43_load_store.md R180). -/
def Obligations.LwCompletesOrFaults : Prop :=
  ∀ (rt : RegIdx) (imm : Imm) (rs : RegIdx) (s : State), s.status = .running → s.ifId = none → s.idEx = none →
    s.exMem = none → s.memWb = none → s.program[s.pc]? = some (.lw rt imm rs) → s.progLen = s.pc + 1 →
    s.cycleCount + 4 < s.maxCycles →
    if validAddress s.dmemBytes (readReg s.x rs + sext32 imm) then
      runState 5 s = { s with
        x := writeReg s.x rt (s.dmem.read (readReg s.x rs + sext32 imm).toInt.toNat), pc := s.pc + 1,
        cycleCount := s.cycleCount + 5, status := .terminated, tick := Tick.rest }
    else
      (runState 4 s).status = .addressError s.pc (s.cycleCount + 4) ∧ (runState 4 s).x = s.x ∧ (runState 4 s).dmem = s.dmem ∧
        (runState 4 s).pc = s.pc + 1 ∧ (runState 4 s).cycleCount = s.cycleCount + 4 ∧ (runState 4 s).stallCount = s.stallCount

/-- `sw` as the last instruction of a drained pipeline: at a valid address, five ticks, the word at rs + sext(imm) becomes rt
and every other word and register is unchanged; at any other, AddressError in the fourth tick and no store
(43_load_store.md R181). -/
def Obligations.SwCompletesOrFaults : Prop :=
  ∀ (rt : RegIdx) (imm : Imm) (rs : RegIdx) (s : State), s.status = .running → s.ifId = none → s.idEx = none →
    s.exMem = none → s.memWb = none → s.program[s.pc]? = some (.sw rt imm rs) → s.progLen = s.pc + 1 →
    s.cycleCount + 4 < s.maxCycles → s.dmem.wf = true →
    if validAddress s.dmemBytes (readReg s.x rs + sext32 imm) then
      ∃ D : Memory, runState 5 s = { s with
          dmem := D, pc := s.pc + 1, cycleCount := s.cycleCount + 5, status := .terminated, tick := Tick.rest } ∧
        ∀ a : Nat, D.read a = if a = (readReg s.x rs + sext32 imm).toInt.toNat then readReg s.x rt else s.dmem.read a
    else
      (runState 4 s).status = .addressError s.pc (s.cycleCount + 4) ∧ (runState 4 s).x = s.x ∧ (runState 4 s).dmem = s.dmem ∧
        (runState 4 s).pc = s.pc + 1 ∧ (runState 4 s).cycleCount = s.cycleCount + 4 ∧ (runState 4 s).stallCount = s.stallCount

/-- `beq` as the last instruction of a drained pipeline. Not taken, or taken to a target at or past N: five ticks, the pc at
pidx + 1 or at the target, nothing else changes. Taken to an earlier index: after three ticks the pc is there and IF/ID and
ID/EX are empty. Taken to a negative one: BranchTargetError in the third tick (44_branch.md R190, R192, R193). -/
def Obligations.BeqCompletesOrRedirectsOrFaults : Prop :=
  ∀ (rs rt : RegIdx) (imm : Imm) (s : State), s.status = .running → s.ifId = none → s.idEx = none → s.exMem = none →
    s.memWb = none → s.program[s.pc]? = some (.beq rs rt imm) → s.progLen = s.pc + 1 → s.cycleCount + 4 < s.maxCycles →
    if readReg s.x rs = readReg s.x rt then
      if (s.pc : Int) + 1 + imm.toInt < 0 then
        (runState 3 s).status = .branchTargetError s.pc (s.cycleCount + 3) ∧ (runState 3 s).x = s.x ∧
          (runState 3 s).dmem = s.dmem ∧ (runState 3 s).pc = s.pc + 1 ∧ (runState 3 s).cycleCount = s.cycleCount + 3
      else if (s.pc : Int) + 1 + imm.toInt < s.progLen then
        ((runState 3 s).pc : Int) = s.pc + 1 + imm.toInt ∧ (runState 3 s).ifId = none ∧ (runState 3 s).idEx = none ∧
          (runState 3 s).status = .running ∧ (runState 3 s).x = s.x ∧ (runState 3 s).dmem = s.dmem ∧
          (runState 3 s).stallCount = s.stallCount
      else
        runState 5 s = { s with
          pc := ((s.pc : Int) + 1 + imm.toInt).toNat, cycleCount := s.cycleCount + 5, status := .terminated, tick := Tick.rest }
    else
      runState 5 s = { s with
        pc := s.pc + 1, cycleCount := s.cycleCount + 5, status := .terminated, tick := Tick.rest }

/-! ### What a tick does -/

/-- `cycle_count` rises by exactly 1 in every tick, and a final status that records a cycle records that value
(40_pipeline.md R130). -/
def Obligations.CycleCountRisesByOne : Prop :=
  ∀ s t : State, s.status = .running → step s = .next t →
    t.cycleCount = s.cycleCount + 1 ∧ ∀ c, faultCycle t.status = some c → c = t.cycleCount

/-- `stall_count` rises by 1 in exactly the ticks that stall without a flush (41_hazard_forwarding.md R146). -/
def Obligations.StallCountCountsStalls : Prop :=
  ∀ s t : State, s.status = .running → step s = .next t →
    t.stallCount = s.stallCount + (if s.stallSignal then 1 else 0)

/-- The pc changes in exactly three ways: one on when IF fetches, held by a stall or when exhausted, redirected by a flush to
pidx + 1 + imm of the instruction in EX (10_state.md R25). -/
def Obligations.PcChangesInThreeWays : Prop :=
  ∀ s t : State, s.status = .running → step s = .next t →
    (s.flushSignal = true → ∃ e, s.idEx = some e ∧ e.ctrl.branch = true ∧ (t.pc : Int) = (e.pidx : Int) + 1 + e.instr.imm.toInt) ∧
    (s.flushSignal = false → s.stallSignal = true → t.pc = s.pc) ∧
    (s.flushSignal = false → s.stallSignal = false → t.status.fatal = false → s.pc < s.progLen → t.pc = s.pc + 1) ∧
    (s.flushSignal = false → s.progLen ≤ s.pc →
      t.pc = s.pc ∧ (s.stallSignal = false → t.status.fatal = false → t.ifId = none)) ∧
    (t.status.fatal = true → t.pc = s.pc)

/-- Fetch with predict-not-taken (40_pipeline.md R103). -/
def Obligations.FetchAdvancesSequentially : Prop :=
  ∀ (s t : State) (i : Instr), s.status = .running → step s = .next t → t.status.fatal = false →
    s.stallSignal = false → s.flushSignal = false → s.program[s.pc]? = some i →
    t.ifId = some { instr := i, pidx := s.pc, stalled := false } ∧ t.pc = s.pc + 1

/-- Exhausted fetch (40_pipeline.md R104). -/
def Obligations.ExhaustedFetchWritesABubble : Prop :=
  ∀ s t : State, s.status = .running → step s = .next t → t.status.fatal = false →
    s.stallSignal = false → s.flushSignal = false → s.progLen ≤ s.pc → t.ifId = none ∧ t.pc = s.pc

/-- A stall holds the instruction in ID, marks it, and sends a bubble into EX, while EX, MEM and WB act as they would with
nothing in ID (41_hazard_forwarding.md R145). -/
def Obligations.StallHoldsDecode : Prop :=
  ∀ s t t' : State, s.status = .running → step s = .next t → s.stallSignal = true → step { s with ifId := none } = .next t' →
    (∃ d, s.ifId = some d ∧ t.ifId = some { d with stalled := true }) ∧ t.idEx = none ∧ t.pc = s.pc ∧
      t.exMem = t'.exMem ∧ t.memWb = t'.memWb ∧ t.x = t'.x ∧ t.dmem = t'.dmem

/-- A taken beq in EX flushes IF/ID and ID/EX and redirects the pc, over any stall and any fetch of that cycle, which is not
counted; the beq itself and the older stages go on (44_branch.md R193). -/
def Obligations.TakenBranchFlushes : Prop :=
  ∀ (s : State) (e : IdEx) (a : Word) (fa fb : Bool), s.status = .running → s.idEx = some e → e.instr.op = .beq →
    e.ctrl = ctrl .beq → fwd e.instr.rs e.rsVal s.exMem s.memWb = .value a fa →
    fwd e.instr.rt e.rtVal s.exMem s.memWb = .value a fb → 0 ≤ (e.pidx : Int) + 1 + e.instr.imm.toInt →
    (∀ m, s.exMem = some m → memFaults s.dmemBytes m = false) →
    ∃ t, step s = .next t ∧ t.ifId = none ∧ t.idEx = none ∧ (t.pc : Int) = (e.pidx : Int) + 1 + e.instr.imm.toInt ∧
      t.stallCount = s.stallCount ∧ t.x = s.retiredRegs ∧
      t.exMem = some { instr := e.instr, pidx := e.pidx, ctrl := e.ctrl, dest := e.dest, aluResult := 0#32, storeVal := a,
                       fwdRs := fa, fwdRt := fb } ∧
      t.memWb = s.exMem.map (fun m => accessedBundle m.instr m s.dmem) ∧
      t.dmem = (match s.exMem with | none => s.dmem | some m => accessedMemory m s.dmem)

/-- What a tick may change: the launch values never; the registers only by the write-back of MEM/WB; data memory only by the
store of a `sw` in MEM; and, when the tick does not abort, each bundle moves at most one stage (10_state.md R41;
40_pipeline.md R132). -/
def Obligations.StepFrame : Prop :=
  ∀ s t : State, s.status = .running → step s = .next t →
    t.program = s.program ∧ t.dmemBytes = s.dmemBytes ∧ t.maxCycles = s.maxCycles ∧ t.tick = Tick.rest ∧
    t.x = s.retiredRegs ∧
    (t.dmem = s.dmem ∨ ∃ m, s.exMem = some m ∧ m.ctrl.memWrite = true ∧ validAddress s.dmemBytes m.aluResult = true ∧
      t.dmem = memWrite s.dmem m.aluResult m.storeVal) ∧
    (t.status.fatal = false →
      t.memWb.map (fun w => (w.instr, w.pidx)) = s.exMem.map (fun m => (m.instr, m.pidx)) ∧
      t.exMem.map (fun m => (m.instr, m.pidx)) = s.idEx.map (fun e => (e.instr, e.pidx)) ∧
      (t.idEx = none ∨ t.idEx.map (fun e => (e.instr, e.pidx)) = s.ifId.map (fun d => (d.instr, d.pidx))))

/-- The state a fatal error leaves: the write-back of that cycle is kept, the store of that cycle only when the fault is in
EX, latches, pc and stall count as at the start of the cycle (60_exceptions.md R217). -/
def Obligations.FatalErrorEndState : Prop :=
  ∀ s t : State, s.status = .running → step s = .next t → t.status.fatal = true →
    (∃ p c D, (t.status = .addressError p c ∧ D = s.dmem ∨
        (t.status = .branchTargetError p c ∨ t.status = .hazardDefect c) ∧
          D = (match s.exMem with | none => s.dmem | some m => accessedMemory m s.dmem)) ∧
      t = { s with x := s.retiredRegs, dmem := D, cycleCount := s.cycleCount + 1, status := t.status, tick := Tick.rest })

/-- The outcome of a tick: AddressError in MEM before any error of EX, any of them before Terminated, and Terminated before
Overrun; an AddressError is a load's or store's and a BranchTargetError a branch's; a fatal error ends the tick before ID and
IF act, and there is no tick but from `Running` (60_exceptions.md R216; 40_pipeline.md R127 to R129). -/
def Obligations.OutcomePrecedence : Prop :=
  (∀ s : State, s.status ≠ .running → step s = .next s) ∧
  ∀ s t : State, s.status = .running → step s = .next t →
    (∀ p c, t.status = .addressError p c →
      t.dmem = s.dmem ∧ ∃ m, s.exMem = some m ∧ m.pidx = p ∧ (m.ctrl.memRead = true ∨ m.ctrl.memWrite = true)) ∧
    (∀ p c, t.status = .branchTargetError p c → ∃ e, s.idEx = some e ∧ e.pidx = p ∧ e.ctrl.branch = true) ∧
    (t.status.fatal = true → t.ifId = s.ifId ∧ t.idEx = s.idEx ∧ t.exMem = s.exMem ∧ t.memWb = s.memWb ∧ t.pc = s.pc) ∧
    (∀ m, s.exMem = some m → memFaults s.dmemBytes m = true → t.status = .addressError m.pidx (s.cycleCount + 1)) ∧
    ((∀ m, s.exMem = some m → memFaults s.dmemBytes m = false) → ∀ st, refExecute s = .abort st → t.status = st) ∧
    ((∀ m, s.exMem = some m → memFaults s.dmemBytes m = false) → (∀ st, refExecute s ≠ .abort st) →
      if t.progLen ≤ t.pc ∧ t.ifId = none ∧ t.idEx = none ∧ t.exMem = none ∧ t.memWb = none then t.status = .terminated
      else if s.maxCycles ≤ s.cycleCount + 1 then t.status = .overrun (s.cycleCount + 1)
      else t.status = .running)

/-- The snapshot of a cycle agrees with the tick it reports: its stall bit is set exactly when the tick counts a stall, and is
the `stalled` bit of its ID slot; its flush bit exactly when a taken branch in EX redirects the pc in a tick that does not
abort (40_pipeline.md R133). -/
def Obligations.SnapshotReportsTheTick : Prop :=
  ∀ (s t : State) (n : Snapshot), s.snapshot = some n → step s = .next t →
    n.cycle = t.cycleCount ∧ (n.stall = true → n.flush = false) ∧
    (n.stall = true ↔ t.stallCount = s.stallCount + 1) ∧
    (n.flush = true ↔ t.status.fatal = false ∧ ∃ e a fa fb, s.idEx = some e ∧ e.ctrl.branch = true ∧
      fwd e.instr.rs e.rsVal s.exMem s.memWb = .value a fa ∧
      (if e.instr.op = .lw then .value e.rtVal false else fwd e.instr.rt e.rtVal s.exMem s.memWb) = .value a fb ∧
      (t.pc : Int) = (e.pidx : Int) + 1 + e.instr.imm.toInt) ∧
    (n.stall = true → ∃ d, n.inDecode = some d ∧ d.stalled = true) ∧
    (n.flush = true → t.ifId = none ∧ t.idEx = none) ∧
    (t.status.fatal = true → n.stall = false ∧ n.flush = false) ∧
    n.inFetch = (s.program[s.pc]?).map (fun i => { op := i.op, pidx := s.pc }) ∧
    n.inDecode = s.ifId.map (fun d => { op := d.instr.op, pidx := d.pidx, ctrl := ctrl d.instr.op, stalled := n.stall }) ∧
    n.inExecute = s.idEx.map (fun e => { op := e.instr.op, pidx := e.pidx, ctrl := e.ctrl }) ∧
    n.inMemory = s.exMem.map (fun m => { op := m.instr.op, pidx := m.pidx, ctrl := m.ctrl }) ∧
    n.inWriteBack = s.memWb.map (fun w => { op := w.instr.op, pidx := w.pidx, ctrl := w.ctrl })

/-! ### Registers, forwarding and stalls -/

/-- Register 0 is hard-wired to 0: it reads 0, a write to it is no write, it is no forwarding source, and a launch cannot set
it (10_state.md R21). -/
def Obligations.RegisterZeroIsHardWired : Prop :=
  (∀ x : Vector Word 32, readReg x 0#5 = 0#32) ∧ (∀ (x : Vector Word 32) (v : Word), writeReg x 0#5 v = x) ∧
  (∀ (v : Word) (exMem : Option ExMem) (memWb : Option MemWb), fwd 0#5 v exMem memWb = .value 0#32 false) ∧
  (∀ (w : MemWb) (x : Vector Word 32), w.dest = 0#5 → writtenBack w x = x) ∧
  (∀ (program : List Instr) (l : Launch), readReg (State.launch program l).x 0#5 = 0#32 ∧ (State.launch program l).x[0] = 0#32)

/-- A bundle whose destination is register 0 supplies nothing, and register 0 takes nothing (41_hazard_forwarding.md R151). -/
def Obligations.RegisterZeroIsNeverForwarded : Prop :=
  (∀ (v : Word) (exMem : Option ExMem) (memWb : Option MemWb), fwd 0#5 v exMem memWb = .value 0#32 false) ∧
  (∀ (r : RegIdx) (v : Word) (m : ExMem) (memWb : Option MemWb), m.dest = 0#5 → fwd r v (some m) memWb = fwd r v none memWb) ∧
  (∀ (r : RegIdx) (v : Word) (exMem : Option ExMem) (w : MemWb), w.dest = 0#5 → fwd r v exMem (some w) = fwd r v exMem none)

/-- When both latches write the register, the EX/MEM latch alone decides: EX takes its value, or the missed hazard where it
holds a load (41_hazard_forwarding.md R152, R150). -/
def Obligations.ForwardingPrefersExMem : Prop :=
  ∀ (r : RegIdx) (v : Word) (m : ExMem) (w : MemWb), r ≠ 0#5 → m.ctrl.regWrite = true → m.dest = r →
    w.ctrl.regWrite = true → w.dest = r →
    fwd r v (some m) (some w) = if m.ctrl.memRead then .defect else .value m.aluResult true

/-- Only `add`, `sub` and `lw` write a register, and a bundle that writes none, a `sw` or a `beq`, supplies nothing from
EX/MEM or MEM/WB, whatever its destination field (41_hazard_forwarding.md R154). -/
def Obligations.OnlyRegisterWritersForward : Prop :=
  (∀ op : Op, (ctrl op).regWrite = true ↔ op = .add ∨ op = .sub ∨ op = .lw) ∧
  (∀ (r : RegIdx) (v : Word) (m : ExMem) (memWb : Option MemWb), m.ctrl.regWrite = false →
    fwd r v (some m) memWb = fwd r v none memWb) ∧
  (∀ (r : RegIdx) (v : Word) (exMem : Option ExMem) (w : MemWb), w.ctrl.regWrite = false →
    fwd r v exMem (some w) = fwd r v exMem none)

/-- The stall lengths of a consumer directly behind its producer, with no other hazard and no abort: 0 for add or sub before
an instruction other than beq, 1 before a beq, 1 for a load before an instruction other than beq, 2 before a beq
(41_hazard_forwarding.md R147, distance 1). -/
def Obligations.StallLengthsAtDistanceOne : Prop :=
  ∀ (s : State) (d : IfId) (e : IdEx), s.Inv → s.status = .running → s.ifId = some d → s.idEx = some e →
    e.ctrl.regWrite = true → e.dest ∈ sources d.instr → (∀ m, s.exMem = some m → m.ctrl.memRead = false) →
    (e.instr.op ≠ .lw → d.instr.op ≠ .beq → s.stallSignal = false) ∧
    (e.instr.op ≠ .lw → d.instr.op = .beq → (runState 1 s).status = .running →
      s.stallSignal = true ∧ (runState 1 s).stallSignal = false) ∧
    (e.instr.op = .lw → d.instr.op ≠ .beq → (runState 1 s).status = .running →
      s.stallSignal = true ∧ (runState 1 s).stallSignal = false) ∧
    (e.instr.op = .lw → d.instr.op = .beq → (runState 1 s).status = .running → (runState 2 s).status = .running →
      s.stallSignal = true ∧ (runState 1 s).stallSignal = true ∧ (runState 2 s).stallSignal = false)

/-- Effective addresses wrap modulo 2^32 before the validity check, with the two examples of 43_load_store.md R182. -/
def Obligations.EffectiveAddressWraps : Prop :=
  (∀ base offset : Word, (effectiveAddress base offset).toNat = (base.toNat + offset.toNat) % 2 ^ 32) ∧
  (∀ n : Nat, 8 ≤ n → validAddress n (effectiveAddress 0xFFFFFFFC (sext32 8)) = true ∧
    addressKey (effectiveAddress 0xFFFFFFFC (sext32 8)) = 4) ∧
  (∀ n : Nat, effectiveAddress 0x7FFFFFFC (sext32 8) = 0x80000004 ∧ validAddress n (effectiveAddress 0x7FFFFFFC (sext32 8)) = false)

/-! ### Invariants and whole runs -/

/-- Every step keeps the invariant of the core. -/
def Obligations.StepKeepsInvariant : Prop := ∀ s t : State, s.Inv → step s = .next t → t.Inv

/-- HazardDefect cannot occur: no step from a state that meets the invariant raises it (41_hazard_forwarding.md R159). -/
def Obligations.HazardDefectIsUnreachable : Prop :=
  (∀ s t : State, s.Inv → s.status = .running → step s = .next t → ∀ c, t.status ≠ .hazardDefect c) ∧
  (∀ (program : List Instr) (l : Launch) (k c : Nat), l.wellFormed = true →
    (runState k (State.launch program l)).status ≠ .hazardDefect c)

/-- One tick against the sequential machine: a tick with an instruction in EX is one instruction of the sequential machine, any
other tick none, and a fatal error is the sequential machine's error at the same instruction
(70_reset_and_hazards.md R236; 41_hazard_forwarding.md R160). -/
def Obligations.StepSimulatesSequentialMachine : Prop :=
  ∀ s t : State, s.Inv → s.status = .running → step s = .next t →
    match t.status with
    | .addressError p _ => s.sequential.status = .addressError p
    | .branchTargetError p _ => (seqStep s.program s.dmemBytes s.sequential).status = .branchTargetError p
    | .hazardDefect _ => False
    | .running | .terminated | .overrun _ =>
      t.sequential = if s.idEx.isSome then seqStep s.program s.dmemBytes s.sequential else s.sequential

/-- Sequential equivalence (70_reset_and_hazards.md R236): a run that ends Terminated ends with the registers and data memory
of the sequential machine; an error is raised for the same instruction exactly when the sequential machine raises it, unless
the watchdog ends the run first. -/
def Obligations.SequentialEquivalence : Prop :=
  ∀ (program : List Instr) (l : Launch), l.wellFormed = true →
    (∀ k, (runState k (State.launch program l)).status = .terminated →
      ∃ n, (seqRun program l.dmemBytes n (seqLaunch l)).status = .running ∧
        program.length ≤ (seqRun program l.dmemBytes n (seqLaunch l)).pc ∧
        (seqRun program l.dmemBytes n (seqLaunch l)).x = (runState k (State.launch program l)).x ∧
        (seqRun program l.dmemBytes n (seqLaunch l)).dmem = (runState k (State.launch program l)).dmem) ∧
    (∀ k p c, (runState k (State.launch program l)).status = .addressError p c →
      ∃ n, (seqRun program l.dmemBytes n (seqLaunch l)).status = .addressError p) ∧
    (∀ k p c, (runState k (State.launch program l)).status = .branchTargetError p c →
      ∃ n, (seqRun program l.dmemBytes n (seqLaunch l)).status = .branchTargetError p) ∧
    (∀ n p, (seqRun program l.dmemBytes n (seqLaunch l)).status = .addressError p →
      ∃ k c, (runState k (State.launch program l)).status = .addressError p c ∨
        (runState k (State.launch program l)).status = .overrun c) ∧
    (∀ n p, (seqRun program l.dmemBytes n (seqLaunch l)).status = .branchTargetError p →
      ∃ k c, (runState k (State.launch program l)).status = .branchTargetError p c ∨
        (runState k (State.launch program l)).status = .overrun c)

/-- The cycle count of a terminated run: cycle_count = W + 4 + S + 2 F; for a program without branches W = N and F = 0
(70_reset_and_hazards.md R240). -/
def Obligations.CycleCountFormula : Prop :=
  ∀ (program : List Instr) (l : Launch) (k : Nat), l.wellFormed = true → program ≠ [] →
    (runState k (State.launch program l)).status = .terminated →
    (runState k (State.launch program l)).cycleCount =
      writeBacks k (State.launch program l) + 4 + (runState k (State.launch program l)).stallCount +
        2 * flushesInside k (State.launch program l) ∧
    ((∀ i ∈ program, i.op ≠ .beq) →
      writeBacks k (State.launch program l) = program.length ∧ flushesInside k (State.launch program l) = 0)

/-- The watchdog bounds every run: within MAX_CYCLES ticks the status is final, and a program that a larger cap would let
terminate later ends Overrun at cycle MAX_CYCLES, with the state that tick left (70_reset_and_hazards.md R243). -/
def Obligations.WatchdogBoundsEveryRun : Prop :=
  ∀ (program : List Instr) (l : Launch), l.wellFormed = true →
    (runState l.maxCycles (State.launch program l)).done = true ∧
    (∀ k, (runState k (State.launch program l)).cycleCount ≤ l.maxCycles) ∧
    (∀ (cap k : Nat), (runState k (State.launch program { l with maxCycles := cap })).status = .terminated →
      l.maxCycles < (runState k (State.launch program { l with maxCycles := cap })).cycleCount →
      runState l.maxCycles (State.launch program l) =
        { runState l.maxCycles (State.launch program { l with maxCycles := cap }) with
          maxCycles := l.maxCycles, status := .overrun l.maxCycles })
end

