-- ==== Sys2Proof/Laws/Memory.lean ====
section
/-! SUPPORT. Data memory: what a read after a write gives, and that every operation keeps the canonical form and the
address range. -/

namespace Sys2Proof.Machine

/-- An address at or below the floor of a canonical memory is not listed, so it reads as unlisted. -/
theorem Memory.read_of_le_floor {m : Memory} {b a : Nat} (h : Memory.wfFrom (some b) m = true) (hab : a ≤ b) :
    m.read a = unlistedWord := by
  induction m generalizing b with
  | nil => rfl
  | cons c cs ih =>
    simp only [Memory.wfFrom, Bool.and_eq_true, decide_eq_true_eq] at h
    have hne : c.1 ≠ a := by omega
    simp only [Memory.read, hne, if_false]
    exact ih h.2 (by omega)

/-- A canonical memory stays canonical when its floor is lowered. -/
theorem Memory.wfFrom_mono {m : Memory} {b b' : Nat} (h : Memory.wfFrom (some b) m = true) (hb : b' ≤ b) :
    Memory.wfFrom (some b') m = true := by
  cases m with
  | nil => rfl
  | cons c cs =>
    simp only [Memory.wfFrom, Bool.and_eq_true, decide_eq_true_eq] at h ⊢
    exact ⟨⟨by omega, h.1.2⟩, h.2⟩

/-- A canonical memory has the canonical form without a floor. -/
theorem Memory.wf_of_wfFrom {m : Memory} {b : Nat} (h : Memory.wfFrom (some b) m = true) : m.wf = true := by
  cases m with
  | nil => rfl
  | cons c cs =>
    simp only [Memory.wf, Memory.wfFrom, Bool.and_eq_true, decide_eq_true_eq] at h ⊢
    exact ⟨⟨trivial, h.1.2⟩, h.2⟩

/-- Putting a cell in front of a canonical memory above it. -/
theorem Memory.wfFrom_memCell_append {m : Memory} {b a : Nat} {v : Word} (hb : b < a) (h : Memory.wfFrom (some a) m = true) :
    Memory.wfFrom (some b) (memCell a v ++ m) = true := by
  unfold memCell
  split
  · exact Memory.wfFrom_mono h (by omega)
  · next hv => simpa [Memory.wfFrom, hb, hv] using h

/-- A write above the floor keeps the canonical form above the floor. -/
theorem Memory.wfFrom_write {m : Memory} {b a : Nat} {v : Word} (hb : b < a) (h : Memory.wfFrom (some b) m = true) :
    Memory.wfFrom (some b) (m.write a v) = true := by
  induction m generalizing b with
  | nil => simpa [Memory.write] using Memory.wfFrom_memCell_append (m := []) (v := v) hb rfl
  | cons c cs ih =>
    have hc := h
    simp only [Memory.wfFrom, Bool.and_eq_true, decide_eq_true_eq] at h
    obtain ⟨⟨hbc, hv⟩, hcs⟩ := h
    simp only [Memory.write]
    split
    · next hlt => simp [Memory.wfFrom, hbc, hv, ih hlt hcs]
    · split
      · next heq => exact Memory.wfFrom_memCell_append hb (heq ▸ hcs)
      · next hnlt hne =>
        refine Memory.wfFrom_memCell_append hb ?_
        simp only [Memory.wfFrom, Bool.and_eq_true, decide_eq_true_eq]
        exact ⟨⟨by omega, hv⟩, hcs⟩

/-- A write keeps the canonical form. -/
theorem Memory.wf_write {m : Memory} (a : Nat) (v : Word) (h : m.wf = true) : (m.write a v).wf = true := by
  cases m with
  | nil => by_cases hv : v = unlistedWord <;> simp [Memory.wf, Memory.write, memCell, Memory.wfFrom, hv]
  | cons c cs =>
    simp only [Memory.wf, Memory.wfFrom, Bool.and_eq_true, decide_eq_true_eq, true_and] at h
    obtain ⟨hv, hcs⟩ := h
    simp only [Memory.write]
    split
    · next hlt => simp [Memory.wf, Memory.wfFrom, hv, Memory.wfFrom_write hlt hcs]
    · split
      · next heq =>
        subst heq
        unfold memCell
        split
        · simpa using Memory.wf_of_wfFrom hcs
        · next hw => simp [Memory.wf, Memory.wfFrom, hw, hcs]
      · next hnlt hne =>
        have hac : a < c.1 := by omega
        unfold memCell
        split
        · simp [Memory.wf, Memory.wfFrom, hv, hcs]
        · next hw => simp [Memory.wf, Memory.wfFrom, hw, hac, hv, hcs]

/-- Reading past a cell put in front. -/
theorem Memory.read_memCell_append (m : Memory) (a b : Nat) (v : Word) (h : a = b → m.read b = unlistedWord) :
    (memCell a v ++ m : Memory).read b = if a = b then v else m.read b := by
  unfold memCell
  by_cases hv : v = unlistedWord <;> by_cases hab : a = b <;> simp_all [Memory.read]

/-- A read above the floor after a write above the floor. -/
theorem Memory.read_write_from {m : Memory} {f : Nat} (a b : Nat) (v : Word) (h : Memory.wfFrom (some f) m = true) :
    (m.write a v).read b = if a = b then v else m.read b := by
  induction m generalizing f with
  | nil => simpa [Memory.write] using Memory.read_memCell_append [] a b v (fun _ => rfl)
  | cons c cs ih =>
    simp only [Memory.wfFrom, Bool.and_eq_true, decide_eq_true_eq] at h
    obtain ⟨⟨hf, hv⟩, hcs⟩ := h
    simp only [Memory.write]
    split
    · next hlt =>
      by_cases hcb : c.1 = b
      · have : a ≠ b := by omega
        simp [Memory.read, hcb, this]
      · simp [Memory.read, hcb, ih hcs]
    · split
      · next heq =>
        rw [Memory.read_memCell_append cs a b v (fun e => Memory.read_of_le_floor hcs (by omega))]
        by_cases hab : a = b
        · simp [hab]
        · have : c.1 ≠ b := by omega
          simp [hab, Memory.read, this]
      · next hnlt hne =>
        rw [Memory.read_memCell_append (c :: cs) a b v]
        intro e
        have : c.1 ≠ b := by omega
        simp [Memory.read, this, Memory.read_of_le_floor hcs (show b ≤ c.1 by omega)]

/-- Read after write: the word written at its address, every other word unchanged (20_memory.md R63). -/
theorem Memory.read_write {m : Memory} (a b : Nat) (v : Word) (h : m.wf = true) :
    (m.write a v).read b = if a = b then v else m.read b := by
  cases m with
  | nil => exact Memory.read_write_from (f := 0) a b v rfl
  | cons c cs =>
    simp only [Memory.wf, Memory.wfFrom, Bool.and_eq_true, decide_eq_true_eq, true_and] at h
    obtain ⟨hv, hcs⟩ := h
    simp only [Memory.write]
    split
    · next hlt =>
      by_cases hcb : c.1 = b
      · have : a ≠ b := by omega
        simp [Memory.read, hcb, this]
      · simp [Memory.read, hcb, Memory.read_write_from a b v hcs]
    · split
      · next heq =>
        rw [Memory.read_memCell_append cs a b v (fun e => Memory.read_of_le_floor hcs (by omega))]
        by_cases hab : a = b
        · simp [hab]
        · have : c.1 ≠ b := by omega
          simp [hab, Memory.read, this]
      · next hnlt hne =>
        rw [Memory.read_memCell_append (c :: cs) a b v]
        intro e
        have : c.1 ≠ b := by omega
        simp [Memory.read, this, Memory.read_of_le_floor hcs (show b ≤ c.1 by omega)]

/-- A write at an address memory has keeps every cell in range. -/
theorem Memory.inRange_write {m : Memory} {n a : Nat} (v : Word) (h : m.inRange n = true) (ha : launchCellOk n (a, v) = true) :
    (m.write a v).inRange n = true := by
  have hc : Memory.inRange n (memCell a v) = true := by
    unfold memCell; split <;> simp [Memory.inRange, ha]
  induction m with
  | nil => simpa [Memory.write] using hc
  | cons c cs ih =>
    simp only [Memory.inRange, List.all_cons, Bool.and_eq_true] at h
    simp only [Memory.write]
    split
    · simpa [Memory.inRange, h.1] using ih h.2
    · split <;> simp_all [Memory.inRange, List.all_append]

/-- The key of a valid address is an address memory has (20_memory.md R61). -/
theorem launchCellOk_of_validAddress {n : Nat} {a v : Word} (h : validAddress n a = true) :
    launchCellOk n (addressKey a, v) = true := by
  unfold validAddress wordBytes at h
  unfold launchCellOk addressKey wordBytes
  simp only [Bool.and_eq_true, decide_eq_true_eq] at h ⊢
  omega

/-- Writing cells that are in range keeps canonical form and range. -/
theorem Memory.ok_foldl_write {n : Nat} (cells : List MemCell) {m : Memory} (hc : ∀ c ∈ cells, launchCellOk n c = true)
    (h : m.wf = true ∧ m.inRange n = true) :
    (cells.foldl (fun m c => m.write c.1 c.2) m).wf = true ∧ (cells.foldl (fun m c => m.write c.1 c.2) m).inRange n = true := by
  induction cells generalizing m with
  | nil => exact h
  | cons c cs ih =>
    refine ih (fun d hd => hc d (List.mem_cons_of_mem _ hd)) ⟨Memory.wf_write _ _ h.1, ?_⟩
    exact Memory.inRange_write c.2 h.2 (by simpa using hc c (List.mem_cons_self ..))

/-- Data memory after a launch is canonical and in range. -/
theorem launchMemory_ok (n : Nat) (mem0 : List MemCell) :
    (launchMemory n mem0).wf = true ∧ (launchMemory n mem0).inRange n = true :=
  Memory.ok_foldl_write _ (fun _ hc => (List.mem_filter.mp hc).2) ⟨rfl, rfl⟩

/-- Data memory at reset is canonical. -/
theorem State.reset_memory_wf : State.reset.dmem.wf = true := rfl

/-- The access of a bundle that does not fault keeps canonical form and range. -/
theorem accessedMemory_ok {n : Nat} {m : ExMem} {dmem : Memory} (hf : memFaults n m = false)
    (h : dmem.wf = true ∧ dmem.inRange n = true) :
    (accessedMemory m dmem).wf = true ∧ (accessedMemory m dmem).inRange n = true := by
  unfold accessedMemory
  split
  · next hw =>
    have hv : validAddress n m.aluResult = true := by simpa [memFaults, hw] using hf
    exact ⟨Memory.wf_write _ _ h.1, Memory.inRange_write _ h.2 (launchCellOk_of_validAddress hv)⟩
  · exact h

end Sys2Proof.Machine
end

