-- ==== Sys2Proof/Laws/PerInstr.lean ====
section
/-! SUPPORT. Per-instruction statements about the syntax, one lemma per constructor of `Instr`. -/

namespace Sys2Proof.Laws

/-- A register index read as an integer is in range. -/
theorem regInRange_toNat (r : RegIdx) : regInRange (r.toNat : Int) = true := by
  have := r.isLt
  simp only [regInRange, Bool.and_eq_true, decide_eq_true_eq]
  omega

/-- An immediate read as an integer is in range. -/
theorem immInRange_toInt (v : Imm) : immInRange v.toInt = true := by
  have h1 := BitVec.le_two_mul_toInt (x := v)
  have h2 := BitVec.two_mul_toInt_lt (x := v)
  simp only [immInRange, Bool.and_eq_true, decide_eq_true_eq]
  omega

/-- A register index survives the way over the integers. -/
theorem ofInt_toNat (r : RegIdx) : BitVec.ofInt 5 (r.toNat : Int) = r := by simp

/-- An immediate survives the way over the integers. -/
theorem ofInt_toInt (v : Imm) : BitVec.ofInt 16 v.toInt = v := by simp

/-- Every record of the core is one the loader's checks pass, and they give it back unchanged (30_encoding.md R82, R83). -/
def RecordRoundTrip.Statement (i : Instr) : Prop := i.toRaw.check = .ok i

namespace RecordRoundTrip

/-- The record of a well-formed raw record. -/
theorem of_ranges {i : Instr} (h : i.toRaw.toInstr = i) : Statement i := by
  simp [Statement, RawRecord.check, RawRecord.regsInRange, Instr.toRaw, regInRange_toNat, immInRange_toInt]
  exact h

theorem add (rd rs rt : RegIdx) : Statement (.add rd rs rt) :=
  of_ranges (by simp [Instr.toRaw, RawRecord.toInstr, Instr.op, Instr.rd, Instr.rs, Instr.rt])

theorem sub (rd rs rt : RegIdx) : Statement (.sub rd rs rt) :=
  of_ranges (by simp [Instr.toRaw, RawRecord.toInstr, Instr.op, Instr.rd, Instr.rs, Instr.rt])

theorem lw (rt : RegIdx) (imm : Imm) (rs : RegIdx) : Statement (.lw rt imm rs) :=
  of_ranges (by simp [Instr.toRaw, RawRecord.toInstr, Instr.op, Instr.imm, Instr.rs, Instr.rt])

theorem sw (rt : RegIdx) (imm : Imm) (rs : RegIdx) : Statement (.sw rt imm rs) :=
  of_ranges (by simp [Instr.toRaw, RawRecord.toInstr, Instr.op, Instr.imm, Instr.rs, Instr.rt])

theorem beq (rs rt : RegIdx) (imm : Imm) : Statement (.beq rs rt imm) :=
  of_ranges (by simp [Instr.toRaw, RawRecord.toInstr, Instr.op, Instr.imm, Instr.rs, Instr.rt])

end RecordRoundTrip

end Sys2Proof.Laws
end

