-- ==== Sys2Proof/Laws/Regs.lean ====
section
/-! SUPPORT. Register reads after register writes, with register 0 hard-wired to 0 (10_state.md R21). -/

namespace Sys2Proof.Machine

@[simp] theorem readReg_zero (x : Vector Word 32) : readReg x 0#5 = 0#32 := rfl

@[simp] theorem writeReg_zero (x : Vector Word 32) (v : Word) : writeReg x 0#5 v = x := rfl

theorem readReg_of_ne_zero (x : Vector Word 32) {r : RegIdx} (h : r ≠ 0#5) : readReg x r = x[r.toNat] := by
  simp [readReg, h]

theorem writeReg_of_ne_zero (x : Vector Word 32) {r : RegIdx} (v : Word) (h : r ≠ 0#5) : writeReg x r v = x.set r.toNat v := by
  simp [writeReg, h]

/-- A register reads the value last written to it, unless it is register 0; every other register is unchanged. -/
theorem readReg_writeReg (x : Vector Word 32) (r r' : RegIdx) (v : Word) :
    readReg (writeReg x r v) r' = if r' = 0#5 then 0#32 else if r = r' then v else readReg x r' := by
  by_cases h' : r' = 0#5
  · simp [h']
  · by_cases h : r = 0#5
    · subst h
      simp [h', Ne.symm h']
    · by_cases hrr : r = r'
      · subst hrr; simp [h, readReg, writeReg]
      · have : r.toNat ≠ r'.toNat := fun e => hrr (BitVec.eq_of_toNat_eq e)
        simp [h, h', hrr, readReg, writeReg, this]

/-- Register 0 of the file itself keeps its value under any write. -/
theorem writeReg_getElem_zero (x : Vector Word 32) (r : RegIdx) (v : Word) : (writeReg x r v)[0] = x[0] := by
  by_cases h : r = 0#5
  · simp [h]
  · have : r.toNat ≠ 0 := fun e => h (BitVec.eq_of_toNat_eq e)
    simp [writeReg, h, this]

/-- A write-back is one register write, or none. -/
theorem writtenBack_eq (w : MemWb) (x : Vector Word 32) :
    writtenBack w x = if w.ctrl.regWrite then writeReg x w.dest (writeBackValue w) else x := by
  by_cases hw : w.ctrl.regWrite <;> by_cases hd : w.dest = 0#5 <;> simp [writtenBack, hw, hd]

/-- What a register reads after a write-back. -/
theorem readReg_writtenBack (w : MemWb) (x : Vector Word 32) (r : RegIdx) :
    readReg (writtenBack w x) r =
      if r ≠ 0#5 ∧ w.ctrl.regWrite = true ∧ w.dest = r then writeBackValue w else readReg x r := by
  rw [writtenBack_eq]
  by_cases hw : w.ctrl.regWrite <;> by_cases hr : r = 0#5 <;> simp [hw, hr, readReg_writeReg]

/-- A write-back leaves register 0 of the file as it is. -/
theorem writtenBack_getElem_zero (w : MemWb) (x : Vector Word 32) : (writtenBack w x)[0] = x[0] := by
  rw [writtenBack_eq]; split
  · exact writeReg_getElem_zero ..
  · rfl

/-- Register 0 is 0 after a launch, whatever the launch gives. -/
theorem launchRegs_getElem_zero (reg0 : Vector Word 32) : (launchRegs reg0)[0] = 0#32 := by simp [launchRegs]

/-- Any other register holds its launch value. -/
theorem readReg_launchRegs (reg0 : Vector Word 32) {r : RegIdx} (h : r ≠ 0#5) : readReg (launchRegs reg0) r = reg0[r.toNat] := by
  have : 0 ≠ r.toNat := fun e => h (BitVec.eq_of_toNat_eq e.symm)
  simp [readReg_of_ne_zero _ h, launchRegs, this]

end Sys2Proof.Machine
end

