-- ==== Sys2Proof/Laws/Stages.lean ====
section
/-! SUPPORT. What each stage operation can do, said once: if it answers a next state, then one of the cases named here. -/

namespace Sys2Proof.Machine

variable {i : Instr} {s t : State}

@[simp] theorem fetchStage_eq :
    fetchStage i s =
      .next { s with tick := { s.tick with ifId := some { instr := i, pidx := s.pc, stalled := false }, fetched := true } } := rfl

/-- ID: nothing in IF/ID, a stall, or the decoded bundle (40_pipeline.md R106). -/
theorem decodeStage_cases (h : decodeStage i s = .next t) :
    (s.ifId = none ∧ t = { s with tick := { s.tick with idEx := none, stall := false } }) ∨
    (∃ d, s.ifId = some d ∧ hazard i s.idEx s.exMem = true ∧ t = { s with tick := { s.tick with idEx := none, stall := true } }) ∨
    (∃ d, s.ifId = some d ∧ hazard i s.idEx s.exMem = false ∧
      t = { s with tick := { s.tick with idEx := some (decodedBundle i d s.x), stall := false } }) := by
  unfold decodeStage at h
  split at h
  · next h0 => exact .inl ⟨h0, by cases h; rfl⟩
  · next d hd =>
    split at h
    · next hz => exact .inr (.inl ⟨d, hd, hz, by cases h; rfl⟩)
    · next hz => exact .inr (.inr ⟨d, hd, by simpa using hz, by cases h; rfl⟩)

/-- The Branch Unit: not taken, a negative target, or a flush (44_branch.md R190 to R193). -/
theorem resolveBranch_cases {e : IdEx} {a b : Word} {k : ExMem} (h : resolveBranch i e a b k s = .next t) :
    (branchTaken e.ctrl a b = false ∧ t = { s with tick := { s.tick with exMem := some k, flush := none } }) ∨
    (branchTaken e.ctrl a b = true ∧ branchTarget e.pidx i.imm < 0 ∧ t = s.abort (.branchTargetError e.pidx s.cycle)) ∨
    (branchTaken e.ctrl a b = true ∧ 0 ≤ branchTarget e.pidx i.imm ∧
      t = { s with tick := { s.tick with exMem := some k, flush := some (branchTarget e.pidx i.imm).toNat } }) := by
  unfold resolveBranch at h
  split at h
  · next hb =>
    split at h
    · next hn => exact .inr (.inl ⟨hb, hn, by cases h; rfl⟩)
    · next hn => exact .inr (.inr ⟨hb, by omega, by cases h; rfl⟩)
  · next hb => exact .inl ⟨by simpa using hb, by cases h; rfl⟩

/-- EX: nothing in ID/EX, a missed hazard, or operands and then the Branch Unit (40_pipeline.md R112 to R115). -/
theorem executeStage_cases {alu : Word → Word → Word} {rt : IdEx → Operand} (h : executeStage i alu rt s = .next t) :
    (s.idEx = none ∧ t = { s with tick := { s.tick with exMem := none, flush := none } }) ∨
    (∃ e, s.idEx = some e ∧ (fwd i.rs e.rsVal s.exMem s.memWb = .defect ∨ rt e = .defect) ∧
      t = s.abort (.hazardDefect s.cycle)) ∨
    (∃ e a fa b fb, s.idEx = some e ∧ fwd i.rs e.rsVal s.exMem s.memWb = .value a fa ∧ rt e = .value b fb ∧
      resolveBranch i e a b (executedBundle i e (alu a (secondOperand e.ctrl i.imm b)) b fa fb) s = .next t) := by
  unfold executeStage at h
  split at h
  · next h0 => exact .inl ⟨h0, by cases h; rfl⟩
  · next e he =>
    split at h
    · next a fa b fb ha hb => exact .inr (.inr ⟨e, a, fa, b, fb, he, ha, hb, h⟩)
    · next hno =>
      refine .inr (.inl ⟨e, he, ?_, by cases h; rfl⟩)
      cases ha : fwd i.rs e.rsVal s.exMem s.memWb with
      | defect => exact .inl rfl
      | value a fa =>
        cases hb : rt e with
        | defect => exact .inr rfl
        | value b fb => exact absurd hb (hno a fa b fb ha)

/-- MEM: nothing in EX/MEM, an address that is not valid, or the access (40_pipeline.md R116 to R121). -/
theorem memoryStage_cases (h : memoryStage i s = .next t) :
    (s.exMem = none ∧ t = { s with tick := { s.tick with memWb := none } }) ∨
    (∃ m, s.exMem = some m ∧ memFaults s.dmemBytes m = true ∧ t = s.abort (.addressError m.pidx s.cycle)) ∨
    (∃ m, s.exMem = some m ∧ memFaults s.dmemBytes m = false ∧
      t = { s with dmem := accessedMemory m s.dmem, tick := { s.tick with memWb := some (accessedBundle i m s.dmem) } }) := by
  unfold memoryStage at h
  split at h
  · next h0 => exact .inl ⟨h0, by cases h; rfl⟩
  · next m hm =>
    split at h
    · next hf => exact .inr (.inl ⟨m, hm, hf, by cases h; rfl⟩)
    · next hf => exact .inr (.inr ⟨m, hm, by simpa using hf, by cases h; rfl⟩)

/-- WB: nothing in MEM/WB, or its write-back (40_pipeline.md R122 to R124). -/
theorem writeBackStage_cases (h : writeBackStage s = .next t) :
    (s.memWb = none ∧ t = s) ∨ (∃ w, s.memWb = some w ∧ t = { s with x := writtenBack w s.x }) := by
  unfold writeBackStage at h
  split at h
  · next h0 => exact .inl ⟨h0, by cases h; rfl⟩
  · next w hw => exact .inr ⟨w, hw, by cases h; rfl⟩

/-! ### `exec` in each slot -/

/-- Every instruction is fetched alike (40_pipeline.md R103: Fetch does not look at it). -/
theorem exec_fetch (h : s.tick.slot = .fetch) : exec i s = fetchStage i s := by
  cases i <;> simp [exec, execAdd, execSub, execLw, execSw, execBeq, h]

theorem exec_decode (h : s.tick.slot = .decode) : exec i s = decodeStage i s := by
  cases i <;> simp [exec, execAdd, execSub, execLw, execSw, execBeq, h]

/-- The rt operand of an instruction in EX: `lw` alone takes it unforwarded (40_pipeline.md R112). -/
theorem exec_execute (h : s.tick.slot = .execute) :
    exec i s = executeStage i (alu i.op) (if i.op = .lw then unforwardedRt else forwardedRt i s) s := by
  cases i <;> simp [exec, execAdd, execSub, execLw, execSw, execBeq, h, Instr.op] <;> rfl

theorem exec_memory (h : s.tick.slot = .memory) : exec i s = memoryStage i s := by
  cases i <;> simp [exec, execAdd, execSub, execLw, execSw, execBeq, h]

theorem exec_writeBack (h : s.tick.slot = .writeBack) : exec i s = writeBackStage s := by
  cases i <;> simp [exec, execAdd, execSub, execLw, execSw, execBeq, h]

/-! ### Every stage answers a next state -/

theorem decodeStage_next : ∃ t, decodeStage i s = .next t := by
  unfold decodeStage; split
  · exact ⟨_, rfl⟩
  · split <;> exact ⟨_, rfl⟩

theorem resolveBranch_next {e : IdEx} {a b : Word} {k : ExMem} : ∃ t, resolveBranch i e a b k s = .next t := by
  unfold resolveBranch; split
  · split <;> exact ⟨_, rfl⟩
  · exact ⟨_, rfl⟩

theorem executeStage_next {alu : Word → Word → Word} {rt : IdEx → Operand} : ∃ t, executeStage i alu rt s = .next t := by
  unfold executeStage; split
  · exact ⟨_, rfl⟩
  · split
    · exact resolveBranch_next
    · exact ⟨_, rfl⟩

theorem memoryStage_next : ∃ t, memoryStage i s = .next t := by
  unfold memoryStage; split
  · exact ⟨_, rfl⟩
  · split <;> exact ⟨_, rfl⟩

theorem writeBackStage_next : ∃ t, writeBackStage s = .next t := by
  unfold writeBackStage; split <;> exact ⟨_, rfl⟩

/-- Going on answers a next state when both parts do. -/
theorem andThen_next {o : Result} {f : State → Result} (ho : ∃ t, o = .next t) (hf : ∀ u, ∃ t, f u = .next t) :
    ∃ t, andThen o f = .next t := by
  obtain ⟨u, rfl⟩ := ho
  simp only [andThen]
  split
  · exact hf u
  · exact ⟨u, rfl⟩

/-- What going on can do: the run has ended in the first part, or the second part acts. -/
theorem andThen_cases {o : Result} {f : State → Result} (h : andThen o f = .next t) :
    (o = .next t ∧ t.status ≠ .running) ∨ (∃ u, o = .next u ∧ u.status = .running ∧ f u = .next t) := by
  unfold andThen at h
  split at h
  · next u =>
    split at h
    · next hr => exact .inr ⟨u, rfl, hr, h⟩
    · next hr => cases h; exact .inl ⟨rfl, hr⟩
  · cases h
  · cases h

@[simp] theorem andThen_running {f : State → Result} (h : s.status = .running) : andThen (.next s) f = f s := by
  simp [andThen, h]

@[simp] theorem andThen_ended {f : State → Result} (h : s.status ≠ .running) : andThen (.next s) f = .next s := by
  simp [andThen, h]

@[simp] theorem runSlot_none {p : Slot} : runSlot p none s = .next (s.atSlot p) := rfl

@[simp] theorem runSlot_some {p : Slot} : runSlot p (some i) s = exec i (s.atSlot p) := rfl

/-- No instruction stops the model in any stage: every stop of the spec is a status of the next state. -/
theorem exec_next (i : Instr) (s : State) : ∃ t, exec i s = .next t := by
  cases h : s.tick.slot with
  | writeBack => rw [exec_writeBack h]; exact writeBackStage_next
  | memory => rw [exec_memory h]; exact memoryStage_next
  | execute => rw [exec_execute h]; exact executeStage_next
  | decode => rw [exec_decode h]; exact decodeStage_next
  | fetch => rw [exec_fetch h]; exact ⟨_, rfl⟩

theorem runSlot_next (p : Slot) (j : Option Instr) (s : State) : ∃ t, runSlot p j s = .next t := by
  cases j with
  | none => exact ⟨_, rfl⟩
  | some i => exact exec_next i _

/-! ### The stages of a tick -/

theorem State.atSlot_slot (s : State) (p : Slot) : (s.atSlot p).tick.slot = p := rfl

/-- WB of a tick: the registers take the write-back of MEM/WB (40_pipeline.md R122 to R124). -/
theorem runSlot_writeBack (s u : State) (h : u.memWb = s.memWb) :
    runSlot .writeBack s.inWriteBack u =
      .next { u.atSlot .writeBack with x := match s.memWb with | none => u.x | some w => writtenBack w u.x } := by
  cases hw : s.memWb with
  | none => simp [State.inWriteBack, hw, State.atSlot]
  | some w => simp [State.inWriteBack, hw, exec_writeBack, writeBackStage, h, State.atSlot]

/-- MEM of a tick (40_pipeline.md R116 to R121). -/
theorem runSlot_memory (u : State) :
    runSlot .memory u.inMemory u =
      .next (match u.exMem with
        | none => u.atSlot .memory
        | some m =>
          if memFaults u.dmemBytes m then u.abort (.addressError m.pidx u.cycle)
          else { u with dmem := accessedMemory m u.dmem,
                        tick := { u.tick with slot := .memory, memWb := some (accessedBundle m.instr m u.dmem) } }) := by
  cases hm : u.exMem with
  | none => simp [State.inMemory, hm]
  | some m =>
    by_cases hf : memFaults u.dmemBytes m
    · simp [State.inMemory, hm, exec_memory, memoryStage, hf, State.abort, State.cycle, State.atSlot]
    · simp [State.inMemory, hm, exec_memory, memoryStage, hf, State.atSlot]

/-- ID of a tick (40_pipeline.md R106). -/
theorem runSlot_decode (u : State) (h0 : u.tick.idEx = none) (h1 : u.tick.stall = false) :
    runSlot .decode u.inDecode u =
      .next (match u.ifId with
        | none => u.atSlot .decode
        | some d =>
          if hazard d.instr u.idEx u.exMem then { u with tick := { u.tick with slot := .decode, stall := true } }
          else { u with tick := { u.tick with slot := .decode, idEx := some (decodedBundle d.instr d u.x) } }) := by
  cases hd : u.ifId with
  | none => simp [State.inDecode, hd]
  | some d =>
    by_cases hz : hazard d.instr u.idEx u.exMem
    · simp [State.inDecode, hd, exec_decode, decodeStage, hz, State.atSlot, h0]
    · simp [State.inDecode, hd, exec_decode, decodeStage, hz, State.atSlot, h1]

/-- EX of a tick (40_pipeline.md R112 to R115). -/
theorem runSlot_execute (u : State) :
    runSlot .execute u.inExecute u =
      match u.idEx with
      | none => .next (u.atSlot .execute)
      | some e =>
        executeStage e.instr (alu e.instr.op)
          (if e.instr.op = .lw then unforwardedRt else forwardedRt e.instr (u.atSlot .execute)) (u.atSlot .execute) := by
  cases he : u.idEx with
  | none => simp [State.inExecute, he]
  | some e => simpa [State.inExecute, he] using exec_execute (State.atSlot_slot u .execute)

/-- IF of a tick (40_pipeline.md R103 to R105). -/
theorem fetchSlot_eq (u : State) :
    fetchSlot u =
      .next (if u.tick.stall then u.holdFetch
        else match u.program[u.pc]? with
          | none => u.atSlot .fetch
          | some i => { u with tick := { u.tick with
              slot := .fetch, ifId := some { instr := i, pidx := u.pc, stalled := false }, fetched := true } }) := by
  unfold fetchSlot
  split
  · rfl
  · cases hp : u.program[u.pc]? with
    | none => simp [State.inFetch, hp]
    | some i => simp [State.inFetch, hp, exec_fetch, State.atSlot]

theorem upstream_next (s : State) : ∃ t, upstream s = .next t :=
  andThen_next (runSlot_next ..) fun _ => andThen_next (runSlot_next ..) fun _ => andThen_next (runSlot_next ..) fun _ =>
    runSlot_next ..

theorem fetchSlot_next (s : State) : ∃ t, fetchSlot s = .next t := by
  unfold fetchSlot; split
  · exact ⟨_, rfl⟩
  · exact runSlot_next ..

theorem stages_next (s : State) : ∃ t, stages s = .next t := andThen_next (upstream_next s) fetchSlot_next

theorem clockTick_next (s : State) : ∃ t, clockTick s = .next t := andThen_next (stages_next s) fun u => ⟨u.commit, rfl⟩

/-- A clock edge always answers a next state. -/
theorem step_next (s : State) : ∃ t, step s = .next t := by
  unfold step; split
  · exact clockTick_next s
  · exact ⟨s, rfl⟩

end Sys2Proof.Machine
end

