-- ==== Sys2Proof/Laws/State.lean ====
section
/-! SUPPORT. One lemma per field of `State` per update of it, each true by `rfl`: proofs cite these and unfold no record update. -/

namespace Sys2Proof.Machine

variable (s : State)

/-! ### `State.beginTick` -/

@[simp] theorem State.beginTick_program : (s.beginTick).program = s.program := rfl
@[simp] theorem State.beginTick_dmemBytes : (s.beginTick).dmemBytes = s.dmemBytes := rfl
@[simp] theorem State.beginTick_maxCycles : (s.beginTick).maxCycles = s.maxCycles := rfl
@[simp] theorem State.beginTick_x : (s.beginTick).x = s.x := rfl
@[simp] theorem State.beginTick_dmem : (s.beginTick).dmem = s.dmem := rfl
@[simp] theorem State.beginTick_pc : (s.beginTick).pc = s.pc := rfl
@[simp] theorem State.beginTick_ifId : (s.beginTick).ifId = s.ifId := rfl
@[simp] theorem State.beginTick_idEx : (s.beginTick).idEx = s.idEx := rfl
@[simp] theorem State.beginTick_exMem : (s.beginTick).exMem = s.exMem := rfl
@[simp] theorem State.beginTick_memWb : (s.beginTick).memWb = s.memWb := rfl
@[simp] theorem State.beginTick_cycleCount : (s.beginTick).cycleCount = s.cycleCount := rfl
@[simp] theorem State.beginTick_stallCount : (s.beginTick).stallCount = s.stallCount := rfl
@[simp] theorem State.beginTick_status : (s.beginTick).status = s.status := rfl
@[simp] theorem State.beginTick_tick : (s.beginTick).tick = Tick.rest := rfl

/-! ### `State.atSlot` -/

@[simp] theorem State.atSlot_program (p : Slot) : (s.atSlot p).program = s.program := rfl
@[simp] theorem State.atSlot_dmemBytes (p : Slot) : (s.atSlot p).dmemBytes = s.dmemBytes := rfl
@[simp] theorem State.atSlot_maxCycles (p : Slot) : (s.atSlot p).maxCycles = s.maxCycles := rfl
@[simp] theorem State.atSlot_x (p : Slot) : (s.atSlot p).x = s.x := rfl
@[simp] theorem State.atSlot_dmem (p : Slot) : (s.atSlot p).dmem = s.dmem := rfl
@[simp] theorem State.atSlot_pc (p : Slot) : (s.atSlot p).pc = s.pc := rfl
@[simp] theorem State.atSlot_ifId (p : Slot) : (s.atSlot p).ifId = s.ifId := rfl
@[simp] theorem State.atSlot_idEx (p : Slot) : (s.atSlot p).idEx = s.idEx := rfl
@[simp] theorem State.atSlot_exMem (p : Slot) : (s.atSlot p).exMem = s.exMem := rfl
@[simp] theorem State.atSlot_memWb (p : Slot) : (s.atSlot p).memWb = s.memWb := rfl
@[simp] theorem State.atSlot_cycleCount (p : Slot) : (s.atSlot p).cycleCount = s.cycleCount := rfl
@[simp] theorem State.atSlot_stallCount (p : Slot) : (s.atSlot p).stallCount = s.stallCount := rfl
@[simp] theorem State.atSlot_status (p : Slot) : (s.atSlot p).status = s.status := rfl
@[simp] theorem State.atSlot_tick (p : Slot) : (s.atSlot p).tick = { s.tick with slot := p } := rfl

/-! ### `State.abort` -/

@[simp] theorem State.abort_program (st : Status) : (s.abort st).program = s.program := rfl
@[simp] theorem State.abort_dmemBytes (st : Status) : (s.abort st).dmemBytes = s.dmemBytes := rfl
@[simp] theorem State.abort_maxCycles (st : Status) : (s.abort st).maxCycles = s.maxCycles := rfl
@[simp] theorem State.abort_x (st : Status) : (s.abort st).x = s.x := rfl
@[simp] theorem State.abort_dmem (st : Status) : (s.abort st).dmem = s.dmem := rfl
@[simp] theorem State.abort_pc (st : Status) : (s.abort st).pc = s.pc := rfl
@[simp] theorem State.abort_ifId (st : Status) : (s.abort st).ifId = s.ifId := rfl
@[simp] theorem State.abort_idEx (st : Status) : (s.abort st).idEx = s.idEx := rfl
@[simp] theorem State.abort_exMem (st : Status) : (s.abort st).exMem = s.exMem := rfl
@[simp] theorem State.abort_memWb (st : Status) : (s.abort st).memWb = s.memWb := rfl
@[simp] theorem State.abort_cycleCount (st : Status) : (s.abort st).cycleCount = s.cycle := rfl
@[simp] theorem State.abort_stallCount (st : Status) : (s.abort st).stallCount = s.stallCount := rfl
@[simp] theorem State.abort_status (st : Status) : (s.abort st).status = st := rfl
@[simp] theorem State.abort_tick (st : Status) : (s.abort st).tick = Tick.rest := rfl

/-! ### `State.commit` -/

@[simp] theorem State.commit_program : (s.commit).program = s.program := rfl
@[simp] theorem State.commit_dmemBytes : (s.commit).dmemBytes = s.dmemBytes := rfl
@[simp] theorem State.commit_maxCycles : (s.commit).maxCycles = s.maxCycles := rfl
@[simp] theorem State.commit_x : (s.commit).x = s.x := rfl
@[simp] theorem State.commit_dmem : (s.commit).dmem = s.dmem := rfl
@[simp] theorem State.commit_pc : (s.commit).pc = s.nextPc := rfl
@[simp] theorem State.commit_ifId : (s.commit).ifId = s.tick.nextIfId := rfl
@[simp] theorem State.commit_idEx : (s.commit).idEx = s.tick.nextIdEx := rfl
@[simp] theorem State.commit_exMem : (s.commit).exMem = s.tick.exMem := rfl
@[simp] theorem State.commit_memWb : (s.commit).memWb = s.tick.memWb := rfl
@[simp] theorem State.commit_cycleCount : (s.commit).cycleCount = s.cycle := rfl
@[simp] theorem State.commit_stallCount : (s.commit).stallCount = s.nextStallCount := rfl
@[simp] theorem State.commit_status : (s.commit).status = s.nextStatus := rfl
@[simp] theorem State.commit_tick : (s.commit).tick = Tick.rest := rfl

/-! ### `State.holdFetch` -/

@[simp] theorem State.holdFetch_program : (s.holdFetch).program = s.program := rfl
@[simp] theorem State.holdFetch_dmemBytes : (s.holdFetch).dmemBytes = s.dmemBytes := rfl
@[simp] theorem State.holdFetch_maxCycles : (s.holdFetch).maxCycles = s.maxCycles := rfl
@[simp] theorem State.holdFetch_x : (s.holdFetch).x = s.x := rfl
@[simp] theorem State.holdFetch_dmem : (s.holdFetch).dmem = s.dmem := rfl
@[simp] theorem State.holdFetch_pc : (s.holdFetch).pc = s.pc := rfl
@[simp] theorem State.holdFetch_ifId : (s.holdFetch).ifId = s.ifId := rfl
@[simp] theorem State.holdFetch_idEx : (s.holdFetch).idEx = s.idEx := rfl
@[simp] theorem State.holdFetch_exMem : (s.holdFetch).exMem = s.exMem := rfl
@[simp] theorem State.holdFetch_memWb : (s.holdFetch).memWb = s.memWb := rfl
@[simp] theorem State.holdFetch_cycleCount : (s.holdFetch).cycleCount = s.cycleCount := rfl
@[simp] theorem State.holdFetch_stallCount : (s.holdFetch).stallCount = s.stallCount := rfl
@[simp] theorem State.holdFetch_status : (s.holdFetch).status = s.status := rfl
@[simp] theorem State.holdFetch_tick : (s.holdFetch).tick = { s.tick with ifId := s.ifId.map (fun d => { d with stalled := true }), fetched := false } := rfl

/-! ### `State.resetWith` -/

@[simp] theorem State.resetWith_program (l : Launch) : (s.resetWith l).program = s.program := rfl
@[simp] theorem State.resetWith_dmemBytes (l : Launch) : (s.resetWith l).dmemBytes = l.dmemBytes := rfl
@[simp] theorem State.resetWith_maxCycles (l : Launch) : (s.resetWith l).maxCycles = l.maxCycles := rfl
@[simp] theorem State.resetWith_x (l : Launch) : (s.resetWith l).x = launchRegs l.reg0 := rfl
@[simp] theorem State.resetWith_dmem (l : Launch) : (s.resetWith l).dmem = launchMemory l.dmemBytes l.mem0 := rfl
@[simp] theorem State.resetWith_pc (l : Launch) : (s.resetWith l).pc = 0 := rfl
@[simp] theorem State.resetWith_ifId (l : Launch) : (s.resetWith l).ifId = none := rfl
@[simp] theorem State.resetWith_idEx (l : Launch) : (s.resetWith l).idEx = none := rfl
@[simp] theorem State.resetWith_exMem (l : Launch) : (s.resetWith l).exMem = none := rfl
@[simp] theorem State.resetWith_memWb (l : Launch) : (s.resetWith l).memWb = none := rfl
@[simp] theorem State.resetWith_cycleCount (l : Launch) : (s.resetWith l).cycleCount = 0 := rfl
@[simp] theorem State.resetWith_stallCount (l : Launch) : (s.resetWith l).stallCount = 0 := rfl
@[simp] theorem State.resetWith_status (l : Launch) : (s.resetWith l).status = .running := rfl
@[simp] theorem State.resetWith_tick (l : Launch) : (s.resetWith l).tick = Tick.rest := rfl

/-! ### The resting tick -/

@[simp] theorem Tick.rest_slot : Tick.rest.slot = .fetch := rfl
@[simp] theorem Tick.rest_stall : Tick.rest.stall = false := rfl
@[simp] theorem Tick.rest_flush : Tick.rest.flush = none := rfl
@[simp] theorem Tick.rest_fetched : Tick.rest.fetched = false := rfl
@[simp] theorem Tick.rest_ifId : Tick.rest.ifId = none := rfl
@[simp] theorem Tick.rest_idEx : Tick.rest.idEx = none := rfl
@[simp] theorem Tick.rest_exMem : Tick.rest.exMem = none := rfl
@[simp] theorem Tick.rest_memWb : Tick.rest.memWb = none := rfl

end Sys2Proof.Machine
end

