-- ==== Sys2Proof/Tests/Slice0.lean ====
section
/-! SUPPORT. Tests of the model. Expected values come from spec/95_test_vectors.md or from hand calculation with its rules;
a witness shows that the hypotheses of a statement hold together of a concrete state. -/

namespace Sys2Proof.Tests

open Sys2Proof Sys2Proof.Machine

/-! ### The loader's checks: an ill-formed term for each (30_encoding.md R83, R90; 95_test_vectors.md 2.1) -/

theorem smoke_opKnown : parseLine "mul 1 2 3".toList = .error .opKnown := by decide
theorem smoke_arity : parseLine "add 1 2".toList = .error .arity := by decide
theorem smoke_regRange_text : parseLine "add 32 1 2".toList = .error .regRange := by decide
theorem smoke_intParse : parseLine "lw 2 x(0)".toList = .error .intParse := by decide
/-- R92's `reg` has no sign; a negative number is out of range (R83), and `-0` is no register either. -/
theorem smoke_signed_register :
    parseLine "add -0 1 2".toList = .error .intParse ∧ parseLine "lw 2 8($-0)".toList = .error .intParse ∧
      parseLine "add -1 1 2".toList = .error .regRange := by decide
theorem smoke_immRange_text : parseLine "beq 1 2 40000".toList = .error .immRange := by decide
theorem smoke_illegalWord : loadWord 0x00000000 = .error .illegalWord := by decide
theorem smoke_regRange : ({ op := .add, rs := 0, rt := 0, rd := 32, imm := 0 } : RawRecord).check = .error .regRange := by decide
theorem smoke_immRange : ({ op := .lw, rs := 0, rt := 0, rd := 0, imm := -32769 } : RawRecord).check = .error .immRange := by decide
theorem smoke_launch_dmemBytes : ({ Launch.default with dmemBytes := 6 } : Launch).wellFormed = false := by decide
theorem smoke_launch_maxCycles : ({ Launch.default with maxCycles := 0 } : Launch).wellFormed = false := by decide

theorem test_parse_add : parseLine "add 4 2 3".toList = .ok (.add 4 2 3) := by decide
theorem test_parse_lw : parseLine "lw $2, -4($1)".toList = .ok (.lw 2 0xFFFC 1) := by decide

/-! ### Decoding: words of 95_test_vectors.md 2.1, their bits as 30_encoding.md R85 and R86 lay them out -/

theorem test_decode_add : decode 0b000000_00001_00010_00011_00000_100000#32 = .ok (.add 3 1 2) := by decide
theorem test_decode_sub : decode 0b000000_00001_00010_00011_00000_100010#32 = .ok (.sub 3 1 2) := by decide
theorem test_decode_lw : decode 0b100011_00001_00010_1111111111111100#32 = .ok (.lw 2 0xFFFC 1) := by decide
theorem test_decode_sw : decode 0b101011_00001_00010_0000000000000100#32 = .ok (.sw 2 4 1) := by decide
theorem test_decode_beq : decode 0b000100_00001_00010_0000000000000001#32 = .ok (.beq 1 2 1) := by decide
theorem test_encode_program_p1 :
    [encode (.lw 2 8 0), encode (.lw 3 16 0), encode (.add 4 2 3), encode (.sw 4 24 0)]
      = [0x8C020008, 0x8C030010, 0x00432020, 0xAC040018] := by decide
theorem test_decode_refuses :
    decode 0x00000021 = .error (.illegalFunct 0x21) ∧ decode 0x08000000 = .error (.illegalOpcode 0x02) ∧
      decode 0x14000000 = .error (.illegalOpcode 0x05) := by decide
theorem test_decodeTableWord : decodeTableWord 32 0x8C000000 = some (.lw 0 0 0) := by decide

/-! ### Small states -/

/-- Registers 1 = 5 and 2 = 7. -/
def regs : Vector Word 32 := ((Vector.replicate 32 0#32).set 1 5#32).set 2 7#32

/-- A launch of one `add`, with `mem[4] = 44`. -/
def start : State := State.launch [.add 3 1 2] { Launch.default with reg0 := regs, mem0 := [(4, 44)] }

/-- `i` in ID with nothing ahead of it. -/
def inId (i : Instr) : State :=
  { start with ifId := some { instr := i, pidx := 0, stalled := false }, tick := { Tick.rest with slot := .decode } }

/-- `i` in EX with the register values `a` and `b` and nothing to forward. -/
def inEx (i : Instr) (a b : Word) : State :=
  { start with
    idEx := some { instr := i, pidx := 0, ctrl := ctrl i.op, rsVal := a, rtVal := b, dest := destOf i }
    tick := { Tick.rest with slot := .execute } }

/-- The bundle of `i` in EX/MEM. -/
def bundle (i : Instr) (result v : Word) : ExMem :=
  { instr := i, pidx := 0, ctrl := ctrl i.op, dest := destOf i, aluResult := result, storeVal := v, fwdRs := false, fwdRt := false }

/-- `i` in MEM with its ALU result and store value. -/
def inMem (i : Instr) (result v : Word) : State :=
  { start with exMem := some (bundle i result v), tick := { Tick.rest with slot := .memory } }

/-- `i` in WB with its ALU result and loaded value. -/
def inWb (i : Instr) (result v : Word) : State :=
  { start with
    memWb := some { instr := i, pidx := 0, ctrl := ctrl i.op, dest := destOf i, aluResult := result, loadedValue := v }
    tick := { Tick.rest with slot := .writeBack } }

/-- The state a result holds, or the one it came from. -/
def stateOf (s : State) : Result → State
  | .next t => t
  | .fault _ => s
  | .refused _ => s

/-- One action of `i` in the slot of `s`. -/
def act (i : Instr) (s : State) : State := stateOf s (exec i s)

/-! ### One stage of each instruction -/

/-- A2: 0x7FFFFFFF + 1. -/
theorem test_add_wraps : ((act (.add 3 1 2) (inEx (.add 3 1 2) 0x7FFFFFFF 1)).tick.exMem.map ExMem.aluResult) = some 0x80000000 := by decide
/-- The result goes to rd and to no other register. -/
theorem test_add_writes_rd : (act (.add 3 1 2) (inWb (.add 3 1 2) 12 0)).x = regs.set 3 12#32 := by decide
/-- A5: 5 - 7, the minuend first. -/
theorem test_sub_order : ((act (.sub 3 1 2) (inEx (.sub 3 1 2) 5 7)).tick.exMem.map ExMem.aluResult) = some 0xFFFFFFFE := by decide
/-- A write to register 0 is a no-op. -/
theorem test_sub_rd_zero : (act (.sub 0 1 2) (inWb (.sub 0 1 2) 12 0)).x = regs := by decide
/-- M3: a base of -4 with offset 8 is address 4. -/
theorem test_lw_address_wraps : ((act (.lw 2 8 1) (inEx (.lw 2 8 1) 0xFFFFFFFC 0)).tick.exMem.map ExMem.aluResult) = some 4 := by decide
/-- M7: address 256 is DMEM_BYTES. -/
theorem test_lw_out_of_range : (act (.lw 2 256 0) (inMem (.lw 2 256 0) 256 0)).status = .addressError 0 1 := by decide
/-- M12: the word at the address and no other. -/
theorem test_sw_stores : (act (.sw 2 4 1) (inMem (.sw 2 4 1) 12 0xFFFFFFFB)).dmem = [(4, 44), (12, 0xFFFFFFFB)] := by decide
/-- M14: a misaligned store does not happen. -/
theorem test_sw_misaligned : (act (.sw 2 1 0) (inMem (.sw 2 1 0) 1 5)).dmem = [(4, 44)] := by decide
/-- B9: the comparison is over all 32 bits. -/
theorem test_beq_compares_all_bits : (act (.beq 1 2 1) (inEx (.beq 1 2 1) 0xFFFFFFFF 0x0000FFFF)).tick.flush = none := by decide
/-- B7: a target of -1. -/
theorem test_beq_negative_target : (act (.beq 0 0 0xFFFE) (inEx (.beq 0 0 0xFFFE) 0 0)).status = .branchTargetError 0 1 := by decide

/-- The first tick after reset fetches the word placed where IF fetches. -/
theorem test_first_step_fetches :
    ((runState 1 (State.reset.withFetchWord 32 0x00221820)).ifId) = some { instr := .add 3 1 2, pidx := 0, stalled := false } := by
  decide
/-- Cycle 4 of P1, its snapshot's stall bit: add#2 in ID against lw#1 in EX (95_test_vectors.md 2.8). -/
theorem test_load_use_stalls :
    ({ start with
        ifId := some { instr := .add 4 2 3, pidx := 2, stalled := false }
        idEx := some { instr := .lw 3 16 0, pidx := 1, ctrl := ctrl .lw, rsVal := 0, rtVal := 0, dest := 3 } } : State).stallSignal
      = true := by decide

/-! ### Witnesses: the hypotheses of the statements hold together -/

/-- `i` in EX and `j` in ID, both fetched, nothing ahead of them. -/
def pair (i j : Instr) : State :=
  { start with
    program := [i, j]
    pc := 2
    ifId := some { instr := j, pidx := 1, stalled := false }
    idEx := some { instr := i, pidx := 0, ctrl := ctrl i.op, rsVal := readReg start.x i.rs, rtVal := readReg start.x i.rt,
                   dest := destOf i } }

/-- `pair` meets the invariant, whatever the two instructions. -/
theorem pair_inv (i j : Instr) : (pair i j).Inv where
  regZero := by show start.x[0] = 0#32; decide
  memory := by show start.dmem.wf = true ∧ start.dmem.inRange start.dmemBytes = true; decide
  params := by show Sys2Proof.paramsOk start.dmemBytes start.maxCycles = true; decide
  ifId := by intro d h; cases h; exact ⟨rfl, rfl⟩
  idEx := by
    intro e h; cases h
    exact ⟨rfl, rfl, rfl, fun d hd => by cases hd; rfl, fun hn => by cases hn⟩
  exMem := by intro m h; cases h
  memWb := by intro w h; cases h
  noMissedHazard := by intro e m _ h; cases h
  operandsFresh := by intro _ e h; cases h; exact ⟨rfl, rfl⟩
  counters := ⟨fun _ => (by decide : start.cycleCount < start.maxCycles), (by decide : start.stallCount ≤ start.cycleCount)⟩
  resting := rfl

/-- All four latches hold an instruction. -/
def full : State :=
  { pair (.add 3 1 2) (.sub 4 1 2) with
    exMem := some (bundle (.sw 1 8 0) 8 5)
    memWb := some { instr := .lw 5 4 0, pidx := 0, ctrl := ctrl .lw, dest := 5, aluResult := 4, loadedValue := 44 } }

/-- One instruction alone in a drained pipeline. -/
def alone (i : Instr) : State := { start with program := [i] }

/-- A run that has ended. -/
def ended : State := { start with status := .terminated }

/-- `beq 0 0` in EX and `sub` in ID. -/
def branching : State := pair (.beq 0 0 0) (.sub 4 1 2)

theorem step_runState (s t : State) (h : runState 1 s = t) : step s = .next t := by
  obtain ⟨u, hu⟩ := step_next s
  rw [hu]
  simp only [runState, hu] at h
  rw [h]

theorem witness_EncodeDecodeAgree : decode 0x13FF8000 = .ok (.beq 31 31 0x8000) := by decide
theorem witness_OpcodeRowsAreDisjoint : ∃ r ∈ opRows, r.selects 0x00000022 = true := by decide
theorem witness_LoadWordsDecodesEachWord :
    loadWords [0x00221820, 0x8C220008] = .ok [.add 3 1 2, .lw 2 8 1] ∧ loadWords [0x00221820, 0] = .error .illegalWord := by decide
theorem witness_LoadTextIsLineByLine :
    loadText ["sw 4 24(0)".toList, "beq 1 0 2".toList] = .ok [.sw 4 24 0, .beq 1 0 2] ∧ loadText ["sub 1".toList] = .error .arity := by
  decide
/-- Each clause of the statement at the ends of its range. -/
theorem witness_LoadTextIsLineByLine_checks :
    parseLine "lw $31 -32768(0)".toList = .ok (.lw 31 0x8000 0) ∧ parseLine "beq 0 31 +32767".toList = .ok (.beq 0 31 0x7FFF) ∧
      parseLine "sw 1 -32769(2)".toList = .error .immRange ∧ parseLine "sub 1 2 32".toList = .error .regRange ∧
      parseOp "beq".toList = some .beq ∧ parseOperands .sw [[], []] = .error .intParse ∧
      parseOperands .sw [[], [], []] = .error .arity ∧ parseOperands .beq [[], []] = .error .arity := by decide
theorem witness_ResetLoadsEveryPieceOfState : (252 < Launch.default.dmemBytes ∧ 252 % 4 = 0) ∧ (31 : RegIdx) ≠ 0 := by decide
theorem witness_ResetKeepsOnlyTheProgram : start.program = ended.program := rfl
theorem witness_LaunchMeetsInvariant : ({ Launch.default with reg0 := regs } : Launch).wellFormed = true := by decide

theorem witness_StepRunsDecodedInstruction_record :
    start.status = .running ∧ upstream start = .next (stateOf start (upstream start)) ∧
      (stateOf start (upstream start)).status = .running ∧ (stateOf start (upstream start)).tick.stall = false ∧
      start.program[start.pc]? = some (.add 3 1 2) := ⟨rfl, rfl, rfl, rfl, rfl⟩
theorem witness_StepRunsDecodedInstruction_word :
    loadWords [0x00221820] = .ok start.program ∧ [(0x00221820 : Word)][start.pc]? = some 0x00221820 ∧
      decode 0x00221820 = .ok (.add 3 1 2) := by decide
theorem witness_StepRunsEveryStageInOrder :
    full.status = .running ∧ full.ifId.isSome ∧ full.idEx.isSome ∧ full.exMem.isSome ∧ full.memWb.isSome := by decide
theorem witness_StepIsTheReferenceTick : start.status = .running := rfl
theorem witness_FinalStatusIsQuiescent : ended.status ≠ .running := by decide
theorem witness_FetchLatchesTheRecord : start.tick.slot = .fetch := rfl
theorem witness_DecodeLatchesOperands :
    (inId (.lw 2 8 1)).tick.slot = .decode ∧ (inId (.lw 2 8 1)).ifId.isSome ∧
      hazard (.lw 2 8 1) (inId (.lw 2 8 1)).idEx (inId (.lw 2 8 1)).exMem = false := by decide
theorem witness_DecodeStallsOnHazard :
    ((pair (.add 1 1 2) (.beq 1 2 0)).atSlot .decode).tick.slot = .decode ∧ (pair (.add 1 1 2) (.beq 1 2 0)).ifId.isSome ∧
      hazard (.beq 1 2 0) (pair (.add 1 1 2) (.beq 1 2 0)).idEx (pair (.add 1 1 2) (.beq 1 2 0)).exMem = true := by decide
/-- Each way to a hazard, and none: lw's rt, register 0, another destination. -/
theorem witness_DecodeStallsOnHazard_clauses :
    hazard (.add 4 5 1) (pair (.lw 1 0 0) (.add 4 5 1)).idEx none = true ∧
      hazard (.beq 1 2 0) none (some (bundle (.lw 2 0 0) 0 0)) = true ∧
      hazard (.lw 1 0 5) (pair (.lw 1 0 0) (.lw 1 0 5)).idEx none = false ∧
      hazard (.beq 0 0 0) (pair (.lw 0 0 0) (.beq 0 0 0)).idEx none = false ∧
      hazard (.sw 4 0 5) (pair (.lw 1 0 0) (.sw 4 0 5)).idEx none = false ∧
      hazard (.sw 1 0 5) (pair (.add 1 2 2) (.sw 1 0 5)).idEx none = false := by decide

/-- What the EX statements ask of `inEx i a b`: the slot, the bundle and its operands. -/
abbrev exReady (i : Instr) (a b : Word) : Prop :=
  (inEx i a b).tick.slot = .execute ∧ (inEx i a b).idEx.map IdEx.ctrl = some (ctrl i.op) ∧
    fwd i.rs a (inEx i a b).exMem (inEx i a b).memWb = .value a false ∧
    fwd i.rt b (inEx i a b).exMem (inEx i a b).memWb = .value b false

theorem witness_AddExecutes : exReady (.add 3 1 2) 5 7 := by decide
theorem witness_SubExecutes : exReady (.sub 3 1 2) 5 7 := by decide
theorem witness_LwExecutes : exReady (.lw 2 8 1) 4 0 := by decide
theorem witness_SwExecutes : exReady (.sw 2 8 1) 4 9 := by decide
theorem witness_BeqExecutes_notTaken : exReady (.beq 1 2 0x8000) 5 7 := by decide
theorem witness_BeqExecutes_taken : exReady (.beq 1 2 0xFFFF) 5 5 ∧ 0 ≤ (0 : Int) + 1 + (0xFFFF#16).toInt := by decide
theorem witness_BeqNegativeTargetEndsTheRun : exReady (.beq 1 2 0xFFFE) 5 5 ∧ (0 : Int) + 1 + (0xFFFE#16).toInt < 0 := by decide
theorem witness_MissedHazardEndsTheRun :
    (inEx (.add 3 1 2) 5 7).idEx.isSome ∧ (bundle (.lw 1 0 0) 0 0).ctrl = ctrl .lw ∧ (bundle (.lw 1 0 0) 0 0).dest ≠ 0#5 ∧
      (bundle (.lw 1 0 0) 0 0).dest = (Instr.add 3 1 2).rs ∧ (bundle (.lw 2 0 0) 0 0).dest = (Instr.add 3 1 2).rt ∧
      ({ inEx (.add 3 1 2) 5 7 with exMem := some (bundle (.lw 1 0 0) 0 0) } : State).tick.slot = .execute := by decide

/-- What the MEM statements ask of `inMem i a v`: the slot, the bundle and its control signals. -/
abbrev memReady (i : Instr) (a v : Word) : Prop :=
  (inMem i a v).tick.slot = .memory ∧ (inMem i a v).exMem = some (bundle i a v) ∧ (bundle i a v).ctrl = ctrl i.op

theorem witness_ArithAndBranchPassMemory :
    memReady (.add 3 1 2) 1 0 ∧ memReady (.sub 3 1 2) 1 0 ∧ memReady (.beq 1 2 3) 1 0 := by decide
theorem witness_LwLoadsTheWord : memReady (.lw 2 252 0) 252 0 ∧ validAddress start.dmemBytes 252 = true := by decide
theorem witness_SwStoresTheWord :
    memReady (.sw 2 0 0) 0 9 ∧ validAddress start.dmemBytes 0 = true ∧ (inMem (.sw 2 0 0) 0 9).dmem.wf = true := by decide
theorem witness_InvalidAddressEndsTheRun :
    memReady (.lw 2 0 1) 0xFFFFFFFC 0 ∧ (0xFFFFFFFC : Word).toInt < 0 ∧ memReady (.sw 2 256 0) 256 0 ∧
      (start.dmemBytes : Int) ≤ (256 : Word).toInt ∧ memReady (.lw 2 2 0) 2 0 ∧ (2 : Word).toInt % 4 ≠ 0 := by decide
theorem witness_WriteBackWritesTheDestination :
    (∀ i ∈ [Instr.add 3 1 2, .sub 0 1 2, .lw 31 0 0], (inWb i 1 2).tick.slot = .writeBack ∧
      (inWb i 1 2).memWb.map MemWb.ctrl = some (ctrl i.op)) := by decide
theorem witness_StoreAndBranchWriteNoRegister :
    (∀ i ∈ [Instr.sw 3 1 2, .beq 0 1 2], (inWb i 1 2).tick.slot = .writeBack ∧
      (inWb i 1 2).memWb.map MemWb.ctrl = some (ctrl i.op)) := by decide

/-- What the statements about one instruction on its own ask of `alone i`. -/
abbrev aloneReady (i : Instr) : Prop :=
  (alone i).status = .running ∧ (alone i).ifId = none ∧ (alone i).idEx = none ∧ (alone i).exMem = none ∧ (alone i).memWb = none ∧
    (alone i).program[(alone i).pc]? = some i ∧ (alone i).progLen = (alone i).pc + 1 ∧
    (alone i).cycleCount + 4 < (alone i).maxCycles ∧ (alone i).dmem.wf = true

theorem witness_AddCompletesInFiveTicks : aloneReady (.add 3 1 2) := by decide
theorem witness_SubCompletesInFiveTicks : aloneReady (.sub 3 1 2) := by decide
theorem witness_LwCompletesOrFaults :
    aloneReady (.lw 2 4 0) ∧ validAddress 256 (readReg start.x 0 + sext32 4) = true ∧
      aloneReady (.lw 2 3 0) ∧ validAddress 256 (readReg start.x 0 + sext32 3) = false := by decide
theorem witness_SwCompletesOrFaults :
    aloneReady (.sw 2 252 0) ∧ validAddress 256 (readReg start.x 0 + sext32 252) = true ∧
      aloneReady (.sw 2 256 0) ∧ validAddress 256 (readReg start.x 0 + sext32 256) = false := by decide
/-- Not taken; a negative target; a target below N; the target N. -/
theorem witness_BeqCompletesOrRedirectsOrFaults :
    (aloneReady (.beq 1 2 0) ∧ readReg start.x 1 ≠ readReg start.x 2) ∧
    (aloneReady (.beq 0 0 0xFFFE) ∧ (0 : Int) + 1 + (0xFFFE#16).toInt = -1) ∧
    (aloneReady (.beq 0 0 0xFFFF) ∧ (0 : Int) + 1 + (0xFFFF#16).toInt = 0) ∧
    (aloneReady (.beq 0 0 0) ∧ (0 : Int) + 1 + (0#16).toInt = (alone (.beq 0 0 0)).progLen) := by decide

/-- A tick from a running state, for the statements about every tick. -/
theorem witness_tick : full.status = .running ∧ step full = .next (runState 1 full) := ⟨rfl, step_runState _ _ rfl⟩

theorem witness_CycleCountRisesByOne : faultCycle (runState 1 { start with maxCycles := 1 }).status = some 1 := by decide
theorem witness_StallCountCountsStalls :
    full.stallSignal = false ∧ (pair (.lw 1 0 0) (.add 4 1 1)).stallSignal = true := by decide
/-- A flush; a stall; a fetch; an exhausted pc; a fatal error. -/
theorem witness_PcChangesInThreeWays :
    branching.flushSignal = true ∧
    ((pair (.lw 1 0 0) (.add 4 1 1)).flushSignal = false ∧ (pair (.lw 1 0 0) (.add 4 1 1)).stallSignal = true) ∧
    (start.flushSignal = false ∧ start.stallSignal = false ∧ (runState 1 start).status.fatal = false ∧ start.pc < start.progLen) ∧
    (full.flushSignal = false ∧ full.progLen ≤ full.pc) ∧ (runState 1 (inMem (.lw 2 2 0) 2 0)).status.fatal = true := by decide
theorem witness_FetchAdvancesSequentially :
    (runState 1 start).status.fatal = false ∧ start.stallSignal = false ∧ start.flushSignal = false ∧
      start.program[start.pc]? = some (.add 3 1 2) := by decide
theorem witness_ExhaustedFetchWritesABubble :
    (runState 1 full).status.fatal = false ∧ full.stallSignal = false ∧ full.flushSignal = false ∧ full.progLen ≤ full.pc := by decide
theorem witness_StallHoldsDecode :
    (pair (.lw 1 0 0) (.add 4 1 1)).status = .running ∧ (pair (.lw 1 0 0) (.add 4 1 1)).stallSignal = true := by decide
theorem witness_TakenBranchFlushes :
    branching.status = .running ∧ branching.idEx.map IdEx.ctrl = some (ctrl .beq) ∧ branching.exMem = none ∧
      fwd 0 0 branching.exMem branching.memWb = .value 0 false ∧ 0 ≤ (0 : Int) + 1 + (0#16).toInt := by decide
theorem witness_StepFrame : (runState 1 full).status.fatal = false ∧ full.exMem.isSome := by decide
/-- AddressError in MEM; BranchTargetError in EX. -/
theorem witness_FatalErrorEndState :
    (runState 1 (inMem (.lw 2 2 0) 2 0)).status = .addressError 0 1 ∧
      (runState 1 (inEx (.beq 0 0 0xFFFE) 0 0)).status = .branchTargetError 0 1 := by decide
/-- An error of MEM ahead of one of EX; an error of EX; termination at the cap; the watchdog; neither. -/
theorem witness_OutcomePrecedence :
    (runState 1 { inEx (.beq 0 0 0xFFFE) 0 0 with exMem := some (bundle (.lw 2 2 0) 2 0) }).status = .addressError 0 1 ∧
    refExecute (inEx (.beq 0 0 0xFFFE) 0 0) = .abort (.branchTargetError 0 1) ∧
    (runState 1 (inEx (.beq 0 0 0xFFFE) 0 0)).status = .branchTargetError 0 1 ∧ ended.status ≠ .running ∧
    (runState 1 { start with program := [], maxCycles := 1 }).status = .terminated ∧
    (runState 1 { start with maxCycles := 1 }).status = .overrun 1 ∧ (runState 1 start).status = .running := by decide
theorem witness_SnapshotReportsTheTick :
    (pair (.lw 1 0 0) (.add 4 1 1)).snapshot.map Snapshot.stall = some true ∧ branching.snapshot.map Snapshot.flush = some true ∧
      (inMem (.lw 2 2 0) 2 0).snapshot.isSome = true ∧ full.snapshot.map (fun n => (n.stall, n.flush)) = some (false, false) := by
  decide

theorem witness_RegisterZeroIsNeverForwarded :
    (bundle (.add 0 1 1) 9 0).dest = 0#5 ∧ (bundle (.add 0 1 1) 9 0).ctrl.regWrite = true := by decide
theorem witness_ForwardingPrefersExMem :
    (bundle (.add 1 4 5) 22 0).ctrl.regWrite = true ∧ (bundle (.add 1 4 5) 22 0).dest = 1 ∧
      (bundle (.lw 1 4 5) 8 0).ctrl.regWrite = true ∧ (bundle (.lw 1 4 5) 8 0).dest = 1 ∧ (inWb (.lw 1 0 0) 0 11).memWb.map MemWb.dest = some 1 := by decide
theorem witness_OnlyRegisterWritersForward :
    (bundle (.sw 1 0 0) 0 0).ctrl.regWrite = false ∧ (bundle (.beq 1 1 0) 0 0).ctrl.regWrite = false ∧
      (inWb (.sw 1 0 0) 0 0).memWb.map (fun w => w.ctrl.regWrite) = some false := by decide

/-- What the stall lengths ask of `pair i j`, beside the invariant (`pair_inv`). -/
abbrev stallReady (i j : Instr) : Prop :=
  (pair i j).status = .running ∧ (ctrl i.op).regWrite = true ∧ destOf i ∈ sources j ∧ (pair i j).exMem = none ∧
    (runState 1 (pair i j)).status = .running ∧ (runState 2 (pair i j)).status = .running

theorem witness_StallLengthsAtDistanceOne :
    stallReady (.add 1 2 2) (.add 4 1 1) ∧ stallReady (.add 1 2 2) (.beq 1 4 5) ∧ stallReady (.lw 1 4 0) (.add 4 1 1) ∧
      stallReady (.lw 1 4 0) (.beq 1 4 5) := by decide

theorem witness_StepKeepsInvariant :
    (pair (.lw 1 4 0) (.sw 1 8 0)).Inv ∧
      step (pair (.lw 1 4 0) (.sw 1 8 0)) = .next (runState 1 (pair (.lw 1 4 0) (.sw 1 8 0))) :=
  ⟨pair_inv _ _, step_runState _ _ rfl⟩
theorem witness_HazardDefectIsUnreachable :
    (pair (.lw 1 4 0) (.add 4 1 1)).Inv ∧ (pair (.lw 1 4 0) (.add 4 1 1)).status = .running ∧
      step (pair (.lw 1 4 0) (.add 4 1 1)) = .next (runState 1 (pair (.lw 1 4 0) (.add 4 1 1))) :=
  ⟨pair_inv _ _, rfl, step_runState _ _ rfl⟩
/-- A tick with an instruction in EX, and one that raises BranchTargetError. -/
theorem witness_StepSimulatesSequentialMachine :
    (pair (.add 3 1 2) (.sub 4 3 1)).Inv ∧ (runState 1 (pair (.add 3 1 2) (.sub 4 3 1))).status = .running ∧
    (pair (.beq 0 0 0xFFFE) (.sub 4 3 1)).Inv ∧
      (runState 1 (pair (.beq 0 0 0xFFFE) (.sub 4 3 1))).status = .branchTargetError 0 1 :=
  ⟨pair_inv _ _, by decide, pair_inv _ _, by decide⟩
/-- A program with a load-use stall and a flush inside it. -/
def busy : State := State.launch [.lw 1 4 0, .add 2 1 1, .beq 0 0 0, .sub 3 2 1] { Launch.default with mem0 := [(4, 44)] }

/-- It terminates with the registers of the sequential machine. -/
theorem witness_SequentialEquivalence_terminated :
    (runState 11 busy).status = .terminated ∧ readReg (runState 11 busy).x 2 = 88 ∧ readReg (runState 11 busy).x 3 = 44 ∧
      (seqRun busy.program 256 4 (seqLaunch { Launch.default with mem0 := [(4, 44)] })).pc = 4 := by decide
theorem witness_SequentialEquivalence :
    Launch.default.wellFormed = true ∧ (runState 1 (State.launch [] Launch.default)).status = .terminated ∧
      (runState 4 (State.launch [.lw 2 2 0] Launch.default)).status = .addressError 0 4 ∧
      (runState 3 (State.launch [.beq 0 0 0xFFFE] Launch.default)).status = .branchTargetError 0 3 ∧
      (seqRun [.lw 2 2 0] 256 1 (seqLaunch Launch.default)).status = .addressError 0 ∧
      (seqRun [.beq 0 0 0xFFFE] 256 1 (seqLaunch Launch.default)).status = .branchTargetError 0 := by decide
/-- Four write-backs, a stall and a flush: 4 + 4 + 1 + 2 cycles. -/
theorem witness_CycleCountFormula :
    (runState 11 busy).status = .terminated ∧ (runState 11 busy).cycleCount = 11 ∧ (runState 11 busy).stallCount = 1 ∧
      (runState 5 busy).flushesInside = true := by decide
theorem witness_CycleCountFormula_noBranch :
    (runState 5 (State.launch [.add 3 1 2] Launch.default)).status = .terminated := by decide
theorem witness_WatchdogBoundsEveryRun :
    ({ Launch.default with maxCycles := 2 } : Launch).wellFormed = true ∧
      (runState 5 (State.launch [.add 3 1 2] { Launch.default with maxCycles := 9 })).status = .terminated ∧
      2 < (runState 5 (State.launch [.add 3 1 2] { Launch.default with maxCycles := 9 })).cycleCount := by decide

end Sys2Proof.Tests
end

