-- ==== Sys2Proof/Proofs/Reset.lean ====
section
/-! The clock edge with rst = 1 (70_reset_and_hazards.md R230). -/

namespace Sys2Proof.Machine

@[simp] theorem clockEdge_reset (l : Launch) (s : State) : clockEdge (some l) s = .next (s.resetWith l) := rfl

/-- Of the state it is applied to, a reset reads the program store alone. -/
theorem State.resetWith_congr {s s' : State} (l : Launch) (hprogram : s.program = s'.program) :
    s.resetWith l = s'.resetWith l :=
  congrArg (State.launch · l) hprogram

/-- Settles O9: the edge answers with `State.resetWith`, which reads nothing of the old state but its program store. -/
theorem resetKeepsOnlyTheProgram : Obligations.ResetKeepsOnlyTheProgram := by
  intro s s' l hprogram
  constructor
  · rw [clockEdge_reset, clockEdge_reset, State.resetWith_congr l hprogram]
  · exact ⟨s.resetWith l, clockEdge_reset l s, State.resetWith_program s l, State.resetWith_dmemBytes s l,
      State.resetWith_maxCycles s l⟩

end Sys2Proof.Machine
end

