-- ==== Sys2Proof/Proofs/RegisterZero.lean ====
section
/-! Register 0 is hard-wired to 0 (10_state.md R21). -/

namespace Sys2Proof.Machine

/-- The Forwarding Unit never looks at the latches for register 0 (41_hazard_forwarding.md R151). -/
@[simp] theorem fwd_zero (v : Word) (exMem : Option ExMem) (memWb : Option MemWb) :
    fwd 0#5 v exMem memWb = .value 0#32 false := rfl

/-- A write-back whose destination is register 0 is no write-back (40_pipeline.md R124). -/
theorem writtenBack_of_dest_zero {w : MemWb} (x : Vector Word 32) (hdest : w.dest = 0#5) : writtenBack w x = x := by
  rw [writtenBack_eq, hdest, writeReg_zero, ite_self]

/-- Settles O49: each clause is the rule of one operation at register 0. -/
theorem registerZeroIsHardWired : Obligations.RegisterZeroIsHardWired :=
  ⟨readReg_zero, writeReg_zero, fwd_zero, fun _ x hdest => writtenBack_of_dest_zero x hdest,
    fun _ l => ⟨readReg_zero _, launchRegs_getElem_zero l.reg0⟩⟩

end Sys2Proof.Machine
end

