-- ==== Sys2Proof/Proofs/ResetValues.lean ====
section
/-! The value every piece of state holds after reset (10_state.md R39). Data memory is the only one that takes an argument:
it is built by a fold of writes over the cells that lie in range, `mem0Word` is a fold of choices over all the cells. -/

namespace Sys2Proof.Machine

/-- After a list of writes a word is the last one listed for its address, else what memory held before. -/
theorem Memory.read_foldl_write (cells : List MemCell) {m : Memory} (hm : m.wf = true) (a : Nat) :
    (cells.foldl (fun m c => m.write c.1 c.2) m).read a =
      cells.foldl (fun v c => if c.1 = a then c.2 else v) (m.read a) := by
  induction cells generalizing m with
  | nil => rfl
  | cons c cs ih => rw [List.foldl_cons, List.foldl_cons, ih (Memory.wf_write c.1 c.2 hm), Memory.read_write c.1 a c.2 hm]

/-- Cells of other addresses do not count for the word `mem0` gives an address. -/
theorem mem0Word_filter {p : MemCell → Bool} {a : Nat} (mem0 : List MemCell) (hp : ∀ c : MemCell, c.1 = a → p c = true) :
    mem0Word (mem0.filter p) a = mem0Word mem0 a := by
  unfold mem0Word
  rw [List.foldl_filter]
  congr 1
  funext v c
  by_cases hc : c.1 = a
  · rw [if_pos (hp c hc)]
  · simp [hc]

/-- After a launch, a word at an address data memory has is the one `mem0` gives it. -/
theorem read_launchMemory {n a : Nat} (mem0 : List MemCell) (hlt : a < n) (haligned : a % 4 = 0) :
    (launchMemory n mem0).read a = mem0Word mem0 a := by
  have hcell : ∀ c : MemCell, c.1 = a → launchCellOk n c = true := by
    rintro c rfl
    simp [launchCellOk, wordBytes, hlt, haligned]
  calc (launchMemory n mem0).read a
      = mem0Word (mem0.filter (launchCellOk n)) a := Memory.read_foldl_write _ rfl a
    _ = mem0Word mem0 a := mem0Word_filter mem0 hcell

/-- Settles O8: the edge answers with `State.resetWith`, and each field of that is a launch value or a constant. -/
theorem resetLoadsEveryPieceOfState : Obligations.ResetLoadsEveryPieceOfState := by
  intro s l
  refine ⟨s.resetWith l, clockEdge_reset l s, readReg_zero _, ?registers, ?memory, rfl, rfl, rfl, rfl, rfl, rfl, rfl, rfl⟩
  case registers =>
    intro r hr
    rw [State.resetWith_x, readReg_launchRegs l.reg0 hr]
  case memory =>
    intro a hlt haligned
    rw [State.resetWith_dmem, read_launchMemory l.mem0 hlt haligned]

end Sys2Proof.Machine
end

