-- ==== Sys2Proof/Proofs/ProgramCounter.lean ====
section
/-! The program counter over one tick (10_state.md R25). What decides it is followed through the stages: EX may leave a
redirected pc, ID may stall, IF may fetch; no stage writes the pc itself, the commit does. -/

namespace Sys2Proof.Machine

variable {s t u v : State}

/-! ### What the stages ahead of IF leave -/

/-- The pc that the branch in EX redirects to is `n` (44_branch.md R192, R193). -/
def State.RedirectsTo (s : State) (n : Nat) : Prop :=
  ∃ e, s.idEx = some e ∧ e.ctrl.branch = true ∧ (n : Int) = branchTarget e.pidx e.instr.imm

/-- `u` stands between two stages of the tick that began at `s`, before IF: what IF reads is as the tick began, IF has left
nothing yet, and a flush is that of the branch in EX. -/
structure State.BeforeFetch (s u : State) : Prop where
  program : u.program = s.program
  pc : u.pc = s.pc
  idEx : u.idEx = s.idEx
  status : u.status = .running ∨ u.status.fatal = true
  tick_ifId : u.tick.ifId = none
  tick_fetched : u.tick.fetched = false
  tick_flush : ∀ n, u.tick.flush = some n → s.RedirectsTo n

namespace State.BeforeFetch

theorem of_beginTick (hrun : s.status = .running) : s.BeforeFetch s.beginTick where
  program := rfl
  pc := rfl
  idEx := rfl
  status := .inl hrun
  tick_ifId := rfl
  tick_fetched := rfl
  tick_flush := nofun

theorem atSlot (h : s.BeforeFetch u) (p : Slot) : s.BeforeFetch (u.atSlot p) := { h with }

theorem abort (h : s.BeforeFetch u) {st : Status} (hst : st.fatal = true) : s.BeforeFetch (u.abort st) :=
  { h with status := .inr hst, tick_ifId := rfl, tick_fetched := rfl, tick_flush := nofun }

theorem of_writeBackStage (h : s.BeforeFetch u) (hv : writeBackStage u = .next v) : s.BeforeFetch v := by
  obtain ⟨-, rfl⟩ | ⟨w, -, rfl⟩ := writeBackStage_cases hv
  · exact h
  · exact { h with }

theorem of_memoryStage {i : Instr} (h : s.BeforeFetch u) (hv : memoryStage i u = .next v) : s.BeforeFetch v := by
  obtain ⟨-, rfl⟩ | ⟨m, -, -, rfl⟩ | ⟨m, -, -, rfl⟩ := memoryStage_cases hv
  · exact { h with }
  · exact h.abort rfl
  · exact { h with }

theorem of_resolveBranch {e : IdEx} {a b : Word} {k : ExMem} (h : s.BeforeFetch u) (he : u.idEx = some e)
    (hv : resolveBranch e.instr e a b k u = .next v) : s.BeforeFetch v := by
  obtain ⟨-, rfl⟩ | ⟨-, -, rfl⟩ | ⟨htaken, hpos, rfl⟩ := resolveBranch_cases hv
  · exact { h with tick_flush := nofun }
  · exact h.abort rfl
  · have hbranch : e.ctrl.branch = true := (Bool.and_eq_true_iff.mp htaken).1
    refine { h with tick_flush := ?_ }
    rintro n ⟨rfl⟩
    exact ⟨e, h.idEx ▸ he, hbranch, Int.toNat_of_nonneg hpos⟩

theorem of_executeStage {i : Instr} {alu : Word → Word → Word} {rt : IdEx → Operand} (h : s.BeforeFetch u)
    (hi : ∀ e, u.idEx = some e → e.instr = i) (hv : executeStage i alu rt u = .next v) : s.BeforeFetch v := by
  obtain ⟨-, rfl⟩ | ⟨e, -, -, rfl⟩ | ⟨e, a, fa, b, fb, he, -, -, hb⟩ := executeStage_cases hv
  · exact { h with tick_flush := nofun }
  · exact h.abort rfl
  · obtain rfl := hi e he
    exact h.of_resolveBranch he hb

theorem of_decodeStage {i : Instr} (h : s.BeforeFetch u) (hv : decodeStage i u = .next v) : s.BeforeFetch v := by
  obtain ⟨-, rfl⟩ | ⟨d, -, -, rfl⟩ | ⟨d, -, -, rfl⟩ := decodeStage_cases hv
  all_goals exact { h with }

/-- Every instruction in a stage ahead of IF; in EX it has to be the one of the latch. -/
theorem of_exec {i : Instr} (h : s.BeforeFetch u) (hslot : u.tick.slot ≠ .fetch)
    (hi : u.tick.slot = .execute → ∀ e, u.idEx = some e → e.instr = i) (hv : exec i u = .next v) : s.BeforeFetch v := by
  cases hp : u.tick.slot with
  | writeBack => exact h.of_writeBackStage (exec_writeBack hp ▸ hv)
  | memory => exact h.of_memoryStage (exec_memory hp ▸ hv)
  | execute => exact h.of_executeStage (hi hp) (exec_execute hp ▸ hv)
  | decode => exact h.of_decodeStage (exec_decode hp ▸ hv)
  | fetch => exact absurd hp hslot

theorem of_runSlot {p : Slot} {j : Option Instr} (h : s.BeforeFetch u) (hp : p ≠ .fetch)
    (hj : p = .execute → j = u.inExecute) (hv : runSlot p j u = .next v) : s.BeforeFetch v := by
  cases j with
  | none =>
    cases hv
    exact h.atSlot p
  | some i =>
    refine (h.atSlot p).of_exec hp ?_ hv
    intro hex e he
    have hin : some i = u.idEx.map IdEx.instr := hj hex
    rw [show u.idEx = some e from he] at hin
    exact (Option.some.inj hin).symm

end State.BeforeFetch

/-- What the first part gives and the second part keeps holds after both. -/
theorem andThen_keeps {P : State → Prop} {o : Result} {f : State → Result} (ho : ∀ u, o = .next u → P u)
    (hf : ∀ u v, P u → f u = .next v → P v) (h : andThen o f = .next t) : P t := by
  obtain ⟨h1, -⟩ | ⟨u, h1, -, h2⟩ := andThen_cases h
  · exact ho t h1
  · exact hf u t (ho u h1) h2

theorem upstream_beforeFetch (hrun : s.status = .running) (h : upstream s = .next u) : s.BeforeFetch u := by
  unfold upstream at h
  have hbegin : s.BeforeFetch s.beginTick := .of_beginTick hrun
  refine andThen_keeps (fun w hw => hbegin.of_runSlot (p := .writeBack) (by decide) nofun hw) ?_ h
  intro w _ hw
  refine andThen_keeps (fun y hy => hw.of_runSlot (p := .memory) (by decide) nofun hy) ?_
  intro y _ hy
  refine andThen_keeps (fun z hz => hy.of_runSlot (p := .execute) (by decide) (fun _ => rfl) hz) ?_
  intro z _ hz
  exact hz.of_runSlot (p := .decode) (by decide) nofun

/-! ### What all five stages leave -/

/-- `u` is where the stages of the tick that began at `s` leave it when nothing has ended the run. -/
structure State.AfterFetch (s u : State) : Prop where
  running : u.status = .running
  pc : u.pc = s.pc
  flush : ∀ n, u.tick.flush = some n → s.RedirectsTo n
  fetched : u.tick.fetched = (!u.tick.stall && decide (s.pc < s.progLen))
  ifId_of_exhausted : u.tick.stall = false → s.progLen ≤ s.pc → u.tick.ifId = none

/-- IF stalls, fetches `program[pc]`, or finds the pc exhausted (40_pipeline.md R103 to R105). -/
theorem State.AfterFetch.of_fetchSlot (h : s.BeforeFetch u) (hrun : u.status = .running) (hv : fetchSlot u = .next v) :
    s.AfterFetch v := by
  rw [fetchSlot_eq] at hv
  cases hv
  have hstart : u.program[u.pc]? = s.program[s.pc]? := by rw [h.program, h.pc]
  cases hstall : u.tick.stall with
  | true =>
    exact { running := hrun, pc := h.pc, flush := h.tick_flush, fetched := by simp [hstall]
            ifId_of_exhausted := by simp [hstall] }
  | false =>
    cases hi : s.program[s.pc]? with
    | none =>
      have hexhausted : ¬ s.pc < s.progLen := Nat.not_lt.mpr (List.getElem?_eq_none_iff.mp hi)
      simp only [hstart, hi]
      exact { running := hrun, pc := h.pc, flush := h.tick_flush, fetched := by simp [h.tick_fetched, hexhausted]
              ifId_of_exhausted := fun _ _ => h.tick_ifId }
    | some i =>
      have hlt : s.pc < s.progLen := (List.getElem?_eq_some_iff.mp hi).1
      simp only [hstart, hi]
      exact { running := hrun, pc := h.pc, flush := h.tick_flush, fetched := by simp [hstall, hlt]
              ifId_of_exhausted := fun _ hge => absurd hlt (Nat.not_lt.mpr hge) }

/-- The five stages end the run with a fatal error ahead of IF, the pc unchanged, or leave a tick to commit. -/
theorem stages_cases (hrun : s.status = .running) (h : stages s = .next u) :
    (u.status.fatal = true ∧ u.pc = s.pc) ∨ s.AfterFetch u := by
  obtain ⟨hup, hended⟩ | ⟨w, hup, hw, hfetch⟩ := andThen_cases h
  · have hu := upstream_beforeFetch hrun hup
    exact .inl ⟨hu.status.resolve_left hended, hu.pc⟩
  · exact .inr (.of_fetchSlot (upstream_beforeFetch hrun hup) hw hfetch)

/-! ### The commit -/

theorem Status.ne_running_of_fatal {st : Status} (h : st.fatal = true) : st ≠ .running := by
  rintro rfl
  cases h

/-- The status a commit gives is no fatal error (40_pipeline.md R127 to R129). -/
theorem State.nextStatus_not_fatal (s : State) : s.nextStatus.fatal = false := by
  unfold State.nextStatus
  split
  · rfl
  · split <;> rfl

theorem State.nextPc_of_flush {n : Nat} (h : s.tick.flush = some n) : s.nextPc = n := by simp [State.nextPc, h]

theorem State.nextPc_of_no_flush (h : s.tick.flush = none) : s.nextPc = if s.tick.fetched then s.pc + 1 else s.pc := by
  simp [State.nextPc, h]

theorem Tick.nextIfId_of_no_flush {k : Tick} (h : k.flush = none) : k.nextIfId = k.ifId := by simp [Tick.nextIfId, h]

theorem State.cycleTick_of_running (h : stages s = .next u) (hrun : u.status = .running) : s.cycleTick = u.tick := by
  simp [State.cycleTick, h, hrun]

theorem State.cycleTick_of_ended (h : stages s = .next u) (hended : u.status ≠ .running) : s.cycleTick = Tick.rest := by
  simp [State.cycleTick, h, hended]

/-- A step from `Running` is a tick that ends in a fatal error, with no signal and the pc unchanged, or the commit of what
the five stages leave, whose signals are those of the cycle. -/
theorem step_cases (hrun : s.status = .running) (h : step s = .next t) :
    (t.status.fatal = true ∧ t.pc = s.pc ∧ s.cycleTick = Tick.rest) ∨
    (∃ u, s.AfterFetch u ∧ s.cycleTick = u.tick ∧ t = u.commit) := by
  have htick : clockTick s = .next t := by simpa [step, hrun] using h
  obtain ⟨hstages, hended⟩ | ⟨u, hstages, hu, hcommit⟩ := andThen_cases htick
  · obtain ⟨hfatal, hpc⟩ | hafter := stages_cases hrun hstages
    · exact .inl ⟨hfatal, hpc, State.cycleTick_of_ended hstages hended⟩
    · exact absurd hafter.running hended
  · obtain ⟨hfatal, -⟩ | hafter := stages_cases hrun hstages
    · exact absurd hu (Status.ne_running_of_fatal hfatal)
    · exact .inr ⟨u, hafter, State.cycleTick_of_running hstages hu, by cases hcommit; rfl⟩

/-- Settles O40: a fatal tick shows no signal and keeps the pc; a commit takes the redirected pc of a flush, and without a
flush goes on by one exactly when IF fetched. -/
theorem pcChangesInThreeWays : Obligations.PcChangesInThreeWays := by
  intro s t hrun hstep
  obtain ⟨hfatal, hpc, hrest⟩ | ⟨u, hu, hsignals, rfl⟩ := step_cases hrun hstep
  · simp [State.flushSignal, State.stallSignal, hrest, hfatal, hpc]
  · have hnofatal : u.commit.status.fatal = false := u.nextStatus_not_fatal
    cases hflush : u.tick.flush with
    | some n =>
      have hsignal : s.flushSignal = true := by simp [State.flushSignal, hsignals, hflush]
      obtain ⟨e, he, hbranch, htarget⟩ := hu.flush n hflush
      have hpc : (u.commit.pc : Int) = branchTarget e.pidx e.instr.imm := by
        rw [State.commit_pc, State.nextPc_of_flush hflush, htarget]
      rw [hsignal, hnofatal]
      exact ⟨fun _ => ⟨e, he, hbranch, hpc⟩, nofun, nofun, nofun, nofun⟩
    | none =>
      have hnosignal : s.flushSignal = false := by simp [State.flushSignal, hsignals, hflush]
      have hstallSignal : s.stallSignal = u.tick.stall := by simp [State.stallSignal, hsignals, hflush]
      have hpc : u.commit.pc = if !u.tick.stall && decide (s.pc < s.progLen) then s.pc + 1 else s.pc := by
        rw [State.commit_pc, State.nextPc_of_no_flush hflush, hu.fetched, hu.pc]
      have hifId : u.commit.ifId = u.tick.ifId := Tick.nextIfId_of_no_flush hflush
      rw [hnosignal, hstallSignal, hnofatal, hpc, hifId]
      refine ⟨nofun, fun _ hstall => ?stalled, fun _ hstall _ hlt => ?fetched, fun _ hge => ⟨?held, ?bubble⟩, nofun⟩
      case stalled => simp [hstall]
      case fetched => simp [hstall, hlt]
      case held => simp [Nat.not_lt.mpr hge]
      case bubble => exact fun hstall _ => hu.ifId_of_exhausted hstall hge

end Sys2Proof.Machine
end

