-- ==== Sys2Proof/Proofs/ReferenceTick.lean ====
section
/-! The staged step against the tick of 40_pipeline.md R100. The stages of a tick are run one after another on the states
that stand between them, and each is compared with its lines of the pseudocode. What the five stages leave is then one of
two things, an aborted state or a tick to commit, and what holds of every tick follows from these two. -/

namespace Sys2Proof.Machine

variable {s t : State} {D : Memory} {st : Status} {em : Option ExMem} {target : Option Nat}

/-! ### The lines of R100 by the model's own operations -/

theorem refWriteBack_of_none (h : s.memWb = none) : refWriteBack s = s.x := by simp [refWriteBack, h]

theorem refWriteBack_of_some {w : MemWb} (h : s.memWb = some w) : refWriteBack s = writtenBack w s.x := by
  simp [refWriteBack, h, writtenBack, writeBackValue]

/-- MEM aborts exactly on a bundle that accesses data memory at an address that is not valid (40_pipeline.md R117). -/
theorem refMemAborts_eq_some_iff :
    refMemAborts s = some st ↔
      ∃ m, s.exMem = some m ∧ memFaults s.dmemBytes m = true ∧ st = .addressError m.pidx s.cycle := by
  cases hm : s.exMem with
  | none => simp [refMemAborts, hm]
  | some m => simp [refMemAborts, hm, memFaults, State.cycle, and_assoc, eq_comm (a := st)]

theorem refMemAborts_eq_none_iff :
    refMemAborts s = none ↔ ∀ m, s.exMem = some m → memFaults s.dmemBytes m = false := by
  cases hm : s.exMem with
  | none => simp [refMemAborts, hm]
  | some m => simp [refMemAborts, hm, memFaults]

theorem refMemory_of_none (h : s.exMem = none) : refMemory s = (s.dmem, none) := by simp [refMemory, h]

theorem refMemory_of_some {m : ExMem} (h : s.exMem = some m) :
    refMemory s = (accessedMemory m s.dmem, some (accessedBundle m.instr m s.dmem)) := by
  simp [refMemory, h, accessedMemory, accessedBundle]

/-- The two errors of EX: a missed hazard, or a branch to a negative target (41_hazard_forwarding.md R150;
44_branch.md R192). -/
theorem refExecute_abort (h : refExecute s = .abort st) :
    st = .hazardDefect s.cycle ∨
      ∃ e, s.idEx = some e ∧ e.ctrl.branch = true ∧ st = .branchTargetError e.pidx s.cycle := by
  unfold refExecute at h
  split at h
  · cases h
  · next e he =>
    split at h
    · simp only at h
      split at h
      · next htaken =>
        split at h
        · exact .inr ⟨e, he, htaken.1, by cases h; rfl⟩
        · cases h
      · cases h
    · exact .inl (by cases h; rfl)

/-- EX of R100 with both operands. -/
theorem refExecute_of_values {e : IdEx} {a b : Word} {fa fb : Bool} (he : s.idEx = some e)
    (ha : fwd e.instr.rs e.rsVal s.exMem s.memWb = .value a fa)
    (hb : (if e.instr.op = .lw then .value e.rtVal false else fwd e.instr.rt e.rtVal s.exMem s.memWb) = .value b fb) :
    refExecute s =
      if e.ctrl.branch = true ∧ a = b then
        if (e.pidx : Int) + 1 + e.instr.imm.toInt < 0 then .abort (.branchTargetError e.pidx (s.cycleCount + 1))
        else .done (executedBundle e.instr e (alu e.instr.op a (secondOperand e.ctrl e.instr.imm b)) b fa fb)
          (some ((e.pidx : Int) + 1 + e.instr.imm.toInt).toNat)
      else .done (executedBundle e.instr e (alu e.instr.op a (secondOperand e.ctrl e.instr.imm b)) b fa fb) none := by
  simp only [refExecute, he, ha, hb]
  rfl

/-- EX of R100 with a missed hazard at either operand. -/
theorem refExecute_of_defect {e : IdEx} (he : s.idEx = some e)
    (h : fwd e.instr.rs e.rsVal s.exMem s.memWb = .defect ∨
      (if e.instr.op = .lw then .value e.rtVal false else fwd e.instr.rt e.rtVal s.exMem s.memWb) = .defect) :
    refExecute s = .abort (.hazardDefect s.cycle) := by
  obtain ha | hb := h
  · simp only [refExecute, he, ha, State.cycle]
  · cases ha : fwd e.instr.rs e.rsVal s.exMem s.memWb with
    | defect => simp only [refExecute, he, ha, State.cycle]
    | value a fa => simp only [refExecute, he, ha, hb, State.cycle]

theorem executeStage_of_values {i : Instr} {f : Word → Word → Word} {rt : IdEx → Operand} {e : IdEx} {a b : Word}
    {fa fb : Bool} (he : s.idEx = some e) (ha : fwd i.rs e.rsVal s.exMem s.memWb = .value a fa)
    (hb : rt e = .value b fb) :
    executeStage i f rt s =
      resolveBranch i e a b (executedBundle i e (f a (secondOperand e.ctrl i.imm b)) b fa fb) s := by
  simp only [executeStage, he, ha, hb]

theorem executeStage_of_defect {i : Instr} {f : Word → Word → Word} {rt : IdEx → Operand} {e : IdEx}
    (he : s.idEx = some e) (h : fwd i.rs e.rsVal s.exMem s.memWb = .defect ∨ rt e = .defect) :
    executeStage i f rt s = .next (s.abort (.hazardDefect s.cycle)) := by
  obtain ha | hb := h
  · simp only [executeStage, he, ha]
  · cases ha : fwd i.rs e.rsVal s.exMem s.memWb with
    | defect => simp only [executeStage, he, ha]
    | value a fa => simp only [executeStage, he, ha, hb]

theorem refStall_of_none (h : s.ifId = none) : refStall s = false := by simp [refStall, h]

theorem refStall_of_some {d : IfId} (h : s.ifId = some d) : refStall s = hazard d.instr s.idEx s.exMem := by
  simp [refStall, h]

theorem refDecode_of_none {X : Vector Word 32} (h : s.ifId = none) : refDecode s X = none := by simp [refDecode, h]

theorem refDecode_of_some {X : Vector Word 32} {d : IfId} (h : s.ifId = some d) :
    refDecode s X = if refStall s then none else some (decodedBundle d.instr d X) := by
  simp [refDecode, h, decodedBundle, destOf]

theorem refFetch_of_stall (h : refStall s = true) :
    refFetch s = (s.ifId.map fun d => { d with stalled := true }, s.pc) := by simp [refFetch, h]

theorem refFetch_of_some {i : Instr} (h : refStall s = false) (hi : s.program[s.pc]? = some i) :
    refFetch s = (some { instr := i, pidx := s.pc, stalled := false }, s.pc + 1) := by simp [refFetch, h, hi]

theorem refFetch_of_exhausted (h : refStall s = false) (hpc : s.progLen ≤ s.pc) : refFetch s = (none, s.pc) := by
  simp [refFetch, h, List.getElem?_eq_none_iff.mpr hpc]

/-! ### The states between the stages -/

/-- The tick that began at `s` under way, past WB: data memory is `D`, and `k` is what the stages have left so far. -/
def State.midTick (s : State) (D : Memory) (k : Tick) : State := { s with x := refWriteBack s, dmem := D, tick := k }

@[simp] theorem State.midTick_program (s : State) (D : Memory) (k : Tick) : (s.midTick D k).program = s.program := rfl
@[simp] theorem State.midTick_dmemBytes (s : State) (D : Memory) (k : Tick) : (s.midTick D k).dmemBytes = s.dmemBytes := rfl
@[simp] theorem State.midTick_x (s : State) (D : Memory) (k : Tick) : (s.midTick D k).x = refWriteBack s := rfl
@[simp] theorem State.midTick_dmem (s : State) (D : Memory) (k : Tick) : (s.midTick D k).dmem = D := rfl
@[simp] theorem State.midTick_pc (s : State) (D : Memory) (k : Tick) : (s.midTick D k).pc = s.pc := rfl
@[simp] theorem State.midTick_ifId (s : State) (D : Memory) (k : Tick) : (s.midTick D k).ifId = s.ifId := rfl
@[simp] theorem State.midTick_idEx (s : State) (D : Memory) (k : Tick) : (s.midTick D k).idEx = s.idEx := rfl
@[simp] theorem State.midTick_exMem (s : State) (D : Memory) (k : Tick) : (s.midTick D k).exMem = s.exMem := rfl
@[simp] theorem State.midTick_memWb (s : State) (D : Memory) (k : Tick) : (s.midTick D k).memWb = s.memWb := rfl
@[simp] theorem State.midTick_status (s : State) (D : Memory) (k : Tick) : (s.midTick D k).status = s.status := rfl
@[simp] theorem State.midTick_cycle (s : State) (D : Memory) (k : Tick) : (s.midTick D k).cycle = s.cycle := rfl
@[simp] theorem State.midTick_tick (s : State) (D : Memory) (k : Tick) : (s.midTick D k).tick = k := rfl

theorem State.midTick_abort (s : State) (D : Memory) (k : Tick) (st : Status) :
    (s.midTick D k).abort st = refAbort s (refWriteBack s) D st := rfl

theorem andThen_midTick (hrun : s.status = .running) (D : Memory) (k : Tick) (f : State → Result) :
    andThen (.next (s.midTick D k)) f = f (s.midTick D k) := andThen_running hrun

/-- What EX leaves of the state `u` it acts in, by what R100 computes. -/
def ExOutcome.applyTo (o : ExOutcome) (u : State) : State :=
  match o with
  | .bubble => u.atSlot .execute
  | .done em target => { u with tick := { u.tick with slot := .execute, exMem := some em, flush := target } }
  | .abort st => u.abort st

theorem runSlot_writeBack_beginTick (s : State) :
    runSlot .writeBack s.inWriteBack s.beginTick = .next (s.midTick s.dmem { Tick.rest with slot := .writeBack }) := by
  rw [runSlot_writeBack s s.beginTick rfl]
  cases hw : s.memWb with
  | none => simp [State.midTick, refWriteBack_of_none hw, State.atSlot, State.beginTick]
  | some w => simp [State.midTick, refWriteBack_of_some hw, State.atSlot, State.beginTick]

theorem runSlot_memory_of_abort (h : refMemAborts s = some st) (k : Tick) :
    runSlot .memory (s.midTick s.dmem k).inMemory (s.midTick s.dmem k) =
      .next (refAbort s (refWriteBack s) s.dmem st) := by
  obtain ⟨m, hm, hfault, rfl⟩ := refMemAborts_eq_some_iff.mp h
  rw [runSlot_memory]
  simp [hm, hfault, State.midTick_abort]

theorem runSlot_memory_of_access (h : refMemAborts s = none) {k : Tick} (hk : k.memWb = none) :
    runSlot .memory (s.midTick s.dmem k).inMemory (s.midTick s.dmem k) =
      .next (s.midTick (refMemory s).1 { k with slot := .memory, memWb := (refMemory s).2 }) := by
  rw [runSlot_memory]
  cases hm : s.exMem with
  | none => simp [hm, refMemory_of_none hm, State.midTick, State.atSlot, hk]
  | some m =>
    have hok : memFaults s.dmemBytes m = false := refMemAborts_eq_none_iff.mp h m hm
    simp [hm, hok, refMemory_of_some hm, State.midTick]

/-- The Branch Unit against R100's lines on `taken` and the redirected pc. -/
theorem resolveBranch_atSlot {i : Instr} {e : IdEx} {a b : Word} {k : ExMem} {u : State} (hflush : u.tick.flush = none) :
    resolveBranch i e a b k (u.atSlot .execute) =
      .next (ExOutcome.applyTo
        (if e.ctrl.branch = true ∧ a = b then
          if (e.pidx : Int) + 1 + i.imm.toInt < 0 then .abort (.branchTargetError e.pidx (u.cycleCount + 1))
          else .done k (some ((e.pidx : Int) + 1 + i.imm.toInt).toNat)
        else .done k none) u) := by
  by_cases htaken : e.ctrl.branch = true ∧ a = b
  · by_cases hneg : (e.pidx : Int) + 1 + i.imm.toInt < 0
    · simp [resolveBranch, branchTaken, branchTarget, htaken, hneg, ExOutcome.applyTo, State.abort, State.cycle]
    · simp [resolveBranch, branchTaken, branchTarget, htaken, hneg, ExOutcome.applyTo, State.atSlot]
  · simp [resolveBranch, branchTaken, htaken, ExOutcome.applyTo, State.atSlot, hflush]

theorem runSlot_execute_midTick {k : Tick} (hflush : k.flush = none) :
    runSlot .execute (s.midTick D k).inExecute (s.midTick D k) = .next ((refExecute s).applyTo (s.midTick D k)) := by
  rw [runSlot_execute]
  cases he : s.idEx with
  | none => simp [he, refExecute, ExOutcome.applyTo]
  | some e =>
    have hrt : (if e.instr.op = .lw then unforwardedRt else forwardedRt e.instr ((s.midTick D k).atSlot .execute)) e =
        if e.instr.op = .lw then .value e.rtVal false else fwd e.instr.rt e.rtVal s.exMem s.memWb := by
      split <;> rfl
    simp only [State.midTick_idEx, he]
    cases ha : fwd e.instr.rs e.rsVal s.exMem s.memWb with
    | defect =>
      rw [refExecute_of_defect he (.inl ha)]
      exact executeStage_of_defect (s := (s.midTick D k).atSlot .execute) he (.inl ha)
    | value a fa =>
      cases hb : (if e.instr.op = .lw then .value e.rtVal false else fwd e.instr.rt e.rtVal s.exMem s.memWb : Operand) with
      | defect =>
        rw [refExecute_of_defect he (.inr hb)]
        exact executeStage_of_defect (s := (s.midTick D k).atSlot .execute) he (.inr (hrt.trans hb))
      | value b fb =>
        rw [refExecute_of_values he ha hb]
        exact (executeStage_of_values (s := (s.midTick D k).atSlot .execute) he ha (hrt.trans hb)).trans
          (resolveBranch_atSlot (u := s.midTick D k) hflush)

theorem runSlot_decode_midTick {k : Tick} (hidEx : k.idEx = none) (hstall : k.stall = false) :
    runSlot .decode (s.midTick D k).inDecode (s.midTick D k) =
      .next (s.midTick D { k with slot := .decode, stall := refStall s, idEx := refDecode s (refWriteBack s) }) := by
  rw [runSlot_decode _ hidEx hstall]
  cases hd : s.ifId with
  | none => simp [hd, refStall_of_none hd, refDecode_of_none hd, State.midTick, State.atSlot, hidEx, hstall]
  | some d =>
    cases hz : hazard d.instr s.idEx s.exMem with
    | true => simp [hd, hz, refStall_of_some hd, refDecode_of_some hd, State.midTick, hidEx]
    | false => simp [hd, hz, refStall_of_some hd, refDecode_of_some hd, State.midTick, hstall]

theorem fetchSlot_midTick {k : Tick} (hstall : k.stall = refStall s) (hifId : k.ifId = none) (hfetched : k.fetched = false) :
    fetchSlot (s.midTick D k) =
      .next (s.midTick D { k with
        slot := if refStall s then k.slot else .fetch
        ifId := (refFetch s).1
        fetched := !refStall s && decide (s.pc < s.progLen) }) := by
  rw [fetchSlot_eq]
  cases hr : refStall s with
  | true => simp [hstall, hr, State.holdFetch, State.midTick, refFetch_of_stall hr]
  | false =>
    cases hi : s.program[s.pc]? with
    | none =>
      have hexhausted : s.progLen ≤ s.pc := List.getElem?_eq_none_iff.mp hi
      simp [hstall, hr, hi, State.midTick, State.atSlot, refFetch_of_exhausted hr hexhausted, Nat.not_lt.mpr hexhausted,
        hifId, hfetched]
    | some i =>
      have hlt : s.pc < s.progLen := (List.getElem?_eq_some_iff.mp hi).1
      simp [hstall, hr, hi, State.midTick, refFetch_of_some hr hi, hlt]

/-! ### The tick as a whole -/

/-- The tick that began at `s` is ended, by MEM or by EX, with the status `st` and data memory `D`. -/
inductive State.TickAborts (s : State) : Memory → Status → Prop
  | memory {st : Status} (hmem : refMemAborts s = some st) : s.TickAborts s.dmem st
  | execute {st : Status} (hmem : refMemAborts s = none) (hex : refExecute s = .abort st) :
      s.TickAborts (refMemory s).1 st

/-- The tick that began at `s` goes on to the commit, with EM' and the redirected pc that EX leaves. -/
inductive State.TickLatches (s : State) : Option ExMem → Option Nat → Prop
  | bubble (hmem : refMemAborts s = none) (hex : refExecute s = .bubble) : s.TickLatches none none
  | done {em : ExMem} {target : Option Nat} (hmem : refMemAborts s = none) (hex : refExecute s = .done em target) :
      s.TickLatches (some em) target

/-- What the five stages leave for the commit. -/
def State.finishedTick (s : State) (em : Option ExMem) (target : Option Nat) : Tick :=
  { slot := if refStall s then .decode else .fetch
    stall := refStall s
    flush := target
    fetched := !refStall s && decide (s.pc < s.progLen)
    ifId := (refFetch s).1
    idEx := refDecode s (refWriteBack s)
    exMem := em
    memWb := (refMemory s).2 }

/-- R100's next state of a tick that goes on to the commit. -/
def State.refCommitted (s : State) (em : Option ExMem) (target : Option Nat) : State :=
  refCommit s (refWriteBack s) (refMemory s).1 (refMemory s).2 em target

theorem tickAborts_or_tickLatches (s : State) :
    (∃ D st, s.TickAborts D st) ∨ ∃ em target, s.TickLatches em target := by
  cases hmem : refMemAborts s with
  | some st => exact .inl ⟨_, _, .memory hmem⟩
  | none =>
    cases hex : refExecute s with
    | bubble => exact .inr ⟨_, _, .bubble hmem hex⟩
    | done em target => exact .inr ⟨_, _, .done hmem hex⟩
    | abort st => exact .inl ⟨_, _, .execute hmem hex⟩

/-- The statuses a tick can abort with: fatal ones, recorded at the cycle under way. -/
theorem State.TickAborts.status (h : s.TickAborts D st) : st.fatal = true ∧ faultCycle st = some s.cycle := by
  cases h with
  | memory hmem =>
    obtain ⟨m, -, -, rfl⟩ := refMemAborts_eq_some_iff.mp hmem
    exact ⟨rfl, rfl⟩
  | execute hmem hex =>
    obtain rfl | ⟨e, -, -, rfl⟩ := refExecute_abort hex
    · exact ⟨rfl, rfl⟩
    · exact ⟨rfl, rfl⟩

theorem State.TickAborts.referenceTick_eq (h : s.TickAborts D st) :
    referenceTick s = refAbort s (refWriteBack s) D st := by
  cases h with
  | memory hmem => simp [referenceTick, hmem]
  | execute hmem hex => simp [referenceTick, hmem, hex]

theorem State.TickLatches.referenceTick_eq (h : s.TickLatches em target) : referenceTick s = s.refCommitted em target := by
  cases h with
  | bubble hmem hex => simp [referenceTick, hmem, hex, State.refCommitted]
  | done hmem hex => simp [referenceTick, hmem, hex, State.refCommitted]

theorem State.TickLatches.memory (h : s.TickLatches em target) : refMemAborts s = none := by
  cases h with
  | bubble hmem _ => exact hmem
  | done hmem _ => exact hmem

/-- EX leaves the bundle and the redirected pc that the commit takes. -/
theorem State.TickLatches.applyTo_midTick (h : s.TickLatches em target) {k : Tick} (hem : k.exMem = none)
    (hflush : k.flush = none) :
    (refExecute s).applyTo (s.midTick D k) =
      s.midTick D { k with slot := .execute, exMem := em, flush := target } := by
  cases h with
  | bubble _ hex => simp [hex, ExOutcome.applyTo, State.midTick, State.atSlot, hem, hflush]
  | done _ hex => simp [hex, ExOutcome.applyTo, State.midTick]

theorem upstream_of_tickAborts (hrun : s.status = .running) (h : s.TickAborts D st) :
    upstream s = .next (refAbort s (refWriteBack s) D st) := by
  have hended : (refAbort s (refWriteBack s) D st).status ≠ .running := Status.ne_running_of_fatal h.status.1
  unfold upstream
  rw [runSlot_writeBack_beginTick, andThen_midTick hrun]
  cases h with
  | memory hmem => rw [runSlot_memory_of_abort hmem, andThen_ended hended]
  | execute hmem hex =>
    rw [runSlot_memory_of_access hmem rfl, andThen_midTick hrun, runSlot_execute_midTick rfl, hex]
    exact andThen_ended hended

theorem upstream_of_tickLatches (hrun : s.status = .running) (h : s.TickLatches em target) :
    upstream s = .next (s.midTick (refMemory s).1 { Tick.rest with
      slot := .decode, stall := refStall s, flush := target, idEx := refDecode s (refWriteBack s), exMem := em
      memWb := (refMemory s).2 }) := by
  unfold upstream
  rw [runSlot_writeBack_beginTick, andThen_midTick hrun, runSlot_memory_of_access h.memory rfl, andThen_midTick hrun,
    runSlot_execute_midTick rfl, h.applyTo_midTick rfl rfl]
  exact (andThen_midTick hrun _ _ _).trans (runSlot_decode_midTick rfl rfl)

theorem stages_of_tickAborts (hrun : s.status = .running) (h : s.TickAborts D st) :
    stages s = .next (refAbort s (refWriteBack s) D st) := by
  rw [stages, upstream_of_tickAborts hrun h]
  exact andThen_ended (Status.ne_running_of_fatal h.status.1)

theorem stages_of_tickLatches (hrun : s.status = .running) (h : s.TickLatches em target) :
    stages s = .next (s.midTick (refMemory s).1 (s.finishedTick em target)) := by
  rw [stages, upstream_of_tickLatches hrun h]
  exact (andThen_midTick hrun _ _ _).trans (fetchSlot_midTick rfl rfl rfl)

/-! ### The commit -/

theorem refFetch_pc (s : State) :
    (refFetch s).2 = if !refStall s && decide (s.pc < s.progLen) then s.pc + 1 else s.pc := by
  cases hr : refStall s with
  | true => simp [refFetch_of_stall hr]
  | false =>
    cases hi : s.program[s.pc]? with
    | none =>
      have hexhausted : s.progLen ≤ s.pc := List.getElem?_eq_none_iff.mp hi
      simp [refFetch_of_exhausted hr hexhausted, Nat.not_lt.mpr hexhausted]
    | some i =>
      have hlt : s.pc < s.progLen := (List.getElem?_eq_some_iff.mp hi).1
      simp [refFetch_of_some hr hi, hlt]

theorem State.drained_iff :
    s.drained = true ↔ s.progLen ≤ s.nextPc ∧ s.tick.nextIfId = none ∧ s.tick.nextIdEx = none ∧ s.tick.exMem = none ∧
      s.tick.memWb = none := by
  simp [State.drained, and_assoc]

/-- Terminated is tested before Overrun, on the next pc and the next latches (40_pipeline.md R127 to R129). -/
theorem State.refCommitted_status (s : State) (em : Option ExMem) (target : Option Nat) :
    (s.refCommitted em target).status =
      if (s.refCommitted em target).progLen ≤ (s.refCommitted em target).pc ∧ (s.refCommitted em target).ifId = none ∧
          (s.refCommitted em target).idEx = none ∧ (s.refCommitted em target).exMem = none ∧
          (s.refCommitted em target).memWb = none then .terminated
      else if s.maxCycles ≤ s.cycle then .overrun s.cycle
      else .running := rfl

theorem nextPc_finishedTick (s : State) (D : Memory) (em : Option ExMem) (target : Option Nat) :
    (s.midTick D (s.finishedTick em target)).nextPc = (s.refCommitted em target).pc := by
  cases target with
  | none => exact (refFetch_pc s).symm
  | some n => rfl

theorem nextStallCount_finishedTick (s : State) (D : Memory) (em : Option ExMem) (target : Option Nat) :
    (s.midTick D (s.finishedTick em target)).nextStallCount = (s.refCommitted em target).stallCount := by
  cases target <;> simp [State.nextStallCount, State.finishedTick, State.refCommitted, refCommit, State.midTick]

theorem nextStatus_finishedTick (s : State) (D : Memory) (em : Option ExMem) (target : Option Nat) :
    (s.midTick D (s.finishedTick em target)).nextStatus = (s.refCommitted em target).status := by
  have hdrained := State.drained_iff (s := s.midTick D (s.finishedTick em target))
  rw [nextPc_finishedTick] at hdrained
  rw [State.refCommitted_status, State.nextStatus]
  exact if_congr hdrained rfl rfl

/-- The commit of a finished tick is R100's. -/
theorem commit_finishedTick (s : State) (em : Option ExMem) (target : Option Nat) :
    (s.midTick (refMemory s).1 (s.finishedTick em target)).commit = s.refCommitted em target := by
  unfold State.commit
  rw [nextPc_finishedTick, nextStallCount_finishedTick, nextStatus_finishedTick]
  rfl

theorem step_of_tickAborts (hrun : s.status = .running) (h : s.TickAborts D st) :
    step s = .next (refAbort s (refWriteBack s) D st) := by
  rw [step, if_pos hrun, clockTick, stages_of_tickAborts hrun h]
  exact andThen_ended (Status.ne_running_of_fatal h.status.1)

theorem step_of_tickLatches (hrun : s.status = .running) (h : s.TickLatches em target) :
    step s = .next (s.refCommitted em target) := by
  rw [step, if_pos hrun, clockTick, stages_of_tickLatches hrun h, ← commit_finishedTick]
  exact andThen_running hrun

/-- The two ends of a tick, each with the tick that the signals of the cycle are read from. -/
theorem running_step_cases (hrun : s.status = .running) (h : step s = .next t) :
    (∃ D st, s.TickAborts D st ∧ s.cycleTick = Tick.rest ∧ t = refAbort s (refWriteBack s) D st) ∨
    (∃ em target, s.TickLatches em target ∧ s.cycleTick = s.finishedTick em target ∧ t = s.refCommitted em target) := by
  obtain ⟨D, st, hends⟩ | ⟨em, target, hends⟩ := tickAborts_or_tickLatches s
  · have ht := (step_of_tickAborts hrun hends).symm.trans h
    exact .inl ⟨D, st, hends,
      State.cycleTick_of_ended (stages_of_tickAborts hrun hends) (Status.ne_running_of_fatal hends.status.1),
      by cases ht; rfl⟩
  · have ht := (step_of_tickLatches hrun hends).symm.trans h
    exact .inr ⟨em, target, hends, State.cycleTick_of_running (stages_of_tickLatches hrun hends) hrun, by cases ht; rfl⟩

/-- The status of a commit is no fatal error. -/
theorem State.refCommitted_not_fatal (s : State) (em : Option ExMem) (target : Option Nat) :
    (s.refCommitted em target).status.fatal = false := by
  rw [← nextStatus_finishedTick s s.dmem]
  exact State.nextStatus_not_fatal _

/-- A fatal status is one that MEM or EX ended the tick with. -/
theorem tickAborts_of_fatal (hrun : s.status = .running) (h : step s = .next t) (hfatal : t.status.fatal = true) :
    ∃ D, s.TickAborts D t.status ∧ t = refAbort s (refWriteBack s) D t.status := by
  obtain ⟨D, st, hends, -, rfl⟩ | ⟨em, target, -, -, rfl⟩ := running_step_cases hrun h
  · exact ⟨D, hends, rfl⟩
  · cases hfatal.symm.trans (s.refCommitted_not_fatal em target)

/-- Settles O15: a tick aborts or goes on to the commit, in the staged machine and in R100 alike. -/
theorem stepIsTheReferenceTick : Obligations.StepIsTheReferenceTick := by
  intro s hrun
  obtain ⟨D, st, h⟩ | ⟨em, target, h⟩ := tickAborts_or_tickLatches s
  · rw [step_of_tickAborts hrun h, h.referenceTick_eq]
  · rw [step_of_tickLatches hrun h, h.referenceTick_eq]

end Sys2Proof.Machine
end

