-- ==== Sys2Proof/Proofs/TickCounters.lean ====
section
/-! The counters and the fetch of a tick (40_pipeline.md R103, R104, R130, R131). -/

namespace Sys2Proof.Machine

variable {s : State}

/-- The cycle a commit records is the one under way: of its statuses only Overrun records one. -/
theorem State.faultCycle_refCommitted {em : Option ExMem} {target : Option Nat} {c : Nat}
    (h : faultCycle (s.refCommitted em target).status = some c) : c = s.cycle := by
  rw [State.refCommitted_status] at h
  split at h
  · cases h
  · split at h
    · exact (Option.some.inj h).symm
    · cases h

/-- Settles O38: an abort and a commit count the cycle, and a status that records a cycle is given that one. -/
theorem cycleCountRisesByOne : Obligations.CycleCountRisesByOne := by
  intro s t hrun hstep
  obtain ⟨D, st, hends, -, rfl⟩ | ⟨em, target, -, -, rfl⟩ := running_step_cases hrun hstep
  · exact ⟨rfl, fun c hc => Option.some.inj (hc.symm.trans hends.status.2)⟩
  · exact ⟨rfl, fun c hc => State.faultCycle_refCommitted hc⟩

/-- The stall signal of a tick that goes on to the commit. -/
theorem State.stallSignal_of_finishedTick {em : Option ExMem} {target : Option Nat}
    (h : s.cycleTick = s.finishedTick em target) : s.stallSignal = (refStall s && target.isNone) := by
  rw [State.stallSignal, h]
  rfl

/-- Settles O39: an abort shows no stall signal and counts none; a commit counts the signal. -/
theorem stallCountCountsStalls : Obligations.StallCountCountsStalls := by
  intro s t hrun hstep
  obtain ⟨D, st, -, hrest, rfl⟩ | ⟨em, target, -, htick, rfl⟩ := running_step_cases hrun hstep
  · have hsignal : s.stallSignal = false := by simp [State.stallSignal, hrest]
    rw [hsignal]
    rfl
  · rw [State.stallSignal_of_finishedTick htick]
    simp [State.refCommitted, refCommit]

/-- A commit without a stall and without a flush takes what R100's IF lines give. -/
theorem refCommitted_of_no_signal {em : Option ExMem} {target : Option Nat} (htick : s.cycleTick = s.finishedTick em target)
    (hstall : s.stallSignal = false) (hflush : s.flushSignal = false) :
    refStall s = false ∧ (s.refCommitted em target).ifId = (refFetch s).1 ∧ (s.refCommitted em target).pc = (refFetch s).2 := by
  obtain rfl : target = none := by simpa [State.flushSignal, htick, State.finishedTick] using hflush
  rw [State.stallSignal_of_finishedTick htick] at hstall
  exact ⟨by simpa using hstall, rfl, rfl⟩

/-- A tick that ends in no fatal error, with no stall and no flush, takes what R100's IF lines give. -/
theorem step_fetch_of_no_signal {t : State} (hrun : s.status = .running) (hstep : step s = .next t)
    (hfatal : t.status.fatal = false) (hstall : s.stallSignal = false) (hflush : s.flushSignal = false) :
    refStall s = false ∧ t.ifId = (refFetch s).1 ∧ t.pc = (refFetch s).2 := by
  obtain ⟨D, st, hends, -, rfl⟩ | ⟨em, target, -, htick, rfl⟩ := running_step_cases hrun hstep
  · exact absurd (hends.status.1.symm.trans hfatal) (by decide)
  · exact refCommitted_of_no_signal htick hstall hflush

/-- Settles O41: R100's IF lines with a record at the pc. -/
theorem fetchAdvancesSequentially : Obligations.FetchAdvancesSequentially := by
  intro s t i hrun hstep hfatal hstall hflush hi
  obtain ⟨hnostall, hifId, hpc⟩ := step_fetch_of_no_signal hrun hstep hfatal hstall hflush
  rw [hifId, hpc, refFetch_of_some hnostall hi]
  exact ⟨rfl, rfl⟩

/-- Settles O42: R100's IF lines with the pc exhausted. -/
theorem exhaustedFetchWritesABubble : Obligations.ExhaustedFetchWritesABubble := by
  intro s t hrun hstep hfatal hstall hflush hexhausted
  obtain ⟨hnostall, hifId, hpc⟩ := step_fetch_of_no_signal hrun hstep hfatal hstall hflush
  rw [hifId, hpc, refFetch_of_exhausted hnostall hexhausted]
  exact ⟨rfl, rfl⟩

end Sys2Proof.Machine
end

