-- ==== Sys2Proof/Proofs/Outcomes.lean ====
section
/-! The status a tick ends with and the order in which the outcomes are tested (60_exceptions.md R216; 40_pipeline.md R127
to R129). -/

namespace Sys2Proof.Machine

variable {s : State}

/-- An AddressError is that of a load or store in MEM, and nothing has been stored. -/
theorem State.TickAborts.of_addressError {D : Memory} {p c : Nat} (h : s.TickAborts D (.addressError p c)) :
    D = s.dmem ∧ ∃ m, s.exMem = some m ∧ m.pidx = p ∧ (m.ctrl.memRead = true ∨ m.ctrl.memWrite = true) := by
  cases h with
  | memory hmem =>
    obtain ⟨m, hm, hfault, hst⟩ := refMemAborts_eq_some_iff.mp hmem
    cases hst
    have haccess := (Bool.and_eq_true_iff.mp hfault).1
    exact ⟨rfl, m, hm, rfl, Bool.or_eq_true_iff.mp haccess⟩
  | execute hmem hex => obtain hst | ⟨e, -, -, hst⟩ := refExecute_abort hex <;> cases hst

/-- A BranchTargetError is that of a branch in EX. -/
theorem State.TickAborts.of_branchTargetError {D : Memory} {p c : Nat} (h : s.TickAborts D (.branchTargetError p c)) :
    ∃ e, s.idEx = some e ∧ e.pidx = p ∧ e.ctrl.branch = true := by
  cases h with
  | memory hmem =>
    obtain ⟨m, -, -, hst⟩ := refMemAborts_eq_some_iff.mp hmem
    cases hst
  | execute hmem hex =>
    obtain hst | ⟨e, he, hbranch, hst⟩ := refExecute_abort hex
    · cases hst
    · cases hst
      exact ⟨e, he, rfl, hbranch⟩

/-- A tick that MEM or EX ends records the status they end it with. -/
theorem State.TickAborts.step_status {t : State} {D : Memory} {st : Status} (hrun : s.status = .running)
    (hstep : step s = .next t) (h : s.TickAborts D st) : t.status = st := by
  have ht := (step_of_tickAborts hrun h).symm.trans hstep
  cases ht
  rfl

/-- A tick that neither MEM nor EX ends is no aborted one. -/
theorem not_tickAborts {D : Memory} {st : Status} (hmem : refMemAborts s = none) (hex : ∀ st, refExecute s ≠ .abort st) :
    ¬ s.TickAborts D st := by
  intro h
  cases h with
  | memory hsome => cases hmem.symm.trans hsome
  | execute _ habort => exact hex st habort

/-- Settles O47: what a status says is read off the two ends of a tick; which end it has is decided by the address check of
MEM, then by EX. -/
theorem outcomePrecedence : Obligations.OutcomePrecedence := by
  refine ⟨fun s hfinal => if_neg hfinal, fun s t hrun hstep => ⟨?addressError, ?branchTargetError, ?fatal, ?inMemory,
    ?inExecute, ?committed⟩⟩
  case addressError =>
    intro p c hst
    obtain ⟨D, hends, ht⟩ := tickAborts_of_fatal hrun hstep (by rw [hst]; rfl)
    rw [hst] at hends
    obtain ⟨hD, hm⟩ := hends.of_addressError
    exact ⟨(congrArg State.dmem ht).trans hD, hm⟩
  case branchTargetError =>
    intro p c hst
    obtain ⟨D, hends, -⟩ := tickAborts_of_fatal hrun hstep (by rw [hst]; rfl)
    rw [hst] at hends
    exact hends.of_branchTargetError
  case fatal =>
    intro hfatal
    obtain ⟨D, -, ht⟩ := tickAborts_of_fatal hrun hstep hfatal
    rw [ht]
    exact ⟨rfl, rfl, rfl, rfl, rfl⟩
  case inMemory =>
    intro m hm hfault
    exact State.TickAborts.step_status hrun hstep (.memory (refMemAborts_eq_some_iff.mpr ⟨m, hm, hfault, rfl⟩))
  case inExecute =>
    intro hok st hex
    exact State.TickAborts.step_status hrun hstep (.execute (refMemAborts_eq_none_iff.mpr hok) hex)
  case committed =>
    intro hok hex
    obtain ⟨D, st, hends, -, -⟩ | ⟨em, target, -, -, rfl⟩ := running_step_cases hrun hstep
    · exact absurd hends (not_tickAborts (refMemAborts_eq_none_iff.mpr hok) hex)
    · have hstatus := s.refCommitted_status em target
      split
      · next hdrained => exact hstatus.trans (if_pos hdrained)
      · next hbusy =>
        split
        · next hcap => exact hstatus.trans ((if_neg hbusy).trans (if_pos hcap))
        · next hcap => exact hstatus.trans ((if_neg hbusy).trans (if_neg hcap))

end Sys2Proof.Machine
end

