-- ==== Sys2Proof/Proofs/Forwarding.lean ====
section
/-! The Forwarding Unit (41_hazard_forwarding.md R150 to R154): which latch supplies an operand, and when a bundle supplies
none. -/

namespace Sys2Proof.Machine

variable {r : RegIdx} {v : Word} {exMem : Option ExMem} {memWb : Option MemWb} {m : ExMem} {w : MemWb}

/-- EX/MEM goes first: what it writes is its alu_result, or the missed hazard of a load (R150, R152). -/
theorem fwd_exMem_of_writes (hr : r ≠ 0#5) (hwrite : m.ctrl.regWrite = true) (hdest : m.dest = r) :
    fwd r v (some m) memWb = if m.ctrl.memRead then .defect else .value m.aluResult true := by
  simp [fwd, hr, hwrite, hdest]

/-- A bundle in EX/MEM that writes `r` only where `r` is register 0 counts as a bubble. -/
theorem fwd_exMem_of_not_writes (h : m.ctrl.regWrite = true → m.dest = r → r = 0#5) :
    fwd r v (some m) memWb = fwd r v none memWb := by
  by_cases hr : r = 0#5
  · rw [hr, fwd_zero, fwd_zero]
  · have hidle : ¬ (m.ctrl.regWrite = true ∧ m.dest = r) := fun hw => hr (h hw.1 hw.2)
    simp [fwd, hr, hidle]

theorem fwdMemWb_of_not_writes (h : ¬ (w.ctrl.regWrite = true ∧ w.dest = r)) :
    fwdMemWb r v (some w) = fwdMemWb r v none := by
  simp [fwdMemWb, h]

/-- A bundle in MEM/WB that writes `r` only where `r` is register 0 counts as a bubble, whatever EX/MEM holds. -/
theorem fwd_memWb_of_not_writes (h : w.ctrl.regWrite = true → w.dest = r → r = 0#5) :
    fwd r v exMem (some w) = fwd r v exMem none := by
  by_cases hr : r = 0#5
  · rw [hr, fwd_zero, fwd_zero]
  · have hidle : ¬ (w.ctrl.regWrite = true ∧ w.dest = r) := fun hw => hr (h hw.1 hw.2)
    cases exMem with
    | none => simp only [fwd, fwdMemWb_of_not_writes hidle]
    | some m => simp only [fwd, fwdMemWb_of_not_writes hidle]

theorem fwdMemWb_ne_defect : fwdMemWb r v memWb ≠ .defect := by
  cases memWb with
  | none => simp [fwdMemWb]
  | some w =>
    simp only [fwdMemWb]
    split <;> nofun

/-- The missed hazard of R150: EX/MEM holds a load of the register, which is not register 0. -/
theorem exMem_of_fwd_defect (h : fwd r v exMem memWb = .defect) :
    r ≠ 0#5 ∧ ∃ m, exMem = some m ∧ m.dest = r ∧ m.ctrl.memRead = true := by
  by_cases hr : r = 0#5
  · rw [hr, fwd_zero] at h
    cases h
  · cases exMem with
    | none => exact absurd (by simpa [fwd, hr] using h) fwdMemWb_ne_defect
    | some m =>
      by_cases hw : m.ctrl.regWrite = true ∧ m.dest = r
      · rw [fwd_exMem_of_writes hr hw.1 hw.2] at h
        exact ⟨hr, m, rfl, hw.2, by_contra fun hload => by simp [hload] at h⟩
      · exact absurd (by simpa [fwd, hr, hw] using h) fwdMemWb_ne_defect

/-- Settles O50: a bundle with destination 0 can write a register read in EX only where that is register 0. -/
theorem registerZeroIsNeverForwarded : Obligations.RegisterZeroIsNeverForwarded :=
  ⟨fwd_zero, fun _ _ _ _ hdest => fwd_exMem_of_not_writes fun _ hr => hr.symm.trans hdest,
    fun _ _ _ _ hdest => fwd_memWb_of_not_writes fun _ hr => hr.symm.trans hdest⟩

/-- Settles O51: what MEM/WB holds does not matter where EX/MEM writes the register. -/
theorem forwardingPrefersExMem : Obligations.ForwardingPrefersExMem :=
  fun _ _ _ _ hr hwrite hdest _ _ => fwd_exMem_of_writes hr hwrite hdest

/-- The table of 40_pipeline.md R109, its RegWrite column. -/
theorem ctrl_regWrite_iff (op : Op) : (ctrl op).regWrite = true ↔ op = .add ∨ op = .sub ∨ op = .lw := by
  cases op <;> decide

/-- Settles O52: the RegWrite column, and a bundle that writes no register writes none that EX reads. -/
theorem onlyRegisterWritersForward : Obligations.OnlyRegisterWritersForward := by
  refine ⟨ctrl_regWrite_iff, fun r v m memWb hidle => fwd_exMem_of_not_writes ?exMem,
    fun r v exMem w hidle => fwd_memWb_of_not_writes ?memWb⟩
  case exMem => intro hwrite; cases hidle.symm.trans hwrite
  case memWb => intro hwrite; cases hidle.symm.trans hwrite

end Sys2Proof.Machine
end

