-- ==== Sys2Proof/Proofs/HazardDefect.lean ====
section
/-! No hazard is missed (41_hazard_forwarding.md R159). `State.noMissedHazard` is inductive on its own: the load in EX/MEM of
the next cycle is in ID/EX now, the consumer of the next cycle is in IF/ID now, and the Hazard Unit holds the consumer back
in just that case. EX raises the defect only where `State.noMissedHazard` fails. -/

namespace Sys2Proof.Machine

variable {s t : State} {em : Option ExMem} {target : Option Nat}

/-! ### What the invariant excludes in EX -/

/-- The registers the Hazard Unit compares: rs, and rt but for `lw` (41_hazard_forwarding.md R140). -/
theorem mem_sources_iff {i : Instr} {r : RegIdx} :
    r ∈ sources i ↔ (r = i.rs ∨ i.op ≠ .lw ∧ r = i.rt) ∧ r ≠ 0#5 := by
  cases i <;> simp [sources, Instr.op]

theorem Operand.exists_value_of_ne_defect {o : Operand} (h : o ≠ .defect) : ∃ v f, o = .value v f := by
  cases o with
  | value v f => exact ⟨v, f, rfl⟩
  | defect => exact absurd rfl h

/-- With no missed hazard the Forwarding Unit has a value for every source of the instruction in EX. -/
theorem State.noMissedHazard.fwd_ne_defect (h : s.noMissedHazard) {e : IdEx} {r : RegIdx} {v : Word}
    (he : s.idEx = some e) (hr : r ≠ 0#5 → r ∈ sources e.instr) : fwd r v s.exMem s.memWb ≠ .defect := by
  intro hdefect
  obtain ⟨hr0, m, hm, rfl, hload⟩ := exMem_of_fwd_defect hdefect
  exact h e m he hm hload (hr hr0)

theorem State.noMissedHazard.refExecute_ne_hazardDefect (h : s.noMissedHazard) (c : Nat) :
    refExecute s ≠ .abort (.hazardDefect c) := by
  cases he : s.idEx with
  | none => simp [refExecute, he]
  | some e =>
    obtain ⟨a, fa, ha⟩ := Operand.exists_value_of_ne_defect
      (h.fwd_ne_defect (v := e.rsVal) he fun hr => mem_sources_iff.mpr ⟨.inl rfl, hr⟩)
    have hrt : (if e.instr.op = .lw then .value e.rtVal false else fwd e.instr.rt e.rtVal s.exMem s.memWb) ≠ .defect := by
      split
      · nofun
      · next hop => exact h.fwd_ne_defect he fun hr => mem_sources_iff.mpr ⟨.inr ⟨hop, rfl⟩, hr⟩
    obtain ⟨b, fb, hb⟩ := Operand.exists_value_of_ne_defect hrt
    rw [refExecute_of_values he ha hb]
    split
    · split <;> nofun
    · nofun

theorem State.TickAborts.of_hazardDefect {D : Memory} {c : Nat} (h : s.TickAborts D (.hazardDefect c)) :
    refExecute s = .abort (.hazardDefect c) := by
  cases h with
  | memory hmem =>
    obtain ⟨m, -, -, hst⟩ := refMemAborts_eq_some_iff.mp hmem
    cases hst
  | execute _ hex => exact hex

/-- A tick raises no HazardDefect where no hazard has been missed. -/
theorem State.noMissedHazard.step_status (h : s.noMissedHazard) (hrun : s.status = .running) (hstep : step s = .next t)
    (c : Nat) : t.status ≠ .hazardDefect c := by
  intro hst
  obtain ⟨D, hends, -⟩ := tickAborts_of_fatal hrun hstep (by rw [hst]; rfl)
  rw [hst] at hends
  exact h.refExecute_ne_hazardDefect c hends.of_hazardDefect

/-! ### Every step keeps it -/

/-- A load in ID/EX with a source of the instruction in IF/ID stalls it (41_hazard_forwarding.md R141). -/
theorem dest_not_mem_sources_of_hazard_false {i : Instr} {e : IdEx} {exMem : Option ExMem}
    (h : hazard i (some e) exMem = false) (hload : e.ctrl.memRead = true) : e.dest ∉ sources i := by
  have huse : loadUse i (some e) = false := (Bool.or_eq_false_iff.mp h).1
  simpa [loadUse, hload] using huse

/-- What ID leaves was in IF/ID and has not been stalled (40_pipeline.md R106). -/
theorem ifId_of_refDecode {X : Vector Word 32} {e : IdEx} (h : refDecode s X = some e) :
    ∃ d, s.ifId = some d ∧ hazard d.instr s.idEx s.exMem = false ∧ e = decodedBundle d.instr d X := by
  cases hd : s.ifId with
  | none => cases (refDecode_of_none hd).symm.trans h
  | some d =>
    rw [refDecode_of_some hd, refStall_of_some hd] at h
    split at h
    · cases h
    · next hz => exact ⟨d, rfl, by simpa using hz, (Option.some.inj h).symm⟩

/-- What EX leaves was in ID/EX, with the same control signals and destination (40_pipeline.md R113). -/
theorem idEx_of_refExecute_done {m : ExMem} (h : refExecute s = .done m target) :
    ∃ e, s.idEx = some e ∧ m.ctrl = e.ctrl ∧ m.dest = e.dest := by
  unfold refExecute at h
  split at h
  · cases h
  · next e he =>
    split at h
    · simp only at h
      split at h
      · split at h
        · cases h
        · cases h; exact ⟨e, he, rfl, rfl⟩
      · cases h; exact ⟨e, he, rfl, rfl⟩
    · cases h

theorem State.TickLatches.idEx_of_some {m : ExMem} (h : s.TickLatches (some m) target) :
    ∃ e, s.idEx = some e ∧ m.ctrl = e.ctrl ∧ m.dest = e.dest := by
  cases h with
  | done _ hex => exact idEx_of_refExecute_done hex

theorem refDecode_of_refCommitted_idEx {e : IdEx} (h : (s.refCommitted em target).idEx = some e) :
    refDecode s (refWriteBack s) = some e := by
  cases target with
  | none => exact h
  | some n => cases h

/-- A commit leaves no missed hazard, whatever the tick began with: the Hazard Unit has seen to it. -/
theorem State.TickLatches.noMissedHazard (h : s.TickLatches em target) : (s.refCommitted em target).noMissedHazard := by
  intro e m he hm hload
  obtain rfl : em = some m := hm
  obtain ⟨p, hp, hctrl, hdest⟩ := h.idEx_of_some
  obtain ⟨d, -, hnohazard, rfl⟩ := ifId_of_refDecode (refDecode_of_refCommitted_idEx he)
  rw [hp] at hnohazard
  rw [hctrl] at hload
  rw [hdest]
  exact dest_not_mem_sources_of_hazard_false hnohazard hload

theorem step_of_final (h : s.status ≠ .running) : step s = .next s := if_neg h

/-- An abort and a final status leave the latches; a commit leaves no missed hazard. -/
theorem State.noMissedHazard.of_step (h : s.noMissedHazard) (hstep : step s = .next t) : t.noMissedHazard := by
  by_cases hrun : s.status = .running
  · obtain ⟨D, st, -, -, rfl⟩ | ⟨em, target, hlatches, -, rfl⟩ := running_step_cases hrun hstep
    · exact h
    · exact hlatches.noMissedHazard
  · cases (step_of_final hrun).symm.trans hstep
    exact h

/-! ### Whole runs -/

/-- What every step keeps holds along a run. -/
theorem runState_keeps {P : State → Prop} (hkeeps : ∀ s t, P s → step s = .next t → P t) (k : Nat) (s : State) (h : P s) :
    P (runState k s) := by
  induction k generalizing s with
  | zero => exact h
  | succ k ih =>
    obtain ⟨t, ht⟩ := step_next s
    simp only [runState, ht]
    exact ih t (hkeeps s t h ht)

/-- No hazard has been missed, and none has been raised. -/
structure State.HazardFree (s : State) : Prop where
  noMissedHazard : s.noMissedHazard
  status : ∀ c, s.status ≠ .hazardDefect c

theorem State.HazardFree.of_step (h : s.HazardFree) (hstep : step s = .next t) : t.HazardFree where
  noMissedHazard := h.noMissedHazard.of_step hstep
  status := by
    by_cases hrun : s.status = .running
    · exact h.noMissedHazard.step_status hrun hstep
    · cases (step_of_final hrun).symm.trans hstep
      exact h.status

theorem State.noMissedHazard_of_bubble (h : s.idEx = none) : s.noMissedHazard := by
  intro e m he
  cases h.symm.trans he

@[simp] theorem State.launch_idEx (program : List Instr) (l : Launch) : (State.launch program l).idEx = none := rfl

@[simp] theorem State.launch_status (program : List Instr) (l : Launch) : (State.launch program l).status = .running := rfl

/-- A launch runs, with a bubble in every latch. -/
theorem State.launch_hazardFree (program : List Instr) (l : Launch) : (State.launch program l).HazardFree where
  noMissedHazard := State.noMissedHazard_of_bubble (State.launch_idEx program l)
  status c := by
    rw [State.launch_status]
    nofun

/-- Settles O56: the invariant keeps EX from raising the defect; along a run from a launch, the part of it that is needed
holds at every step. -/
theorem hazardDefectIsUnreachable : Obligations.HazardDefectIsUnreachable :=
  ⟨fun _ _ hinv hrun hstep => hinv.noMissedHazard.step_status hrun hstep,
    fun program l k c _ =>
      (runState_keeps (fun _ _ h => h.of_step) k _ (State.launch_hazardFree program l)).status c⟩

end Sys2Proof.Machine
end

