-- ==== Sys2Proof/Proofs/BranchFlush.lean ====
section
/-! The flush of a taken branch (44_branch.md R193): it decides the commit alone, whatever stall and fetch the tick had. -/

namespace Sys2Proof.Machine

variable {s : State} {em : Option ExMem} {target : Option Nat} {n : Nat}

/-! ### What the older stages leave -/

theorem State.retiredRegs_of_none (h : s.memWb = none) : s.retiredRegs = s.x := by simp [State.retiredRegs, h]

theorem State.retiredRegs_of_some {w : MemWb} (h : s.memWb = some w) : s.retiredRegs = writtenBack w s.x := by
  simp [State.retiredRegs, h]

/-- The WB lines of R100 retire the bundle in MEM/WB. -/
theorem refWriteBack_eq_retiredRegs (s : State) : refWriteBack s = s.retiredRegs := by
  cases hw : s.memWb with
  | none => rw [refWriteBack_of_none hw, State.retiredRegs_of_none hw]
  | some w => rw [refWriteBack_of_some hw, State.retiredRegs_of_some hw]

/-- MW' is the bundle in EX/MEM after its access. -/
theorem refMemory_snd (s : State) : (refMemory s).2 = s.exMem.map fun m => accessedBundle m.instr m s.dmem := by
  cases hm : s.exMem with
  | none => rw [refMemory_of_none hm, Option.map_none]
  | some m => rw [refMemory_of_some hm, Option.map_some]

theorem State.refCommitted_x (s : State) (em : Option ExMem) (target : Option Nat) :
    (s.refCommitted em target).x = s.retiredRegs := refWriteBack_eq_retiredRegs s

theorem State.refCommitted_memWb (s : State) (em : Option ExMem) (target : Option Nat) :
    (s.refCommitted em target).memWb = s.exMem.map fun m => accessedBundle m.instr m s.dmem := refMemory_snd s

theorem State.refCommitted_dmem_of_none (h : s.exMem = none) : (s.refCommitted em target).dmem = s.dmem :=
  congrArg Prod.fst (refMemory_of_none h)

theorem State.refCommitted_dmem_of_some {m : ExMem} (h : s.exMem = some m) :
    (s.refCommitted em target).dmem = accessedMemory m s.dmem := congrArg Prod.fst (refMemory_of_some h)

/-! ### The flush -/

theorem State.refCommitted_ifId_of_flush : (s.refCommitted em (some n)).ifId = none := rfl

theorem State.refCommitted_idEx_of_flush : (s.refCommitted em (some n)).idEx = none := rfl

theorem State.refCommitted_pc_of_flush : (s.refCommitted em (some n)).pc = n := rfl

/-- A flush counts no stall, for it overrides the one of its cycle. -/
theorem State.refCommitted_stallCount_of_flush : (s.refCommitted em (some n)).stallCount = s.stallCount := by
  simp [State.refCommitted, refCommit]

/-! ### The taken branch -/

/-- Equal operands leave `beq` a difference of 0. -/
theorem alu_beq_self (a : Word) (imm : Imm) : alu .beq a (secondOperand (ctrl .beq) imm a) = 0#32 := BitVec.sub_self a

/-- EX of a `beq` with equal operands and a target that is not negative: its bundle and the redirected pc
(44_branch.md R190, R192). -/
theorem refExecute_of_taken_beq {e : IdEx} {a : Word} {fa fb : Bool} (he : s.idEx = some e) (hop : e.instr.op = .beq)
    (hctrl : e.ctrl = ctrl .beq) (ha : fwd e.instr.rs e.rsVal s.exMem s.memWb = .value a fa)
    (hb : fwd e.instr.rt e.rtVal s.exMem s.memWb = .value a fb) (hpos : 0 ≤ (e.pidx : Int) + 1 + e.instr.imm.toInt) :
    refExecute s =
      .done (executedBundle e.instr e 0#32 a fa fb) (some ((e.pidx : Int) + 1 + e.instr.imm.toInt).toNat) := by
  have hrt : (if e.instr.op = .lw then .value e.rtVal false else fwd e.instr.rt e.rtVal s.exMem s.memWb) = .value a fb := by
    rw [hop]
    exact hb
  have hbranch : e.ctrl.branch = true := by rw [hctrl]; rfl
  rw [refExecute_of_values he ha hrt, if_pos ⟨hbranch, rfl⟩, if_neg (Int.not_lt.mpr hpos), hop, hctrl, alu_beq_self]

/-- Settles O44: no error ends the tick, and a commit with a redirected pc reads neither the fetch nor the decode nor the
stall of its cycle. -/
theorem takenBranchFlushes : Obligations.TakenBranchFlushes := by
  intro s e a fa fb hrun he hop hctrl ha hb hpos hok
  have hlatches := State.TickLatches.done (refMemAborts_eq_none_iff.mpr hok)
    (refExecute_of_taken_beq he hop hctrl ha hb hpos)
  refine ⟨_, step_of_tickLatches hrun hlatches, State.refCommitted_ifId_of_flush, State.refCommitted_idEx_of_flush, ?pc,
    State.refCommitted_stallCount_of_flush, s.refCommitted_x _ _, rfl, s.refCommitted_memWb _ _, ?dmem⟩
  case pc =>
    rw [State.refCommitted_pc_of_flush]
    exact Int.toNat_of_nonneg hpos
  case dmem =>
    split
    · next hm => exact State.refCommitted_dmem_of_none hm
    · next m hm => exact State.refCommitted_dmem_of_some hm

end Sys2Proof.Machine
end

