-- ==== Sys2Proof/Proofs/FinalStatus.lean ====
section
/-! A run that has ended stays as it is until reset (60_exceptions.md R218). -/

namespace Sys2Proof.Machine

@[simp] theorem clockEdge_noReset (s : State) : clockEdge none s = step s := rfl

/-- Settles O16: with `rst = 0` the edge is the step, which a final status leaves idle; only a reset, which does not look at
the old status, starts a run again. -/
theorem finalStatusIsQuiescent : Obligations.FinalStatusIsQuiescent := by
  intro s hfinal
  constructor
  · rw [clockEdge_noReset, step_of_final hfinal]
  · intro l
    exact ⟨s.resetWith l, clockEdge_reset l s, State.resetWith_status s l⟩

end Sys2Proof.Machine
end

