-- ==== Sys2Proof/Proofs/EmptyProgram.lean ====
section
/-! The run of the empty program (70_reset_and_hazards.md R234). -/

namespace Sys2Proof.Machine

/-- Settles O12: MEM and EX hold bubbles, so the tick goes on to the commit, which finds the pc at N = 0 and nothing fetched. -/
theorem emptyProgramTerminatesInOneCycle : Obligations.EmptyProgramTerminatesInOneCycle := by
  intro l
  have hlatches : (State.launch [] l).TickLatches none none := .bubble rfl rfl
  exact step_of_tickLatches rfl hlatches

end Sys2Proof.Machine
end

