-- ==== Sys2Proof/Proofs/Commit.lean ====
section
/-! What a commit leaves, field by field, and the statuses it can give (40_pipeline.md R100, R127 to R129). -/

namespace Sys2Proof.Machine

variable {s t : State} {em : Option ExMem} {target : Option Nat}

/-! ### The fields -/

@[simp] theorem State.refCommitted_program : (s.refCommitted em target).program = s.program := rfl

@[simp] theorem State.refCommitted_progLen : (s.refCommitted em target).progLen = s.progLen := rfl

@[simp] theorem State.refCommitted_dmemBytes : (s.refCommitted em target).dmemBytes = s.dmemBytes := rfl

@[simp] theorem State.refCommitted_exMem : (s.refCommitted em target).exMem = em := rfl

@[simp] theorem State.refCommitted_cycleCount : (s.refCommitted em target).cycleCount = s.cycleCount + 1 := rfl

theorem State.refCommitted_dmem : (s.refCommitted em target).dmem = (refMemory s).1 := rfl

theorem State.refCommitted_ifId_of_no_flush : (s.refCommitted em none).ifId = (refFetch s).1 := rfl

theorem State.refCommitted_idEx_of_no_flush : (s.refCommitted em none).idEx = refDecode s (refWriteBack s) := rfl

theorem State.refCommitted_pc_of_no_flush : (s.refCommitted em none).pc = (refFetch s).2 := rfl

theorem State.refCommitted_stallCount (s : State) (em : Option ExMem) (target : Option Nat) :
    (s.refCommitted em target).stallCount = s.stallCount + (if refStall s ∧ target = none then 1 else 0) := rfl

theorem State.refCommitted_memWb_isSome : (s.refCommitted em target).memWb.isSome = s.exMem.isSome := by
  rw [State.refCommitted_memWb, Option.isSome_map]

/-- No step changes the program or the sizes a run was launched with (10_state.md R38). -/
theorem step_frame (h : step s = .next t) :
    t.program = s.program ∧ t.dmemBytes = s.dmemBytes ∧ t.maxCycles = s.maxCycles := by
  by_cases hrun : s.status = .running
  · obtain ⟨D, st, -, -, rfl⟩ | ⟨em, target, -, -, rfl⟩ := running_step_cases hrun h
    · exact ⟨rfl, rfl, rfl⟩
    · exact ⟨rfl, rfl, rfl⟩
  · cases (step_of_final hrun).symm.trans h
    exact ⟨rfl, rfl, rfl⟩

/-! ### What EX hands on -/

/-- The bundle EX leaves is the one of ID/EX, and only a branch redirects the pc (40_pipeline.md R113, R115). -/
theorem refExecute_done {m : ExMem} (h : refExecute s = .done m target) :
    ∃ e, s.idEx = some e ∧ m.instr = e.instr ∧ m.pidx = e.pidx ∧ m.ctrl = e.ctrl ∧ m.dest = e.dest ∧
      (target.isSome = true → e.ctrl.branch = true) := by
  unfold refExecute at h
  split at h
  · cases h
  · next e he =>
    split at h
    · simp only at h
      split at h
      · next htaken =>
        split at h
        · cases h
        · cases h; exact ⟨e, he, rfl, rfl, rfl, rfl, fun _ => htaken.1⟩
      · cases h; exact ⟨e, he, rfl, rfl, rfl, rfl, nofun⟩
    · cases h

theorem idEx_of_refExecute_bubble (h : refExecute s = .bubble) : s.idEx = none := by
  unfold refExecute at h
  split at h
  · next he => exact he
  · split at h
    · simp only at h
      split at h
      · split at h <;> cases h
      · cases h
    · cases h

/-- A bubble goes through EX as a bubble, and an instruction as an instruction (10_state.md R30). -/
theorem State.TickLatches.isSome_eq (h : s.TickLatches em target) : em.isSome = s.idEx.isSome := by
  cases h with
  | bubble _ hex => rw [idEx_of_refExecute_bubble hex]; rfl
  | done _ hex =>
    obtain ⟨e, he, -⟩ := refExecute_done hex
    rw [he]; rfl

/-- A flush is that of a branch in EX (44_branch.md R193). -/
theorem State.TickLatches.branch_of_flush {n : Nat} (h : s.TickLatches em (some n)) :
    ∃ e, s.idEx = some e ∧ e.ctrl.branch = true := by
  cases h with
  | done _ hex =>
    obtain ⟨e, he, -, -, -, -, hbranch⟩ := refExecute_done hex
    exact ⟨e, he, hbranch rfl⟩

/-! ### The status -/

/-- Nothing is left to fetch and no instruction is in flight: the end of a run (40_pipeline.md R127). -/
structure State.RanOut (s : State) : Prop where
  pc : s.progLen ≤ s.pc
  ifId : s.ifId = none
  idEx : s.idEx = none
  exMem : s.exMem = none
  memWb : s.memWb = none

theorem State.ranOut_iff :
    s.RanOut ↔ s.progLen ≤ s.pc ∧ s.ifId = none ∧ s.idEx = none ∧ s.exMem = none ∧ s.memWb = none :=
  ⟨fun h => ⟨h.pc, h.ifId, h.idEx, h.exMem, h.memWb⟩, fun ⟨hpc, hif, hid, hex, hmem⟩ => ⟨hpc, hif, hid, hex, hmem⟩⟩

/-- The three ends of a commit. -/
theorem State.refCommitted_status_cases (s : State) (em : Option ExMem) (target : Option Nat) :
    ((s.refCommitted em target).RanOut ∧ (s.refCommitted em target).status = .terminated) ∨
    (¬ (s.refCommitted em target).RanOut ∧ s.maxCycles ≤ s.cycle ∧ (s.refCommitted em target).status = .overrun s.cycle) ∨
    (¬ (s.refCommitted em target).RanOut ∧ s.cycle < s.maxCycles ∧ (s.refCommitted em target).status = .running) := by
  have hst := s.refCommitted_status em target
  simp only [State.ranOut_iff]
  split at hst
  · next hout => exact .inl ⟨hout, hst⟩
  · next hout =>
    split at hst
    · next hcap => exact .inr (.inl ⟨hout, hcap, hst⟩)
    · next hcap => exact .inr (.inr ⟨hout, Nat.lt_of_not_le hcap, hst⟩)

/-- A run that goes on has something left to do and the watchdog ahead of it. -/
theorem State.refCommitted_running (h : (s.refCommitted em target).status = .running) :
    ¬ (s.refCommitted em target).RanOut ∧ s.cycle < s.maxCycles := by
  obtain ⟨-, hst⟩ | ⟨-, -, hst⟩ | ⟨hout, hcap, -⟩ := s.refCommitted_status_cases em target
  · cases hst.symm.trans h
  · cases hst.symm.trans h
  · exact ⟨hout, hcap⟩

theorem State.refCommitted_terminated (h : (s.refCommitted em target).status = .terminated) :
    (s.refCommitted em target).RanOut := by
  obtain ⟨hout, -⟩ | ⟨-, -, hst⟩ | ⟨-, -, hst⟩ := s.refCommitted_status_cases em target
  · exact hout
  · cases hst.symm.trans h
  · cases hst.symm.trans h

end Sys2Proof.Machine
end

