-- ==== Sys2Proof/Proofs/Runs.lean ====
section
/-! Whole runs: a run one step longer, a run in two parts, and a run that has ended. -/

namespace Sys2Proof.Machine

variable {s t : State}

theorem runState_succ_of_step (k : Nat) (h : step s = .next t) : runState (k + 1) s = runState k t := by
  simp only [runState, h]

/-- The step a run takes last. -/
theorem step_runState (k : Nat) (s : State) : step (runState k s) = .next (runState (k + 1) s) := by
  induction k generalizing s with
  | zero =>
    obtain ⟨t, ht⟩ := step_next s
    rw [runState_succ_of_step 0 ht]
    exact ht
  | succ k ih =>
    obtain ⟨t, ht⟩ := step_next s
    rw [runState_succ_of_step k ht, runState_succ_of_step (k + 1) ht]
    exact ih t

theorem runState_add (k n : Nat) (s : State) : runState (k + n) s = runState n (runState k s) := by
  induction k generalizing s with
  | zero => rw [Nat.zero_add]; rfl
  | succ k ih =>
    obtain ⟨t, ht⟩ := step_next s
    rw [Nat.add_right_comm, runState_succ_of_step (k + n) ht, runState_succ_of_step k ht, ih t]

/-- A run that has ended stays where it is (60_exceptions.md R218). -/
theorem runState_of_final (h : s.status ≠ .running) (k : Nat) : runState k s = s := by
  induction k with
  | zero => rfl
  | succ k ih => rw [runState_succ_of_step k (step_of_final h), ih]

/-- A run that has ended by one step is the same at every later one. -/
theorem runState_eq_of_final {j k : Nat} (hjk : j ≤ k) (h : (runState j s).status ≠ .running) :
    runState k s = runState j s := by
  obtain ⟨n, rfl⟩ := Nat.exists_eq_add_of_le hjk
  rw [runState_add, runState_of_final h]

theorem running_of_le {j k : Nat} (hjk : j ≤ k) (h : (runState k s).status = .running) : (runState j s).status = .running := by
  by_contra hfinal
  rw [runState_eq_of_final hjk hfinal] at h
  exact hfinal h

/-- The program and the sizes stay those of the launch along a run. -/
theorem runState_launch_frame (program : List Instr) (l : Launch) (k : Nat) :
    (runState k (State.launch program l)).program = program ∧
      (runState k (State.launch program l)).dmemBytes = l.dmemBytes ∧
      (runState k (State.launch program l)).maxCycles = l.maxCycles := by
  refine runState_keeps (P := fun u => u.program = program ∧ u.dmemBytes = l.dmemBytes ∧ u.maxCycles = l.maxCycles)
    ?_ k _ ⟨rfl, rfl, rfl⟩
  intro u t hu hstep
  obtain ⟨hprogram, hbytes, hcap⟩ := step_frame hstep
  rw [hprogram, hbytes, hcap]
  exact hu

end Sys2Proof.Machine
end

