-- ==== Sys2Proof/Proofs/Watchdog.lean ====
section
/-! The watchdog (70_reset_and_hazards.md R243). A run that goes on has counted one cycle a step, and the count is below the
cap. Up to its cap a run is the one under any other cap that has not ended by then, as the cap is read by the last line of
R100 alone. -/

namespace Sys2Proof.Machine

variable {s t : State} {program : List Instr} {l : Launch}

/-! ### The cycles of a run -/

/-- `k` steps after a launch, no more cycles are counted than steps; a run that goes on has counted one each. -/
structure State.CountsSteps (k : Nat) (s : State) : Prop where
  le_steps : s.cycleCount ≤ k
  running : s.status = .running → s.cycleCount = k

theorem State.CountsSteps.of_step {k : Nat} (h : s.CountsSteps k) (hstep : step s = .next t) : t.CountsSteps (k + 1) := by
  by_cases hrun : s.status = .running
  · have hk : s.cycleCount = k := h.running hrun
    have hcount : t.cycleCount = s.cycleCount + 1 := (cycleCountRisesByOne s t hrun hstep).1
    exact ⟨by omega, fun _ => by omega⟩
  · cases (step_of_final hrun).symm.trans hstep
    exact ⟨Nat.le_succ_of_le h.le_steps, fun ht => absurd ht hrun⟩

theorem runState_countsSteps (program : List Instr) (l : Launch) (k : Nat) :
    (runState k (State.launch program l)).CountsSteps k := by
  induction k with
  | zero => exact ⟨Nat.le_refl 0, fun _ => rfl⟩
  | succ k ih => exact ih.of_step (step_runState k _)

/-- The count never passes the cap, and stays below it while the run goes on (40_pipeline.md R128). -/
structure State.BelowCap (s : State) : Prop where
  le_cap : s.cycleCount ≤ s.maxCycles
  running : s.status = .running → s.cycleCount < s.maxCycles

theorem State.BelowCap.of_step (h : s.BelowCap) (hstep : step s = .next t) : t.BelowCap := by
  by_cases hrun : s.status = .running
  · have hlt : s.cycleCount < s.maxCycles := h.running hrun
    have hcount : t.cycleCount = s.cycleCount + 1 := (cycleCountRisesByOne s t hrun hstep).1
    obtain ⟨-, -, hcap⟩ := step_frame hstep
    refine ⟨by omega, fun ht => ?_⟩
    obtain ⟨D, st, hends, -, rfl⟩ | ⟨em, target, -, -, rfl⟩ := running_step_cases hrun hstep
    · exact absurd ht (Status.ne_running_of_fatal hends.status.1)
    · exact (State.refCommitted_running ht).2
  · cases (step_of_final hrun).symm.trans hstep
    exact h

theorem Launch.one_le_maxCycles (hl : l.wellFormed = true) : 1 ≤ l.maxCycles := by
  simp only [Launch.wellFormed, Sys2Proof.paramsOk, Bool.and_eq_true, decide_eq_true_eq] at hl
  exact hl.2

theorem runState_belowCap (program : List Instr) (hl : l.wellFormed = true) (k : Nat) :
    (runState k (State.launch program l)).BelowCap :=
  runState_keeps (fun _ _ h => h.of_step) k _ ⟨Nat.zero_le _, fun _ => Launch.one_le_maxCycles hl⟩

/-- A run is over within as many steps as the cap has cycles. -/
theorem runState_maxCycles_final (program : List Instr) (hl : l.wellFormed = true) :
    (runState l.maxCycles (State.launch program l)).status ≠ .running := by
  intro hrun
  have hcount := (runState_countsSteps program l l.maxCycles).running hrun
  have hlt := (runState_belowCap program hl l.maxCycles).running hrun
  obtain ⟨-, -, hcap⟩ := runState_launch_frame program l l.maxCycles
  rw [hcount, hcap] at hlt
  exact Nat.lt_irrefl _ hlt

/-! ### The same run under another cap -/

/-- The state with another cap. -/
def State.withCap (s : State) (cap : Nat) : State := { s with maxCycles := cap }

/-- MEM and EX do not read the cap. -/
theorem State.TickLatches.withCap {em : Option ExMem} {target : Option Nat} (h : s.TickLatches em target) (cap : Nat) :
    (s.withCap cap).TickLatches em target := by
  cases h with
  | bubble hmem hex => exact .bubble hmem hex
  | done hmem hex => exact .done hmem hex

/-- A commit that does not end the run is, under another cap, the same commit or the watchdog. -/
theorem State.refCommitted_withCap {em : Option ExMem} {target : Option Nat} (hbusy : ¬ (s.refCommitted em target).RanOut)
    (cap : Nat) :
    (s.withCap cap).refCommitted em target =
      { (s.refCommitted em target).withCap cap with
        status := if cap ≤ s.cycle then .overrun s.cycle else .running } := by
  have hst : ((s.withCap cap).refCommitted em target).status = if cap ≤ s.cycle then .overrun s.cycle else .running :=
    ((s.withCap cap).refCommitted_status em target).trans (if_neg (mt State.ranOut_iff.mpr hbusy))
  rw [← hst]
  rfl

/-- A tick that does not end the run is, under another cap, the same tick or the watchdog. -/
theorem step_withCap (hrun : s.status = .running) (hstep : step s = .next t) (ht : t.status = .running) (cap : Nat) :
    step (s.withCap cap) =
      .next { t.withCap cap with status := if cap ≤ t.cycleCount then .overrun t.cycleCount else .running } := by
  obtain ⟨D, st, hends, -, rfl⟩ | ⟨em, target, hlatches, -, rfl⟩ := running_step_cases hrun hstep
  · exact absurd ht (Status.ne_running_of_fatal hends.status.1)
  · have hrun' : (s.withCap cap).status = .running := hrun
    rw [step_of_tickLatches hrun' (hlatches.withCap cap), State.refCommitted_withCap (State.refCommitted_running ht).1]
    rfl

/-- Ahead of both caps a run is the same under either. -/
theorem runState_withCap {k cap : Nat} (hrun : (runState k (State.launch program l)).status = .running) (hk : k < cap) :
    runState k ((State.launch program l).withCap cap) = (runState k (State.launch program l)).withCap cap := by
  induction k with
  | zero => rfl
  | succ k ih =>
    have hbefore := running_of_le (Nat.le_succ k) hrun
    have hcount := (runState_countsSteps program l (k + 1)).running hrun
    have hstep := step_runState k ((State.launch program l).withCap cap)
    rw [ih hbefore (by omega), step_withCap hbefore (step_runState k _) hrun, hcount, if_neg (by omega)] at hstep
    refine (Host.Outcome.next.inj hstep).symm.trans ?_
    rw [← hrun]
    rfl

/-- A run that another cap lets go on past `cap` ends there by the watchdog. -/
theorem runState_withCap_overrun {cap : Nat} (hcap : 1 ≤ cap)
    (hrun : (runState cap (State.launch program l)).status = .running) :
    runState cap ((State.launch program l).withCap cap) =
      { (runState cap (State.launch program l)).withCap cap with status := .overrun cap } := by
  obtain ⟨k, rfl⟩ := Nat.exists_eq_add_of_le' hcap
  have hbefore := running_of_le (Nat.le_succ k) hrun
  have hcount := (runState_countsSteps program l (k + 1)).running hrun
  have hstep := step_runState k ((State.launch program l).withCap (k + 1))
  rw [runState_withCap hbefore (Nat.lt_succ_self k), step_withCap hbefore (step_runState k _) hrun, hcount,
    if_pos (Nat.le_refl _)] at hstep
  exact (Host.Outcome.next.inj hstep).symm

/-- A run that has counted more than `n` cycles at any step was still going on at step `n`. -/
theorem running_of_lt_cycleCount {n k : Nat} (h : n < (runState k (State.launch program l)).cycleCount) :
    (runState n (State.launch program l)).status = .running := by
  by_contra hfinal
  have hk := (runState_countsSteps program l k).le_steps
  have hn := (runState_countsSteps program l n).le_steps
  rw [runState_eq_of_final (by omega) hfinal] at h
  omega

/-- Settles O60: the count of a run that goes on is both the number of steps and below the cap; a run that terminates later
under another cap is still going on at this one. -/
theorem watchdogBoundsEveryRun : Obligations.WatchdogBoundsEveryRun := by
  intro program l hl
  refine ⟨decide_eq_true (runState_maxCycles_final program hl), fun k => ?bounded, fun cap k _ hlater => ?overrun⟩
  case bounded =>
    obtain ⟨-, -, hcap⟩ := runState_launch_frame program l k
    exact (runState_belowCap program hl k).le_cap.trans_eq hcap
  case overrun => exact runState_withCap_overrun (Launch.one_le_maxCycles hl) (running_of_lt_cycleCount hlater)

end Sys2Proof.Machine
end

