-- ==== Sys2Proof/Proofs/InvariantKept.lean ====
section
/-! The invariant of the core along a run: a launch meets it and every step keeps it. A commit is taken latch by latch, as
each latch is filled from the one before it (40_pipeline.md R100); an abort keeps the latches. -/

namespace Sys2Proof.Machine

variable {s t : State} {D : Memory} {st : Status} {em : Option ExMem} {target : Option Nat}

/-! ### What IF and ID leave -/

/-- A stall is that of the instruction in IF/ID. -/
theorem ifId_of_refStall (h : refStall s = true) : ∃ d, s.ifId = some d := by
  cases hd : s.ifId with
  | none => cases (refStall_of_none hd).symm.trans h
  | some d => exact ⟨d, rfl⟩

/-- IF leaves the bundle of IF/ID where ID stalls, and else the record at the pc (40_pipeline.md R103;
41_hazard_forwarding.md R145). -/
theorem ifId_of_refFetch {d : IfId} (h : (refFetch s).1 = some d) :
    (refStall s = true ∧ (refFetch s).2 = s.pc ∧
      ∃ d₀, s.ifId = some d₀ ∧ d.instr = d₀.instr ∧ d.pidx = d₀.pidx) ∨
    (refStall s = false ∧ (refFetch s).2 = s.pc + 1 ∧ s.program[s.pc]? = some d.instr ∧ d.pidx = s.pc) := by
  cases hr : refStall s with
  | true =>
    rw [refFetch_of_stall hr] at h ⊢
    obtain ⟨d₀, hd₀, rfl⟩ := Option.map_eq_some_iff.mp h
    exact .inl ⟨rfl, rfl, d₀, hd₀, rfl, rfl⟩
  | false =>
    cases hi : s.program[s.pc]? with
    | none =>
      rw [refFetch_of_exhausted hr (List.getElem?_eq_none_iff.mp hi)] at h
      cases h
    | some i =>
      rw [refFetch_of_some hr hi] at h ⊢
      cases h
      exact .inr ⟨rfl, rfl, rfl, rfl⟩

/-- IF leaves a bubble only where the pc is exhausted, and then keeps the pc (40_pipeline.md R104). -/
theorem refFetch_of_bubble (h : (refFetch s).1 = none) : s.progLen ≤ s.pc ∧ (refFetch s).2 = s.pc := by
  cases hr : refStall s with
  | true =>
    obtain ⟨d, hd⟩ := ifId_of_refStall hr
    rw [refFetch_of_stall hr, hd] at h
    cases h
  | false =>
    cases hi : s.program[s.pc]? with
    | none =>
      have hexhausted : s.progLen ≤ s.pc := List.getElem?_eq_none_iff.mp hi
      exact ⟨hexhausted, by rw [refFetch_of_exhausted hr hexhausted]⟩
    | some i =>
      rw [refFetch_of_some hr hi] at h
      cases h

/-- A latch behind the branch that a flush empties holds something only where there is no flush. -/
theorem State.no_flush_of_ifId {d : IfId} (h : (s.refCommitted em target).ifId = some d) :
    target = none ∧ (refFetch s).1 = some d := by
  cases target with
  | none => exact ⟨rfl, h⟩
  | some n => cases h

theorem State.no_flush_of_idEx {e : IdEx} (h : (s.refCommitted em target).idEx = some e) :
    target = none ∧ ∃ d, s.ifId = some d ∧ refStall s = false ∧ e = decodedBundle d.instr d s.retiredRegs := by
  cases target with
  | none =>
    obtain ⟨d, hd, hz, he⟩ := ifId_of_refDecode (State.refCommitted_idEx_of_no_flush.symm.trans h)
    exact ⟨rfl, d, hd, (refStall_of_some hd).trans hz, refWriteBack_eq_retiredRegs s ▸ he⟩
  | some n => cases h

/-! ### A commit keeps the invariant, latch by latch -/

theorem State.retiredRegs_getElem_zero (s : State) : s.retiredRegs[0] = s.x[0] := by
  cases hw : s.memWb with
  | none => rw [State.retiredRegs_of_none hw]
  | some w => rw [State.retiredRegs_of_some hw]; exact writtenBack_getElem_zero w s.x

/-- The store of MEM past the address check keeps data memory canonical and in range. -/
theorem State.memoryOk.refMemory (h : s.memoryOk) (hmem : refMemAborts s = none) :
    (refMemory s).1.wf = true ∧ (refMemory s).1.inRange s.dmemBytes = true := by
  cases hm : s.exMem with
  | none => rw [refMemory_of_none hm]; exact h
  | some m => rw [refMemory_of_some hm]; exact accessedMemory_ok (refMemAborts_eq_none_iff.mp hmem m hm) h

theorem State.ifIdOk.refCommitted (h : s.ifIdOk) : (s.refCommitted em target).ifIdOk := by
  intro d hd
  obtain ⟨rfl, hd⟩ := State.no_flush_of_ifId hd
  rw [State.refCommitted_program, State.refCommitted_pc_of_no_flush]
  obtain ⟨-, hpc, d₀, hd₀, hinstr, hpidx⟩ | ⟨-, hpc, hi, hpidx⟩ := ifId_of_refFetch hd
  · rw [hpc, hinstr, hpidx]
    exact h d₀ hd₀
  · rw [hpc, hpidx]
    exact ⟨hi, rfl⟩

theorem State.ifIdOk.refCommitted_idEx (h : s.ifIdOk) : (s.refCommitted em target).idExOk := by
  intro e he
  obtain ⟨rfl, d, hd, hstall, rfl⟩ := State.no_flush_of_idEx he
  obtain ⟨hrecord, hpc⟩ := h d hd
  rw [State.refCommitted_ifId_of_no_flush, State.refCommitted_pc_of_no_flush]
  refine ⟨hrecord, rfl, rfl, fun d' hd' => ?_, fun hnone => ?_⟩
  · obtain ⟨htrue, -⟩ | ⟨-, -, -, hpidx⟩ := ifId_of_refFetch hd'
    · cases hstall.symm.trans htrue
    · exact hpidx.trans hpc
  · exact (refFetch_of_bubble hnone).2.trans hpc

theorem State.TickLatches.exMemOk (hlatches : s.TickLatches em target) (h : s.idExOk) : (s.refCommitted em target).exMemOk := by
  intro m hm
  obtain rfl : em = some m := hm
  cases hlatches with
  | done _ hex =>
    obtain ⟨e, he, hinstr, hpidx, hctrl, hdest, -⟩ := refExecute_done hex
    obtain ⟨hrecord, hctrlOk, hdestOk, -⟩ := h e he
    rw [hinstr, hpidx, hctrl, hdest]
    exact ⟨hrecord, hctrlOk, hdestOk⟩

theorem State.exMemOk.refCommitted_memWb (h : s.exMemOk) : (s.refCommitted em target).memWbOk := by
  intro w hw
  rw [State.refCommitted_memWb] at hw
  obtain ⟨m, hm, rfl⟩ := Option.map_eq_some_iff.mp hw
  exact h m hm

theorem State.refCommitted_operandsFresh : (s.refCommitted em target).operandsFresh := by
  intro _ e he
  obtain ⟨-, d, -, -, rfl⟩ := State.no_flush_of_idEx he
  rw [State.refCommitted_x]
  exact ⟨rfl, rfl⟩

theorem State.countersOk.refCommitted (h : s.countersOk) : (s.refCommitted em target).countersOk := by
  obtain ⟨-, hstalls⟩ := h
  refine ⟨fun hrun => (State.refCommitted_running hrun).2, ?_⟩
  rw [State.refCommitted_stallCount, State.refCommitted_cycleCount]
  split <;> omega

theorem State.Inv.refCommitted (h : s.Inv) (hlatches : s.TickLatches em target) : (s.refCommitted em target).Inv where
  regZero := by rw [State.refCommitted_x, State.retiredRegs_getElem_zero]; exact h.regZero
  memory := h.memory.refMemory hlatches.memory
  params := h.params
  ifId := h.ifId.refCommitted
  idEx := h.ifId.refCommitted_idEx
  exMem := hlatches.exMemOk h.idEx
  memWb := h.exMem.refCommitted_memWb
  noMissedHazard := hlatches.noMissedHazard
  operandsFresh := State.refCommitted_operandsFresh
  counters := h.counters.refCommitted
  resting := rfl

/-! ### An abort keeps the invariant -/

theorem State.TickAborts.memoryOk (hends : s.TickAborts D st) (h : s.memoryOk) :
    D.wf = true ∧ D.inRange s.dmemBytes = true := by
  cases hends with
  | memory _ => exact h
  | execute hmem _ => exact h.refMemory hmem

/-- The latches keep their values, and what the invariant asks of a run that goes on falls away (60_exceptions.md R217). -/
theorem State.Inv.refAbort (h : s.Inv) (hends : s.TickAborts D st) : (refAbort s (refWriteBack s) D st).Inv where
  regZero := by
    change (refWriteBack s)[0] = 0#32
    rw [refWriteBack_eq_retiredRegs, State.retiredRegs_getElem_zero]
    exact h.regZero
  memory := hends.memoryOk h.memory
  params := h.params
  ifId := h.ifId
  idEx := h.idEx
  exMem := h.exMem
  memWb := h.memWb
  noMissedHazard := h.noMissedHazard
  operandsFresh hrun := absurd hrun (Status.ne_running_of_fatal hends.status.1)
  counters := ⟨fun hrun => absurd hrun (Status.ne_running_of_fatal hends.status.1), Nat.le_succ_of_le h.counters.2⟩
  resting := rfl

/-! ### Runs -/

theorem State.Inv.of_step (h : s.Inv) (hstep : step s = .next t) : t.Inv := by
  by_cases hrun : s.status = .running
  · obtain ⟨D, st, hends, -, rfl⟩ | ⟨em, target, hlatches, -, rfl⟩ := running_step_cases hrun hstep
    · exact h.refAbort hends
    · exact h.refCommitted hlatches
  · cases (step_of_final hrun).symm.trans hstep
    exact h

/-- A launch has a bubble in every latch, so only its registers, its data memory and its parameters count. -/
theorem State.launch_inv (program : List Instr) {l : Launch} (hl : l.wellFormed = true) : (State.launch program l).Inv where
  regZero := launchRegs_getElem_zero l.reg0
  memory := launchMemory_ok l.dmemBytes l.mem0
  params := hl
  ifId d hd := by cases hd
  idEx e he := by cases he
  exMem m hm := by cases hm
  memWb w hw := by cases hw
  noMissedHazard := State.noMissedHazard_of_bubble (State.launch_idEx program l)
  operandsFresh _ e he := by cases he
  counters := ⟨fun _ => Launch.one_le_maxCycles hl, Nat.le_refl 0⟩
  resting := rfl

end Sys2Proof.Machine
end

