-- ==== Sys2Proof/Proofs/SequentialTick.lean ====
section
/-! One tick against the sequential machine (70_reset_and_hazards.md R236; 41_hazard_forwarding.md R160). The sequential
machine runs an instruction in the tick in which the core has it in EX: then the older instructions count as completed, the
Forwarding Unit hands EX the registers they leave, and what is behind EX counts as not begun. -/

namespace Sys2Proof.Machine

variable {s t : State} {D : Memory} {st : Status} {em : Option ExMem} {target : Option Nat}

/-! ### The registers EX reads -/

/-- The registers once the instructions in WB and MEM have completed. -/
def State.completedRegs (s : State) : Vector Word 32 :=
  match s.exMem with
  | none => s.retiredRegs
  | some m => writtenBack (accessedBundle m.instr m s.dmem) s.retiredRegs

theorem State.completedRegs_of_none (h : s.exMem = none) : s.completedRegs = s.retiredRegs := by
  simp [State.completedRegs, h]

theorem State.completedRegs_of_some {m : ExMem} (h : s.exMem = some m) :
    s.completedRegs = writtenBack (accessedBundle m.instr m s.dmem) s.retiredRegs := by simp [State.completedRegs, h]

/-- MEM/WB supplies the register as it is after the write-back (41_hazard_forwarding.md R150). -/
theorem fwdMemWb_eq_retired {r : RegIdx} {v : Word} {f : Bool} (hr : r ≠ 0#5)
    (h : fwdMemWb r (readReg s.x r) s.memWb = .value v f) : v = readReg s.retiredRegs r := by
  cases hw : s.memWb with
  | none =>
    rw [State.retiredRegs_of_none hw]
    simp only [fwdMemWb, hw] at h
    cases h; rfl
  | some w =>
    rw [State.retiredRegs_of_some hw, readReg_writtenBack]
    by_cases hwrites : w.ctrl.regWrite = true ∧ w.dest = r
    · simp only [fwdMemWb, hw, hwrites, beq_self_eq_true, Bool.and_self, if_true] at h
      rw [if_pos ⟨hr, hwrites⟩]
      cases h; rfl
    · rw [hw, fwdMemWb_of_not_writes hwrites] at h
      rw [if_neg fun hc => hwrites hc.2]
      cases h; rfl

/-- What an instruction other than a load writes back is its ALU result. -/
theorem writeBackValue_accessedBundle {m : ExMem} (hctrl : m.ctrl = ctrl m.instr.op) (hload : m.ctrl.memRead = false)
    (D : Memory) : writeBackValue (accessedBundle m.instr m D) = m.aluResult := by
  have htoReg : m.ctrl.memToReg = false := by
    rw [hctrl] at hload ⊢
    cases hop : m.instr.op <;> simp_all [ctrl]
  simp [writeBackValue, accessedBundle, htoReg]

/-- No lost hazard (41_hazard_forwarding.md R160): the value the Forwarding Unit gives is that of the register once the older
instructions have completed. -/
theorem fwd_eq_completed {r : RegIdx} {v : Word} {f : Bool} (hexMem : s.exMemOk)
    (h : fwd r (readReg s.x r) s.exMem s.memWb = .value v f) : v = readReg s.completedRegs r := by
  by_cases hr : r = 0#5
  · subst hr
    cases h; rfl
  · cases hm : s.exMem with
    | none =>
      rw [State.completedRegs_of_none hm]
      exact fwdMemWb_eq_retired hr (by simpa [fwd, hr, hm] using h)
    | some m =>
      rw [State.completedRegs_of_some hm, readReg_writtenBack]
      by_cases hwrites : m.ctrl.regWrite = true ∧ m.dest = r
      · rw [hm, fwd_exMem_of_writes hr hwrites.1 hwrites.2] at h
        obtain ⟨-, hctrl, -⟩ := hexMem m hm
        cases hload : m.ctrl.memRead with
        | true => simp [hload] at h
        | false =>
          rw [if_pos ⟨hr, hwrites⟩, writeBackValue_accessedBundle hctrl hload]
          rw [hload] at h
          cases h; rfl
      · rw [if_neg fun hc => hwrites hc.2]
        exact fwdMemWb_eq_retired hr (by simpa [fwd, hr, hm, hwrites] using h)

/-- The bundle EX leaves of `e` with the operands `a` and `b` (40_pipeline.md R113, R114). -/
def IdEx.executed (e : IdEx) (a b : Word) (fa fb : Bool) : ExMem :=
  executedBundle e.instr e (alu e.instr.op a (secondOperand e.ctrl e.instr.imm b)) b fa fb

/-- What EX does with `e` and the operands `a` and `b` in the cycle `t` (40_pipeline.md R115; 44_branch.md R190 to R193). -/
def IdEx.exOutcome (e : IdEx) (t : Nat) (a b : Word) (fa fb : Bool) : ExOutcome :=
  if branchTaken e.ctrl a b then
    if branchTarget e.pidx e.instr.imm < 0 then .abort (.branchTargetError e.pidx t)
    else .done (e.executed a b fa fb) (some (branchTarget e.pidx e.instr.imm).toNat)
  else .done (e.executed a b fa fb) none

/-- EX of R100 with both operands, by the Branch Unit's own functions. -/
theorem refExecute_eq_of_operands {e : IdEx} {a b : Word} {fa fb : Bool} (he : s.idEx = some e)
    (ha : fwd e.instr.rs e.rsVal s.exMem s.memWb = .value a fa)
    (hb : (if e.instr.op = .lw then .value e.rtVal false else fwd e.instr.rt e.rtVal s.exMem s.memWb) = .value b fb) :
    refExecute s = e.exOutcome s.cycle a b fa fb := by
  have htaken : branchTaken e.ctrl a b = true ↔ e.ctrl.branch = true ∧ a = b := by simp [branchTaken]
  simp only [IdEx.exOutcome, htaken]
  exact refExecute_of_values he ha hb

/-- Under the invariant EX computes with the registers of the sequential machine; `lw` alone takes no rt operand. -/
theorem State.Inv.refExecute_eq (h : s.Inv) (hrun : s.status = .running) {e : IdEx} (he : s.idEx = some e) :
    ∃ a fa b fb, a = readReg s.completedRegs e.instr.rs ∧ (e.instr.op ≠ .lw → b = readReg s.completedRegs e.instr.rt) ∧
      refExecute s = e.exOutcome s.cycle a b fa fb := by
  obtain ⟨hrsFresh, hrtFresh⟩ := h.operandsFresh hrun e he
  obtain ⟨a, fa, ha⟩ := Operand.exists_value_of_ne_defect
    (h.noMissedHazard.fwd_ne_defect (v := e.rsVal) he fun hr => mem_sources_iff.mpr ⟨.inl rfl, hr⟩)
  have hrs : a = readReg s.completedRegs e.instr.rs := fwd_eq_completed h.exMem (hrsFresh ▸ ha)
  by_cases hop : e.instr.op = .lw
  · exact ⟨a, fa, e.rtVal, false, hrs, absurd hop, refExecute_eq_of_operands he ha (if_pos hop)⟩
  · obtain ⟨b, fb, hb⟩ := Operand.exists_value_of_ne_defect
      (h.noMissedHazard.fwd_ne_defect (v := e.rtVal) he fun hr => mem_sources_iff.mpr ⟨.inr ⟨hop, rfl⟩, hr⟩)
    have hrt : b = readReg s.completedRegs e.instr.rt := fwd_eq_completed h.exMem (hrtFresh ▸ hb)
    exact ⟨a, fa, b, fb, hrs, fun _ => hrt, refExecute_eq_of_operands he ha ((if_neg hop).trans hb)⟩

/-! ### The sequential instruction in the core's terms -/

/-- The bundle `m` goes through MEM and WB at `q` and the sequential machine goes on at `next`, unless its address is not
valid. -/
def SeqState.complete (q : SeqState) (dmemBytes : Nat) (m : ExMem) (next : Nat) : SeqState :=
  if memFaults dmemBytes m then { q with pc := m.pidx, status := .addressError m.pidx }
  else { q with x := writtenBack (accessedBundle m.instr m q.dmem) q.x, dmem := accessedMemory m q.dmem, pc := next }

/-- The sequential machine at `q` does with `e` what EX, MEM and WB do with it and the operands `a` and `b`. -/
def SeqState.execute (q : SeqState) (dmemBytes : Nat) (e : IdEx) (a b : Word) (fa fb : Bool) : SeqState :=
  if branchTaken e.ctrl a b then
    if branchTarget e.pidx e.instr.imm < 0 then { q with status := .branchTargetError e.pidx }
    else q.complete dmemBytes (e.executed a b fa fb) (branchTarget e.pidx e.instr.imm).toNat
  else q.complete dmemBytes (e.executed a b fa fb) (e.pidx + 1)

section complete
variable {q : SeqState} {n next : Nat} {m : ExMem}

/-- The control signals of `add` and `sub` are the same. -/
theorem SeqState.complete_of_arith (h : m.ctrl = ctrl .add) :
    q.complete n m next = { q with x := writeReg q.x m.dest m.aluResult, pc := next } := by
  simp [SeqState.complete, memFaults, writtenBack_eq, writeBackValue, accessedBundle, accessedMemory, h, ctrl]

theorem SeqState.complete_of_load (h : m.ctrl = ctrl .lw) :
    q.complete n m next =
      if validAddress n m.aluResult then { q with x := writeReg q.x m.dest (memRead q.dmem m.aluResult), pc := next }
      else { q with pc := m.pidx, status := .addressError m.pidx } := by
  cases hvalid : validAddress n m.aluResult <;>
    simp [SeqState.complete, memFaults, writtenBack_eq, writeBackValue, accessedBundle, accessedMemory, h, ctrl, hvalid]

theorem SeqState.complete_of_store (h : m.ctrl = ctrl .sw) :
    q.complete n m next =
      if validAddress n m.aluResult then { q with dmem := memWrite q.dmem m.aluResult m.storeVal, pc := next }
      else { q with pc := m.pidx, status := .addressError m.pidx } := by
  cases hvalid : validAddress n m.aluResult <;>
    simp [SeqState.complete, memFaults, writtenBack_eq, accessedBundle, accessedMemory, h, ctrl, hvalid]

theorem SeqState.complete_of_branch (h : m.ctrl = ctrl .beq) : q.complete n m next = { q with pc := next } := by
  simp [SeqState.complete, memFaults, writtenBack_eq, accessedBundle, accessedMemory, h, ctrl]

end complete

/-- The Branch Unit takes nothing but a `beq` (44_branch.md R190). -/
theorem not_branchTaken {op : Op} (h : op ≠ .beq) (a b : Word) : ¬ branchTaken (ctrl op) a b = true := by
  cases op <;> simp_all [branchTaken, ctrl]

theorem branchTaken_beq_iff {a b : Word} : branchTaken (ctrl .beq) a b = true ↔ a = b := beq_iff_eq

/-- What the sequential machine does with an instruction is what EX, MEM and WB of the core do with it. -/
theorem seqInstr_eq_execute {n : Nat} {e : IdEx} {q : SeqState} {a b : Word} (fa fb : Bool)
    (hctrl : e.ctrl = ctrl e.instr.op) (hdest : e.dest = destOf e.instr) (hpc : q.pc = e.pidx)
    (ha : a = readReg q.x e.instr.rs) (hb : e.instr.op ≠ .lw → b = readReg q.x e.instr.rt) :
    seqInstr n e.instr q = q.execute n e a b fa fb := by
  have hidle : e.instr.op ≠ .beq → ¬ branchTaken e.ctrl a b = true := fun hop => hctrl ▸ not_branchTaken hop a b
  unfold SeqState.execute
  obtain ⟨i, pidx, c, rsVal, rtVal, dest⟩ := e
  obtain rfl : c = ctrl i.op := hctrl
  obtain rfl : dest = destOf i := hdest
  obtain rfl : q.pc = pidx := hpc
  subst ha
  cases i with
  | add rd rs rt =>
    obtain rfl := hb nofun
    rw [if_neg (hidle nofun), SeqState.complete_of_arith rfl]
    rfl
  | sub rd rs rt =>
    obtain rfl := hb nofun
    rw [if_neg (hidle nofun), SeqState.complete_of_arith rfl]
    rfl
  | lw rt imm rs =>
    rw [if_neg (hidle nofun), SeqState.complete_of_load rfl]
    rfl
  | sw rt imm rs =>
    obtain rfl := hb nofun
    rw [if_neg (hidle nofun), SeqState.complete_of_store rfl]
    rfl
  | beq rs rt imm =>
    obtain rfl := hb nofun
    rw [SeqState.complete_of_branch rfl, SeqState.complete_of_branch rfl]
    exact (if_congr branchTaken_beq_iff rfl rfl).symm

/-! ### Where the sequential machine goes on -/

/-- The index of the instruction ID takes up next: the one in IF/ID, or the next one to fetch. -/
def State.decodeIndex (s : State) : Nat :=
  match s.ifId with
  | some d => d.pidx
  | none => s.pc

theorem State.decodeIndex_of_some {d : IfId} (h : s.ifId = some d) : s.decodeIndex = d.pidx := by
  simp [State.decodeIndex, h]

theorem State.decodeIndex_of_none (h : s.ifId = none) : s.decodeIndex = s.pc := by simp [State.decodeIndex, h]

theorem State.resumeIndex_of_some {e : IdEx} (h : s.idEx = some e) : s.resumeIndex = e.pidx := by
  simp [State.resumeIndex, h]

theorem State.resumeIndex_of_none (h : s.idEx = none) : s.resumeIndex = s.decodeIndex := by
  cases hd : s.ifId with
  | none => simp [State.resumeIndex, State.decodeIndex, h, hd]
  | some d => simp [State.resumeIndex, State.decodeIndex, h, hd]

/-- Behind the instruction in EX stands the one at the next index. -/
theorem State.idExOk.decodeIndex (h : s.idExOk) {e : IdEx} (he : s.idEx = some e) : s.decodeIndex = e.pidx + 1 := by
  obtain ⟨-, -, -, hfull, hempty⟩ := h e he
  cases hd : s.ifId with
  | none => rw [State.decodeIndex_of_none hd, hempty hd]
  | some d => rw [State.decodeIndex_of_some hd, hfull d hd]

/-- IF leaves the instruction of the pc ahead of ID, or the pc as it was, where IF/ID is a bubble. -/
theorem State.decodeIndex_refCommitted_of_bubble (h : s.ifId = none) : (s.refCommitted em none).decodeIndex = s.pc := by
  cases hfetch : (refFetch s).1 with
  | none => exact (State.decodeIndex_of_none hfetch).trans (refFetch_of_bubble hfetch).2
  | some d =>
    obtain ⟨-, -, d₀, hd₀, -⟩ | ⟨-, -, -, hpidx⟩ := ifId_of_refFetch hfetch
    · cases h.symm.trans hd₀
    · exact (State.decodeIndex_of_some hfetch).trans hpidx

/-- Without a flush EX goes on with the instruction that ID took up, stalled or not. -/
theorem State.resumeIndex_refCommitted (s : State) (em : Option ExMem) :
    (s.refCommitted em none).resumeIndex = s.decodeIndex := by
  cases hd : s.ifId with
  | none =>
    rw [State.resumeIndex_of_none (refDecode_of_none hd), State.decodeIndex_refCommitted_of_bubble hd,
      State.decodeIndex_of_none hd]
  | some d =>
    rw [State.decodeIndex_of_some hd]
    cases hstall : refStall s with
    | true =>
      have hidEx : (s.refCommitted em none).idEx = none := (refDecode_of_some hd).trans (if_pos hstall)
      have hifId : (s.refCommitted em none).ifId = some { d with stalled := true } := by
        rw [State.refCommitted_ifId_of_no_flush, refFetch_of_stall hstall, hd, Option.map_some]
      rw [State.resumeIndex_of_none hidEx, State.decodeIndex_of_some hifId]
    | false =>
      have hidEx : (s.refCommitted em none).idEx = some (decodedBundle d.instr d (refWriteBack s)) :=
        (refDecode_of_some hd).trans (if_neg (by simp [hstall]))
      exact State.resumeIndex_of_some hidEx

theorem State.resumeIndex_of_flush {n : Nat} : (s.refCommitted em (some n)).resumeIndex = n := rfl

/-! ### The tick -/

/-- Past the address check the instruction in MEM counts as completed. -/
theorem State.sequential_eq (h : refMemAborts s = none) :
    s.sequential = { x := s.completedRegs, dmem := (refMemory s).1, pc := s.resumeIndex, status := .running } := by
  cases hm : s.exMem with
  | none => simp [State.sequential, State.completedRegs, refMemory_of_none hm, hm]
  | some m =>
    have hok : memFaults s.dmemBytes m = false := refMemAborts_eq_none_iff.mp h m hm
    simp [State.sequential, State.completedRegs, refMemory_of_some hm, hm, hok]

theorem State.refCommitted_retiredRegs : (s.refCommitted em target).retiredRegs = s.completedRegs := by
  cases hm : s.exMem with
  | none =>
    have hw : (s.refCommitted em target).memWb = none := by rw [State.refCommitted_memWb, hm, Option.map_none]
    rw [State.retiredRegs_of_none hw, State.refCommitted_x, State.completedRegs_of_none hm]
  | some m =>
    have hw : (s.refCommitted em target).memWb = some (accessedBundle m.instr m s.dmem) := by
      rw [State.refCommitted_memWb, hm, Option.map_some]
    rw [State.retiredRegs_of_some hw, State.refCommitted_x, State.completedRegs_of_some hm]

theorem refMemAborts_of_bubble (h : s.exMem = none) : refMemAborts s = none := by simp [refMemAborts, h]

/-- A bubble in EX completes nothing. -/
theorem State.sequential_of_bubble (h : refMemAborts s = none) (hidEx : s.idEx = none) :
    (s.refCommitted none none).sequential = s.sequential := by
  rw [State.sequential_eq (refMemAborts_of_bubble State.refCommitted_exMem), State.sequential_eq h,
    State.completedRegs_of_none State.refCommitted_exMem, State.refCommitted_retiredRegs,
    refMemory_of_none State.refCommitted_exMem, State.resumeIndex_refCommitted, State.resumeIndex_of_none hidEx]
  rfl

/-- The bundle EX leaves is the next one the sequential machine completes. -/
theorem State.sequential_of_executed (h : refMemAborts s = none) (m : ExMem) (target : Option Nat) :
    (s.refCommitted (some m) target).sequential =
      s.sequential.complete s.dmemBytes m (s.refCommitted (some m) target).resumeIndex := by
  rw [State.sequential_eq h]
  simp only [State.sequential, State.refCommitted_exMem, State.refCommitted_retiredRegs, State.refCommitted_dmemBytes,
    State.refCommitted_dmem, SeqState.complete]

/-- The sequential machine is at the instruction in EX. -/
theorem State.Inv.seqStep_sequential (h : s.Inv) (hmem : refMemAborts s = none) {e : IdEx} (he : s.idEx = some e) :
    seqStep s.program s.dmemBytes s.sequential = seqInstr s.dmemBytes e.instr s.sequential := by
  obtain ⟨hrecord, -⟩ := h.idEx e he
  rw [State.sequential_eq hmem, State.resumeIndex_of_some he]
  simp only [seqStep, hrecord]

/-- The instruction in EX, by what EX, MEM and WB do with it, is one step of the sequential machine. -/
theorem State.Inv.exists_executed (h : s.Inv) (hrun : s.status = .running) (hmem : refMemAborts s = none) {e : IdEx}
    (he : s.idEx = some e) :
    ∃ a fa b fb, refExecute s = e.exOutcome s.cycle a b fa fb ∧
      seqStep s.program s.dmemBytes s.sequential = s.sequential.execute s.dmemBytes e a b fa fb := by
  obtain ⟨a, fa, b, fb, ha, hb, hex⟩ := h.refExecute_eq hrun he
  obtain ⟨-, hctrl, hdest, -⟩ := h.idEx e he
  refine ⟨a, fa, b, fb, hex, (h.seqStep_sequential hmem he).trans ?_⟩
  have hx : s.sequential.x = s.completedRegs := congrArg SeqState.x (State.sequential_eq hmem)
  have hpc : s.sequential.pc = e.pidx :=
    (congrArg SeqState.pc (State.sequential_eq hmem)).trans (State.resumeIndex_of_some he)
  exact seqInstr_eq_execute fa fb hctrl hdest hpc (hx ▸ ha) (hx ▸ hb)

/-- A tick that goes on to the commit is one instruction of the sequential machine where EX holds one, and none otherwise. -/
theorem State.Inv.sequential_of_tickLatches (h : s.Inv) (hrun : s.status = .running) (hlatches : s.TickLatches em target) :
    (s.refCommitted em target).sequential =
      if s.idEx.isSome then seqStep s.program s.dmemBytes s.sequential else s.sequential := by
  have hmem := hlatches.memory
  cases he : s.idEx with
  | none =>
    cases hlatches with
    | bubble => exact State.sequential_of_bubble hmem he
    | done _ hex =>
      obtain ⟨e, hsome, -⟩ := refExecute_done hex
      cases he.symm.trans hsome
  | some e =>
    cases hlatches with
    | bubble _ hex => cases (idEx_of_refExecute_bubble hex).symm.trans he
    | @done m target _ hex =>
      obtain ⟨a, fa, b, fb, hexecute, hseq⟩ := h.exists_executed hrun hmem he
      rw [hexecute, IdEx.exOutcome] at hex
      rw [State.sequential_of_executed hmem, Option.isSome_some, if_pos rfl, hseq, SeqState.execute]
      split at hex
      · next htaken =>
        split at hex
        · cases hex
        · next hpos =>
          cases hex
          rw [if_pos htaken, if_neg hpos, State.resumeIndex_of_flush]
      · next hfall =>
        cases hex
        rw [if_neg hfall, State.resumeIndex_refCommitted, h.idEx.decodeIndex he]

/-- An AddressError of the core is one of the sequential machine, which has come to it already. -/
theorem State.sequential_of_addressError {p c : Nat} (h : s.TickAborts D (.addressError p c)) :
    s.sequential.status = .addressError p := by
  cases h with
  | memory hmem =>
    obtain ⟨m, hm, hfault, hst⟩ := refMemAborts_eq_some_iff.mp hmem
    cases hst
    simp [State.sequential, hm, hfault]
  | execute _ hex => obtain hst | ⟨e, -, -, hst⟩ := refExecute_abort hex <;> cases hst

/-- A BranchTargetError of the core is one of the sequential machine, in the instruction it comes to next. -/
theorem State.Inv.sequential_of_branchTargetError (h : s.Inv) (hrun : s.status = .running) {p c : Nat}
    (hends : s.TickAborts D (.branchTargetError p c)) :
    (seqStep s.program s.dmemBytes s.sequential).status = .branchTargetError p := by
  obtain ⟨e, he, rfl, -⟩ := hends.of_branchTargetError
  cases hends with
  | memory hmem =>
    obtain ⟨m, -, -, hst⟩ := refMemAborts_eq_some_iff.mp hmem
    cases hst
  | execute hmem hex =>
    obtain ⟨a, fa, b, fb, hexecute, hseq⟩ := h.exists_executed hrun hmem he
    rw [hexecute, IdEx.exOutcome] at hex
    rw [hseq, SeqState.execute]
    split at hex
    · next htaken =>
      split at hex
      · next hneg => rw [if_pos htaken, if_pos hneg]
      · cases hex
    · cases hex

end Sys2Proof.Machine
end

