-- ==== Sys2Proof/Proofs/SequentialEquivalence.lean ====
section
/-! Whole runs against the sequential machine (70_reset_and_hazards.md R236). Each state of a run stands for a state that
the sequential machine comes to; and since that machine stays where it stops, the end the core shows is its only one. -/

namespace Sys2Proof.Machine

/-! ### The sequential machine stays where it stops -/

/-- The sequential machine has stopped: by an error, or with the index at or past N. -/
def SeqState.Halted (q : SeqState) (program : List Instr) : Prop := q.status ≠ .running ∨ program.length ≤ q.pc

section sequential

variable {program : List Instr} {d : Nat} {q : SeqState}

theorem seqStep_of_halted (h : q.Halted program) : seqStep program d q = q := by
  unfold seqStep
  split
  · next hstatus hi =>
    obtain hstopped | hpast := h
    · exact absurd hstatus hstopped
    · rw [List.getElem?_eq_none_iff.mpr hpast] at hi
      cases hi
  · rfl

theorem seqRun_add (m n : Nat) (q : SeqState) : seqRun program d (m + n) q = seqRun program d n (seqRun program d m q) := by
  induction m generalizing q with
  | zero => rw [Nat.zero_add]; rfl
  | succ m ih => rw [Nat.add_right_comm]; exact ih (seqStep program d q)

theorem seqRun_of_halted (h : q.Halted program) (n : Nat) : seqRun program d n q = q := by
  induction n with
  | zero => rfl
  | succ n ih => rw [seqRun, seqStep_of_halted h, ih]

theorem seqRun_eq_of_halted_of_le {m n : Nat} (hmn : m ≤ n) (h : (seqRun program d m q).Halted program) :
    seqRun program d n q = seqRun program d m q := by
  obtain ⟨k, rfl⟩ := Nat.exists_eq_add_of_le hmn
  rw [seqRun_add, seqRun_of_halted h]

/-- The sequential machine has one end. -/
theorem seqRun_eq_of_halted {m n : Nat} (hm : (seqRun program d m q).Halted program)
    (hn : (seqRun program d n q).Halted program) : seqRun program d m q = seqRun program d n q := by
  obtain hle | hle := Nat.le_total m n
  · exact (seqRun_eq_of_halted_of_le hle hm).symm
  · exact seqRun_eq_of_halted_of_le hle hn

end sequential

/-! ### A run of the core follows the sequential machine -/

variable {s t : State} {q : SeqState} {program : List Instr} {l : Launch}

/-- The run of the core that has come to `s` has followed the sequential machine from `q`. -/
structure State.Follows (s : State) (q : SeqState) : Prop where
  inv : s.Inv
  sequential : s.status.fatal = false → ∃ n, seqRun s.program s.dmemBytes n q = s.sequential
  addressError : ∀ p c, s.status = .addressError p c → ∃ n, (seqRun s.program s.dmemBytes n q).status = .addressError p
  branchTargetError : ∀ p c, s.status = .branchTargetError p c →
    ∃ n, (seqRun s.program s.dmemBytes n q).status = .branchTargetError p
  hazardDefect : ∀ c, s.status ≠ .hazardDefect c
  terminated : s.status = .terminated → s.RanOut

theorem State.Follows.refAbort {D : Memory} {st : Status} (h : s.Follows q) (hrun : s.status = .running)
    (hends : s.TickAborts D st) : (refAbort s (refWriteBack s) D st).Follows q where
  inv := h.inv.refAbort hends
  sequential hfatal := absurd (hends.status.1.symm.trans hfatal) (by decide)
  addressError := by
    rintro p c rfl
    obtain ⟨n, hn⟩ := h.sequential (by rw [hrun]; rfl)
    exact ⟨n, (congrArg SeqState.status hn).trans (State.sequential_of_addressError hends)⟩
  branchTargetError := by
    rintro p c rfl
    obtain ⟨n, hn⟩ := h.sequential (by rw [hrun]; rfl)
    refine ⟨n + 1, ?_⟩
    rw [seqRun_add]
    exact (congrArg (fun r => (seqStep s.program s.dmemBytes r).status) hn).trans
      (h.inv.sequential_of_branchTargetError hrun hends)
  hazardDefect := by
    rintro c rfl
    exact h.inv.noMissedHazard.refExecute_ne_hazardDefect c hends.of_hazardDefect
  terminated := by
    rintro rfl
    cases hends.status.1

/-- The status of a commit is no fatal error. -/
theorem State.refCommitted_status_ne {em : Option ExMem} {target : Option Nat} {st : Status} (h : st.fatal = true) :
    (s.refCommitted em target).status ≠ st := by
  rintro rfl
  cases h.symm.trans (s.refCommitted_not_fatal em target)

theorem State.Follows.refCommitted {em : Option ExMem} {target : Option Nat} (h : s.Follows q) (hrun : s.status = .running)
    (hlatches : s.TickLatches em target) : (s.refCommitted em target).Follows q where
  inv := h.inv.refCommitted hlatches
  sequential _ := by
    obtain ⟨n, hn⟩ := h.sequential (by rw [hrun]; rfl)
    rw [h.inv.sequential_of_tickLatches hrun hlatches]
    split
    · exact ⟨n + 1, (seqRun_add n 1 q).trans (congrArg _ hn)⟩
    · exact ⟨n, hn⟩
  addressError _ _ hst := absurd hst (State.refCommitted_status_ne rfl)
  branchTargetError _ _ hst := absurd hst (State.refCommitted_status_ne rfl)
  hazardDefect _ hst := absurd hst (State.refCommitted_status_ne rfl)
  terminated := State.refCommitted_terminated

theorem State.Follows.of_step (h : s.Follows q) (hstep : step s = .next t) : t.Follows q := by
  by_cases hrun : s.status = .running
  · obtain ⟨D, st, hends, -, rfl⟩ | ⟨em, target, hlatches, -, rfl⟩ := running_step_cases hrun hstep
    · exact h.refAbort hrun hends
    · exact h.refCommitted hrun hlatches
  · cases (step_of_final hrun).symm.trans hstep
    exact h

/-- At a launch nothing is in flight: the core stands for the sequential machine at its start. -/
theorem State.launch_follows (program : List Instr) (hl : l.wellFormed = true) :
    (State.launch program l).Follows (seqLaunch l) where
  inv := State.launch_inv program hl
  sequential _ := ⟨0, rfl⟩
  addressError p c hst := by cases (State.launch_status program l).symm.trans hst
  branchTargetError p c hst := by cases (State.launch_status program l).symm.trans hst
  hazardDefect c hst := by cases (State.launch_status program l).symm.trans hst
  terminated hst := by cases (State.launch_status program l).symm.trans hst

theorem runState_follows (program : List Instr) (hl : l.wellFormed = true) (k : Nat) :
    (runState k (State.launch program l)).Follows (seqLaunch l) :=
  runState_keeps (P := fun s => s.Follows (seqLaunch l)) (fun _ _ h => h.of_step) k _ (State.launch_follows program hl)

/-! ### The ends of a run -/

/-- With nothing in flight the core stands for its own registers, data memory and pc. -/
theorem State.RanOut.sequential_eq (h : s.RanOut) :
    s.sequential = { x := s.x, dmem := s.dmem, pc := s.pc, status := .running } := by
  simp [State.sequential, State.retiredRegs, State.resumeIndex, h.ifId, h.idEx, h.exMem, h.memWb]

theorem runState_terminated (hl : l.wellFormed = true) {k : Nat}
    (h : (runState k (State.launch program l)).status = .terminated) :
    ∃ n, (seqRun program l.dmemBytes n (seqLaunch l)).status = .running ∧
      program.length ≤ (seqRun program l.dmemBytes n (seqLaunch l)).pc ∧
      (seqRun program l.dmemBytes n (seqLaunch l)).x = (runState k (State.launch program l)).x ∧
      (seqRun program l.dmemBytes n (seqLaunch l)).dmem = (runState k (State.launch program l)).dmem := by
  have hfollows := runState_follows program hl k
  obtain ⟨hprogram, hbytes, -⟩ := runState_launch_frame program l k
  have hout := hfollows.terminated h
  have hpc := hout.pc
  obtain ⟨n, hn⟩ := hfollows.sequential (by rw [h]; rfl)
  rw [State.progLen, hprogram] at hpc
  rw [hout.sequential_eq, hprogram, hbytes] at hn
  exact ⟨n, by rw [hn], hpc.trans_eq (congrArg SeqState.pc hn).symm, by rw [hn], by rw [hn]⟩

theorem runState_addressError (hl : l.wellFormed = true) {k p c : Nat}
    (h : (runState k (State.launch program l)).status = .addressError p c) :
    ∃ n, (seqRun program l.dmemBytes n (seqLaunch l)).status = .addressError p := by
  obtain ⟨n, hn⟩ := (runState_follows program hl k).addressError p c h
  obtain ⟨hprogram, hbytes, -⟩ := runState_launch_frame program l k
  rw [hprogram, hbytes] at hn
  exact ⟨n, hn⟩

theorem runState_branchTargetError (hl : l.wellFormed = true) {k p c : Nat}
    (h : (runState k (State.launch program l)).status = .branchTargetError p c) :
    ∃ n, (seqRun program l.dmemBytes n (seqLaunch l)).status = .branchTargetError p := by
  obtain ⟨n, hn⟩ := (runState_follows program hl k).branchTargetError p c h
  obtain ⟨hprogram, hbytes, -⟩ := runState_launch_frame program l k
  rw [hprogram, hbytes] at hn
  exact ⟨n, hn⟩

/-- A status of the core that is the error `st` of the sequential machine. -/
def Status.IsError (s : Status) (st : SeqStatus) : Prop :=
  ∃ p c, (s = .addressError p c ∧ st = .addressError p) ∨ (s = .branchTargetError p c ∧ st = .branchTargetError p)

/-- An error of the sequential machine is how the run of the core ends, unless the watchdog ends it first: every other end
would be another end of the sequential machine. -/
theorem runState_isError_or_overrun (hl : l.wellFormed = true) {n : Nat}
    (h : (seqRun program l.dmemBytes n (seqLaunch l)).status ≠ .running) :
    (runState l.maxCycles (State.launch program l)).status.IsError (seqRun program l.dmemBytes n (seqLaunch l)).status ∨
      ∃ c, (runState l.maxCycles (State.launch program l)).status = .overrun c := by
  cases hst : (runState l.maxCycles (State.launch program l)).status with
  | running => exact absurd hst (runState_maxCycles_final program hl)
  | terminated =>
    obtain ⟨m, hm, hpc, -⟩ := runState_terminated hl hst
    have heq := seqRun_eq_of_halted (n := n) (.inr hpc) (.inl h)
    exact absurd (heq ▸ hm) h
  | addressError p c =>
    obtain ⟨m, hm⟩ := runState_addressError hl hst
    have heq := seqRun_eq_of_halted (n := n) (.inl (by rw [hm]; nofun)) (.inl h)
    exact .inl ⟨p, c, .inl ⟨rfl, heq ▸ hm⟩⟩
  | branchTargetError p c =>
    obtain ⟨m, hm⟩ := runState_branchTargetError hl hst
    have heq := seqRun_eq_of_halted (n := n) (.inl (by rw [hm]; nofun)) (.inl h)
    exact .inl ⟨p, c, .inr ⟨rfl, heq ▸ hm⟩⟩
  | hazardDefect c => exact absurd hst ((runState_follows program hl _).hazardDefect c)
  | overrun c => exact .inr ⟨c, rfl⟩

/-- Settles O58: a run follows the sequential machine to its end; conversely the run is over within MAX_CYCLES steps, and an
error of the sequential machine leaves it no other end but the watchdog's. -/
theorem sequentialEquivalence : Obligations.SequentialEquivalence := by
  intro program l hl
  refine ⟨fun k => runState_terminated hl, fun k p c => runState_addressError hl, fun k p c => runState_branchTargetError hl,
    fun n p h => ?addressError, fun n p h => ?branchTargetError⟩
  case addressError =>
    obtain ⟨p', c, ⟨hst, heq⟩ | ⟨-, heq⟩⟩ | ⟨c, hst⟩ := runState_isError_or_overrun hl (n := n) (by rw [h]; nofun)
    · cases h.symm.trans heq
      exact ⟨_, c, .inl hst⟩
    · cases h.symm.trans heq
    · exact ⟨_, c, .inr hst⟩
  case branchTargetError =>
    obtain ⟨p', c, ⟨-, heq⟩ | ⟨hst, heq⟩⟩ | ⟨c, hst⟩ := runState_isError_or_overrun hl (n := n) (by rw [h]; nofun)
    · cases h.symm.trans heq
    · cases h.symm.trans heq
      exact ⟨_, c, .inl hst⟩
    · exact ⟨_, c, .inr hst⟩

end Sys2Proof.Machine
end

