-- ==== Sys2Proof/Proofs/CycleCount.lean ====
section
/-! The cycle count of a run (70_reset_and_hazards.md R240). At every cycle boundary the cycles gone by are the write-backs
performed, the instructions in flight, the stalls, two for each flush to a target below N, and the cycles the pipeline has
drained since its youngest instruction was fetched. When a run terminates nothing is in flight and it has drained for four. -/

namespace Sys2Proof.Machine

variable {s t : State} {em : Option ExMem} {target : Option Nat}

/-! ### How a commit moves the bundles -/

/-- How IF and ID move on from `s` to `t`, by what EX redirects to and whether ID stalls (40_pipeline.md R103 to R106;
41_hazard_forwarding.md R145; 44_branch.md R193). -/
inductive State.Moves (s t : State) : Option Nat → Prop
  | flush {n : Nat} (hidEx : s.idEx.isSome = true) (ifId : t.ifId.isSome = false) (idEx : t.idEx.isSome = false)
      (pc : t.pc = n) (stalls : t.stallCount = s.stallCount) : s.Moves t (some n)
  | stall (hifId : s.ifId.isSome = true) (ifId : t.ifId.isSome = true) (idEx : t.idEx.isSome = false)
      (pc : t.pc = s.pc) (stalls : t.stallCount = s.stallCount + 1) : s.Moves t none
  | fetch (hpc : s.pc < s.progLen) (ifId : t.ifId.isSome = true) (idEx : t.idEx.isSome = s.ifId.isSome)
      (pc : t.pc = s.pc + 1) (stalls : t.stallCount = s.stallCount) : s.Moves t none
  | exhausted (hpc : s.progLen ≤ s.pc) (ifId : t.ifId.isSome = false) (idEx : t.idEx.isSome = s.ifId.isSome)
      (pc : t.pc = s.pc) (stalls : t.stallCount = s.stallCount) : s.Moves t none

theorem refDecode_isSome {X : Vector Word 32} (h : refStall s = false) : (refDecode s X).isSome = s.ifId.isSome := by
  cases hd : s.ifId with
  | none => rw [refDecode_of_none hd]; rfl
  | some d => rw [refDecode_of_some hd, if_neg (by simp [h])]; rfl

theorem State.TickLatches.moves (h : s.TickLatches em target) : s.Moves (s.refCommitted em target) target := by
  cases target with
  | some n =>
    obtain ⟨e, he, -⟩ := h.branch_of_flush
    exact .flush (by rw [he]; rfl) rfl rfl rfl State.refCommitted_stallCount_of_flush
  | none =>
    have hstalls := s.refCommitted_stallCount em none
    cases hstall : refStall s with
    | true =>
      obtain ⟨d, hd⟩ := ifId_of_refStall hstall
      have hidEx : (s.refCommitted em none).idEx = none := (refDecode_of_some hd).trans (if_pos hstall)
      refine .stall (by rw [hd]; rfl) ?_ (by rw [hidEx]; rfl) (congrArg Prod.snd (refFetch_of_stall hstall)) ?_
      · rw [State.refCommitted_ifId_of_no_flush, refFetch_of_stall hstall, hd]; rfl
      · rw [hstalls, if_pos ⟨hstall, rfl⟩]
    | false =>
      have hsame : (s.refCommitted em none).stallCount = s.stallCount := by rw [hstalls, if_neg (by simp [hstall])]; rfl
      cases hi : s.program[s.pc]? with
      | none =>
        have hexhausted : s.progLen ≤ s.pc := List.getElem?_eq_none_iff.mp hi
        have hfetch := refFetch_of_exhausted hstall hexhausted
        refine .exhausted hexhausted ?_ (refDecode_isSome hstall) (congrArg Prod.snd hfetch) hsame
        rw [State.refCommitted_ifId_of_no_flush, hfetch]; rfl
      | some i =>
        have hfetch := refFetch_of_some hstall hi
        refine .fetch (List.getElem?_eq_some_iff.mp hi).1 ?_ (refDecode_isSome hstall) (congrArg Prod.snd hfetch) hsame
        rw [State.refCommitted_ifId_of_no_flush, hfetch]; rfl

/-! ### What a tick adds to the counts -/

theorem State.writesBack_of_running (hrun : s.status = .running) : s.writesBack = s.memWb.isSome := by
  simp [State.writesBack, hrun]

theorem State.flushesInside_of_no_flush (htick : s.cycleTick = s.finishedTick em none) : s.flushesInside = false := by
  simp [State.flushesInside, htick, State.finishedTick]

theorem State.flushesInside_of_flush {n : Nat} (hrun : s.status = .running)
    (htick : s.cycleTick = s.finishedTick em (some n)) : s.flushesInside = decide (n < s.progLen) := by
  simp [State.flushesInside, hrun, htick, State.finishedTick]

theorem State.writesBack_of_final (h : s.status ≠ .running) : s.writesBack = false := by simp [State.writesBack, h]

theorem State.flushesInside_of_final (h : s.status ≠ .running) : s.flushesInside = false := by
  simp [State.flushesInside, h]

/-! ### The instructions in flight and the draining pipeline -/

/-- The number of instructions in the four latches. -/
def State.inFlight (s : State) : Nat :=
  s.ifId.isSome.toNat + s.idEx.isSome.toNat + s.exMem.isSome.toNat + s.memWb.isSome.toNat

/-- A tick without a flush takes in as many instructions as the pc rises by, and hands on the one in WB. -/
theorem State.TickLatches.inFlight_of_no_flush (h : s.TickLatches em none) :
    (s.refCommitted em none).inFlight + s.memWb.isSome.toNat + s.pc = s.inFlight + (s.refCommitted em none).pc := by
  have hexMem : (s.refCommitted em none).exMem.isSome = s.idEx.isSome := h.isSome_eq
  have hmemWb : (s.refCommitted em none).memWb.isSome = s.exMem.isSome := State.refCommitted_memWb_isSome
  unfold State.inFlight
  cases h.moves with
  | stall hfull hifId hidEx hpc =>
    rw [hfull, hifId, hidEx, hexMem, hmemWb, hpc, Bool.toNat_true, Bool.toNat_false]
  | fetch _ hifId hidEx hpc =>
    rw [hifId, hidEx, hexMem, hmemWb, hpc, Bool.toNat_true]
    omega
  | exhausted _ hifId hidEx hpc =>
    rw [hifId, hidEx, hexMem, hmemWb, hpc, Bool.toNat_false]
    omega

/-- A flush discards the instruction in ID and the one just fetched. -/
theorem State.TickLatches.inFlight_of_flush {n : Nat} (h : s.TickLatches em (some n)) :
    (s.refCommitted em (some n)).inFlight + s.ifId.isSome.toNat + s.memWb.isSome.toNat = s.inFlight := by
  have hexMem : (s.refCommitted em (some n)).exMem.isSome = s.idEx.isSome := h.isSome_eq
  have hmemWb : (s.refCommitted em (some n)).memWb.isSome = s.exMem.isSome := State.refCommitted_memWb_isSome
  unfold State.inFlight
  cases h.moves with
  | flush _ hifId hidEx =>
    rw [hifId, hidEx, hexMem, hmemWb, Bool.toNat_false]
    omega

/-- The cycles since the fetch of the youngest instruction, once the pc is exhausted: one for each empty latch behind it. -/
def State.drainCycles (s : State) : Nat :=
  if s.pc < s.progLen then 0
  else if s.ifId.isSome then 0
  else if s.idEx.isSome then 1
  else if s.exMem.isSome then 2
  else if s.memWb.isSome then 3
  else 4

theorem State.drainCycles_of_fetching (h : s.pc < s.progLen) : s.drainCycles = 0 := if_pos h

theorem State.drainCycles_of_ifId (h : s.ifId.isSome = true) : s.drainCycles = 0 := by simp [State.drainCycles, h]

theorem State.RanOut.inFlight_eq (h : s.RanOut) : s.inFlight = 0 := by
  simp [State.inFlight, h.ifId, h.idEx, h.exMem, h.memWb]

theorem State.RanOut.drainCycles_eq (h : s.RanOut) : s.drainCycles = 4 := by
  simp [State.drainCycles, h.pc, h.ifId, h.idEx, h.exMem, h.memWb]

/-- IF/ID is empty behind an instruction in EX only where there is nothing left to fetch. -/
def State.FetchesBehind (s : State) : Prop := s.idEx.isSome = true → s.ifId.isSome = false → s.progLen ≤ s.pc

/-- Behind an instruction in EX stands another one, or the pipeline has drained for one cycle. -/
theorem State.FetchesBehind.drainCycles (h : s.FetchesBehind) (hidEx : s.idEx.isSome = true) :
    s.drainCycles + s.ifId.isSome.toNat = 1 := by
  cases hifId : s.ifId.isSome with
  | true => simp [State.drainCycles_of_ifId hifId]
  | false => simp [State.drainCycles, h hidEx hifId, hifId, hidEx]

/-- A flush leaves the branch as the youngest instruction: a target at or past N finds the pipeline drained for two cycles. -/
theorem State.drainCycles_of_flushed (hifId : t.ifId.isSome = false) (hidEx : t.idEx.isSome = false)
    (hexMem : t.exMem.isSome = true) : t.drainCycles + 2 * (decide (t.pc < t.progLen)).toNat = 2 := by
  by_cases hpc : t.pc < t.progLen
  · simp [State.drainCycles, hpc]
  · simp [State.drainCycles, hpc, hifId, hidEx, hexMem]

theorem State.Moves.fetchesBehind (h : s.Moves t target) (hlen : t.progLen = s.progLen) : t.FetchesBehind := by
  intro hidEx hifId
  cases h with
  | flush _ _ hempty => cases hempty.symm.trans hidEx
  | stall _ hfull => cases hfull.symm.trans hifId
  | fetch _ hfull => cases hfull.symm.trans hifId
  | exhausted hpc _ _ hsame => rw [hlen, hsame]; exact hpc

/-- A pipeline that is not empty and fetches nothing drains for one cycle more. -/
theorem State.drainCycles_of_exhausted (hbusy : ¬ s.RanOut) (hpc : s.progLen ≤ s.pc) (hlen : t.progLen ≤ t.pc)
    (hifId : t.ifId.isSome = false) (hidEx : t.idEx.isSome = s.ifId.isSome) (hexMem : t.exMem.isSome = s.idEx.isSome)
    (hmemWb : t.memWb.isSome = s.exMem.isSome) : t.drainCycles = s.drainCycles + 1 := by
  simp only [State.drainCycles, Nat.not_lt.mpr hpc, Nat.not_lt.mpr hlen, hifId, hidEx, hexMem, hmemWb, if_false]
  by_cases h0 : s.ifId.isSome = true
  · simp [h0]
  by_cases h1 : s.idEx.isSome = true
  · simp [h0, h1]
  by_cases h2 : s.exMem.isSome = true
  · simp [h0, h1, h2]
  by_cases h3 : s.memWb.isSome = true
  · simp [h0, h1, h2, h3]
  · exact absurd ⟨hpc, by simpa using h0, by simpa using h1, by simpa using h2, by simpa using h3⟩ hbusy

/-! ### The account of a run -/

/-- After `W` write-backs and `F` flushes to a target below N, the cycles gone by are accounted for. -/
structure State.Accounts (W F : Nat) (s : State) : Prop where
  behind : s.FetchesBehind
  busy : s.status = .running → ¬ s.RanOut
  count : s.status.fatal = false → s.cycleCount = W + s.inFlight + s.drainCycles + s.stallCount + 2 * F

/-- A commit keeps the account: what it adds to the cycles, to the instructions in flight and to the draining is said by how
the bundles move. -/
theorem State.Accounts.refCommitted {W F : Nat} (h : s.Accounts W F) (hrun : s.status = .running)
    (hlatches : s.TickLatches em target) (htick : s.cycleTick = s.finishedTick em target) :
    (s.refCommitted em target).Accounts (W + s.writesBack.toNat) (F + s.flushesInside.toNat) := by
  have hcount := h.count (by rw [hrun]; rfl)
  have hexMem : (s.refCommitted em target).exMem.isSome = s.idEx.isSome := hlatches.isSome_eq
  have hmemWb : (s.refCommitted em target).memWb.isSome = s.exMem.isSome := State.refCommitted_memWb_isSome
  have hcycle : (s.refCommitted em target).cycleCount = s.cycleCount + 1 := rfl
  have hbusy := h.busy hrun
  refine ⟨hlatches.moves.fetchesBehind rfl, fun ht => (State.refCommitted_running ht).1, fun _ => ?_⟩
  rw [hcycle, hcount, s.writesBack_of_running hrun]
  cases target with
  | some n =>
    have hinFlight := hlatches.inFlight_of_flush
    cases hlatches.moves with
    | flush hidEx hifId' hidEx' hpc hstalls =>
      have hbehind := h.behind.drainCycles hidEx
      have hdrain := State.drainCycles_of_flushed hifId' hidEx' (hexMem.trans hidEx)
      rw [hpc, State.refCommitted_progLen] at hdrain
      rw [State.flushesInside_of_flush hrun htick, hstalls]
      omega
  | none =>
    have hinFlight := hlatches.inFlight_of_no_flush
    rw [State.flushesInside_of_no_flush htick, Bool.toNat_false]
    cases hlatches.moves with
    | stall hifId hifId' _ hpc hstalls =>
      rw [hstalls, State.drainCycles_of_ifId hifId, State.drainCycles_of_ifId hifId']
      omega
    | fetch hlt hifId' _ hpc hstalls =>
      rw [hstalls, State.drainCycles_of_fetching hlt, State.drainCycles_of_ifId hifId']
      omega
    | exhausted hge hifId' hidEx' hpc hstalls =>
      rw [hstalls, State.drainCycles_of_exhausted hbusy hge (hpc.symm ▸ hge) hifId' hidEx' hexMem hmemWb]
      omega

theorem State.Accounts.of_step {W F : Nat} (h : s.Accounts W F) (hstep : step s = .next t) :
    t.Accounts (W + s.writesBack.toNat) (F + s.flushesInside.toNat) := by
  by_cases hrun : s.status = .running
  · obtain ⟨D, st, hends, -, rfl⟩ | ⟨em, target, hlatches, htick, rfl⟩ := running_step_cases hrun hstep
    · obtain ⟨hfatal, -⟩ := hends.status
      exact ⟨h.behind, fun ht => absurd ht (Status.ne_running_of_fatal hfatal),
        fun hnot => absurd (hfatal.symm.trans hnot) (by decide)⟩
    · exact h.refCommitted hrun hlatches htick
  · cases (step_of_final hrun).symm.trans hstep
    rw [State.writesBack_of_final hrun, State.flushesInside_of_final hrun]
    exact h

theorem writeBacks_succ (k : Nat) (s : State) : writeBacks (k + 1) s = writeBacks k s + (runState k s).writesBack.toNat := by
  cases h : (runState k s).writesBack <;> simp [writeBacks, h]

theorem flushesInside_succ (k : Nat) (s : State) :
    flushesInside (k + 1) s = flushesInside k s + (runState k s).flushesInside.toNat := by
  cases h : (runState k s).flushesInside <;> simp [flushesInside, h]

/-- A predicate on the counts of a run and the state it has come to holds along the run when every step keeps it. -/
theorem runState_keeps_counts {P : Nat → Nat → State → Prop}
    (hkeeps : ∀ W F s t, P W F s → step s = .next t → P (W + s.writesBack.toNat) (F + s.flushesInside.toNat) t)
    (k : Nat) {s : State} (h : P 0 0 s) : P (writeBacks k s) (flushesInside k s) (runState k s) := by
  induction k with
  | zero => exact h
  | succ k ih =>
    rw [writeBacks_succ, flushesInside_succ]
    exact hkeeps _ _ _ _ ih (step_runState k s)

theorem State.launch_progLen_pos {program : List Instr} (h : program ≠ []) (l : Launch) :
    (State.launch program l).pc < (State.launch program l).progLen := List.length_pos_iff.mpr h

/-- At the launch of a program that is not empty, nothing has happened and there is something to fetch. -/
theorem State.launch_accounts {program : List Instr} (h : program ≠ []) (l : Launch) :
    (State.launch program l).Accounts 0 0 where
  behind hidEx := by cases hidEx
  busy _ hout := absurd (State.launch_progLen_pos h l) (Nat.not_lt.mpr hout.pc)
  count _ := by rw [State.drainCycles_of_fetching (State.launch_progLen_pos h l)]; rfl

/-! ### A program without branches -/

/-- After `W` write-backs of a program without `beq`, every instruction below the pc is in flight or has written back, and
no flush has come. -/
structure State.Straight (W F : Nat) (s : State) : Prop where
  inv : s.Inv
  noBranch : ∀ i ∈ s.program, i.op ≠ .beq
  count : s.status.fatal = false → W + s.inFlight = s.pc ∧ s.pc ≤ s.progLen
  noFlush : F = 0

/-- No `beq` in the program, no flush (44_branch.md R190). -/
theorem State.Straight.no_flush {W F : Nat} (h : s.Straight W F) (hlatches : s.TickLatches em target) : target = none := by
  cases target with
  | none => rfl
  | some n =>
    obtain ⟨e, he, hbranch⟩ := hlatches.branch_of_flush
    obtain ⟨hrecord, hctrl, -⟩ := h.inv.idEx e he
    have hop : e.instr.op ≠ .beq := h.noBranch _ (List.mem_of_getElem? hrecord)
    rw [hctrl] at hbranch
    exact absurd hbranch (by cases hop' : e.instr.op <;> simp_all [ctrl])

theorem State.Straight.refCommitted {W F : Nat} (h : s.Straight W F) (hrun : s.status = .running)
    (hlatches : s.TickLatches em none) (htick : s.cycleTick = s.finishedTick em none) :
    (s.refCommitted em none).Straight (W + s.writesBack.toNat) (F + s.flushesInside.toNat) := by
  obtain ⟨hcount, hle⟩ := h.count (by rw [hrun]; rfl)
  have hinFlight := hlatches.inFlight_of_no_flush
  refine ⟨h.inv.refCommitted hlatches, h.noBranch, fun _ => ?_, ?_⟩
  · rw [State.refCommitted_progLen, s.writesBack_of_running hrun]
    refine ⟨by omega, ?_⟩
    cases hlatches.moves with
    | stall _ _ _ hpc => rw [hpc]; exact hle
    | fetch hlt _ _ hpc => rw [hpc]; exact hlt
    | exhausted _ _ _ hpc => rw [hpc]; exact hle
  · rw [State.flushesInside_of_no_flush htick]
    exact h.noFlush

theorem State.Straight.of_step {W F : Nat} (h : s.Straight W F) (hstep : step s = .next t) :
    t.Straight (W + s.writesBack.toNat) (F + s.flushesInside.toNat) := by
  by_cases hrun : s.status = .running
  · obtain ⟨D, st, hends, hrest, rfl⟩ | ⟨em, target, hlatches, htick, rfl⟩ := running_step_cases hrun hstep
    · obtain ⟨hfatal, -⟩ := hends.status
      refine ⟨h.inv.of_step hstep, h.noBranch, fun hnot => absurd (hfatal.symm.trans hnot) (by decide), ?_⟩
      simpa [State.flushesInside, hrest] using h.noFlush
    · obtain rfl := h.no_flush hlatches
      exact h.refCommitted hrun hlatches htick
  · cases (step_of_final hrun).symm.trans hstep
    rw [State.writesBack_of_final hrun, State.flushesInside_of_final hrun]
    exact h

theorem State.launch_straight {program : List Instr} {l : Launch} (hl : l.wellFormed = true)
    (h : ∀ i ∈ program, i.op ≠ .beq) : (State.launch program l).Straight 0 0 where
  inv := State.launch_inv program hl
  noBranch := h
  count _ := ⟨rfl, Nat.zero_le _⟩
  noFlush := rfl

/-- Settles O59: a terminated run has nothing in flight and has drained for four cycles; without a `beq` its pc, which has
come to N, counts the write-backs. -/
theorem cycleCountFormula : Obligations.CycleCountFormula := by
  intro program l k hl hne hst
  have hout := (runState_follows program hl k).terminated hst
  have hfatal : (runState k (State.launch program l)).status.fatal = false := by rw [hst]; rfl
  refine ⟨?formula, fun hbranch => ?straight⟩
  case formula =>
    have haccounts := runState_keeps_counts (P := State.Accounts) (fun _ _ _ _ h => h.of_step) k (State.launch_accounts hne l)
    have hcount := haccounts.count hfatal
    rw [hout.inFlight_eq, hout.drainCycles_eq] at hcount
    exact hcount
  case straight =>
    have hstraight := runState_keeps_counts (P := State.Straight) (fun _ _ _ _ h => h.of_step) k
      (State.launch_straight hl hbranch)
    obtain ⟨hcount, hle⟩ := hstraight.count hfatal
    obtain ⟨hprogram, -, -⟩ := runState_launch_frame program l k
    have hpc := hout.pc
    rw [State.progLen, hprogram] at hpc hle
    rw [hout.inFlight_eq] at hcount
    exact ⟨by omega, hstraight.noFlush⟩

end Sys2Proof.Machine
end

