-- ==== Sys2Proof/Proofs/Encoding.lean ====
section
/-! The packed instruction word (30_encoding.md R84 to R90). A word is the concatenation of its fields in either format, a
row of the opcode map is a condition on the fields, and a record decodes from the word whose fields it holds. -/

namespace Sys2Proof

variable {w : Word} {op op' : Op}

/-! ### A word and its fields -/

theorem append_eq_append_iff {m n : Nat} {a c : BitVec m} {b d : BitVec n} : a ++ b = c ++ d ↔ a = c ∧ b = d := by
  constructor
  · intro h
    have hhigh := congrArg (BitVec.extractLsb' n m) h
    have hlow := congrArg (BitVec.extractLsb' 0 n) h
    rw [BitVec.extractLsb'_append_eq_left, BitVec.extractLsb'_append_eq_left] at hhigh
    rw [BitVec.extractLsb'_append_eq_right, BitVec.extractLsb'_append_eq_right] at hlow
    exact ⟨hhigh, hlow⟩
  · rintro ⟨rfl, rfl⟩
    rfl

section rFormat
variable (funct : BitVec 6) (rs rt rd : RegIdx)

/-- The R format (30_encoding.md R85). -/
theorem rFields_append (w : BitVec (6 + 5 + 5 + 5 + 5 + 6)) :
    opcodeField w ++ rsField w ++ rtField w ++ rdField w ++ shamtField w ++ functField w = w := by
  unfold opcodeField rsField rtField rdField shamtField functField
  repeat rw [BitVec.extractLsb'_append_extractLsb'_eq_extractLsb' (by decide)]
  exact BitVec.extractLsb'_eq_self

@[simp] theorem opcodeField_encodeR : opcodeField (encodeR rs rt rd funct) = 0x00 := by
  change (0#6 ++ rs ++ rt ++ rd ++ 0#5 ++ funct).extractLsb' 26 6 = _
  repeat rw [BitVec.extractLsb'_append_eq_of_le (by decide)]
  exact BitVec.extractLsb'_eq_self

@[simp] theorem rsField_encodeR : rsField (encodeR rs rt rd funct) = rs := by
  change (0#6 ++ rs ++ rt ++ rd ++ 0#5 ++ funct).extractLsb' 21 5 = _
  repeat rw [BitVec.extractLsb'_append_eq_of_le (by decide)]
  exact BitVec.extractLsb'_append_eq_right

@[simp] theorem rtField_encodeR : rtField (encodeR rs rt rd funct) = rt := by
  change (0#6 ++ rs ++ rt ++ rd ++ 0#5 ++ funct).extractLsb' 16 5 = _
  repeat rw [BitVec.extractLsb'_append_eq_of_le (by decide)]
  exact BitVec.extractLsb'_append_eq_right

@[simp] theorem rdField_encodeR : rdField (encodeR rs rt rd funct) = rd := by
  change (0#6 ++ rs ++ rt ++ rd ++ 0#5 ++ funct).extractLsb' 11 5 = _
  repeat rw [BitVec.extractLsb'_append_eq_of_le (by decide)]
  exact BitVec.extractLsb'_append_eq_right

@[simp] theorem shamtField_encodeR : shamtField (encodeR rs rt rd funct) = 0 := by
  change (0#6 ++ rs ++ rt ++ rd ++ 0#5 ++ funct).extractLsb' 6 5 = _
  rw [BitVec.extractLsb'_append_eq_of_le (by decide)]
  exact BitVec.extractLsb'_append_eq_right

@[simp] theorem functField_encodeR : functField (encodeR rs rt rd funct) = funct :=
  BitVec.extractLsb'_append_eq_right

/-- What opcode 0 and shamt 0 leave of a word is its R format. -/
theorem encodeR_fields (hopcode : opcodeField w = 0x00) (hshamt : shamtField w = 0) :
    encodeR (rsField w) (rtField w) (rdField w) (functField w) = w := by
  have hw := rFields_append w
  rw [hopcode, hshamt] at hw
  exact hw

end rFormat

section iFormat
variable (opcode : BitVec 6) (rs rt : RegIdx) (imm : Imm)

/-- The I format (30_encoding.md R86). -/
theorem encodeI_fields (w : Word) : encodeI (opcodeField w) (rsField w) (rtField w) (immField w) = w := by
  unfold encodeI opcodeField rsField rtField immField
  repeat rw [BitVec.extractLsb'_append_extractLsb'_eq_extractLsb' (by decide)]
  exact BitVec.extractLsb'_eq_self

@[simp] theorem opcodeField_encodeI : opcodeField (encodeI opcode rs rt imm) = opcode := by
  change (opcode ++ rs ++ rt ++ imm).extractLsb' 26 6 = _
  repeat rw [BitVec.extractLsb'_append_eq_of_le (by decide)]
  exact BitVec.extractLsb'_eq_self

@[simp] theorem rsField_encodeI : rsField (encodeI opcode rs rt imm) = rs := by
  change (opcode ++ rs ++ rt ++ imm).extractLsb' 21 5 = _
  repeat rw [BitVec.extractLsb'_append_eq_of_le (by decide)]
  exact BitVec.extractLsb'_append_eq_right

@[simp] theorem rtField_encodeI : rtField (encodeI opcode rs rt imm) = rt := by
  change (opcode ++ rs ++ rt ++ imm).extractLsb' 16 5 = _
  rw [BitVec.extractLsb'_append_eq_of_le (by decide)]
  exact BitVec.extractLsb'_append_eq_right

@[simp] theorem immField_encodeI : immField (encodeI opcode rs rt imm) = imm :=
  BitVec.extractLsb'_append_eq_right

end iFormat

/-! ### The opcode map -/

/-- The fields of a word select `op` (30_encoding.md R87). -/
def Op.Selects (op : Op) (w : Word) : Prop :=
  match op with
  | .add => opcodeField w = 0x00 ∧ shamtField w = 0 ∧ functField w = 0x20
  | .sub => opcodeField w = 0x00 ∧ shamtField w = 0 ∧ functField w = 0x22
  | .lw => opcodeField w = 0x23
  | .sw => opcodeField w = 0x2B
  | .beq => opcodeField w = 0x04

/-- The mask of an R format row keeps opcode, shamt and funct and clears the registers. -/
theorem append_and_rMask_eq_iff (opcode funct funct' : BitVec 6) (rs rt rd shamt : BitVec 5) :
    (opcode ++ rs ++ rt ++ rd ++ shamt ++ funct) &&& (0x3F#6 ++ 0#5 ++ 0#5 ++ 0#5 ++ 0x1F#5 ++ 0x3F#6) =
        0#6 ++ 0#5 ++ 0#5 ++ 0#5 ++ 0#5 ++ funct' ↔
      opcode = 0 ∧ shamt = 0 ∧ funct = funct' := by
  have hkeep6 : ∀ b : BitVec 6, b &&& 0x3F#6 = b := fun b => BitVec.and_allOnes
  have hkeep5 : ∀ b : BitVec 5, b &&& 0x1F#5 = b := fun b => BitVec.and_allOnes
  simp only [BitVec.and_append, hkeep6, hkeep5, BitVec.and_zero, append_eq_append_iff, and_true, and_assoc]
  rfl

theorem and_rMask_eq_iff {funct : BitVec 6} :
    w &&& 0xFC0007FF = encodeR 0 0 0 funct ↔ opcodeField w = 0x00 ∧ shamtField w = 0 ∧ functField w = funct := by
  have hmask : 0xFC0007FF = 0x3F#6 ++ 0#5 ++ 0#5 ++ 0#5 ++ 0x1F#5 ++ 0x3F#6 := by decide
  conv_lhs => rw [← rFields_append w, hmask]
  exact append_and_rMask_eq_iff ..

/-- The mask of an I format row keeps the opcode alone. -/
theorem append_and_iMask_eq_iff (opcode opcode' : BitVec 6) (rs rt : BitVec 5) (imm : BitVec 16) :
    (opcode ++ rs ++ rt ++ imm) &&& (0x3F#6 ++ 0#5 ++ 0#5 ++ 0#16) = opcode' ++ 0#5 ++ 0#5 ++ 0#16 ↔ opcode = opcode' := by
  have hkeep : ∀ b : BitVec 6, b &&& 0x3F#6 = b := fun b => BitVec.and_allOnes
  simp only [BitVec.and_append, hkeep, BitVec.and_zero, append_eq_append_iff, and_true]

theorem and_iMask_eq_iff {opcode : BitVec 6} : w &&& 0xFC000000 = encodeI opcode 0 0 0 ↔ opcodeField w = opcode := by
  have hmask : 0xFC000000 = 0x3F#6 ++ 0#5 ++ 0#5 ++ 0#16 := by decide
  conv_lhs => rw [← encodeI_fields w, hmask]
  exact append_and_iMask_eq_iff ..

/-- A row selects a word by the fields of the word. -/
theorem selects_iff {r : OpRow} (hr : r ∈ opRows) : r.selects w = true ↔ r.op.Selects w := by
  simp only [OpRow.selects, beq_iff_eq]
  simp only [opRows, List.mem_cons, List.not_mem_nil, or_false] at hr
  obtain rfl | rfl | rfl | rfl | rfl := hr
  · exact and_rMask_eq_iff (funct := 0x20)
  · exact and_rMask_eq_iff (funct := 0x22)
  · exact and_iMask_eq_iff (opcode := 0x23)
  · exact and_iMask_eq_iff (opcode := 0x2B)
  · exact and_iMask_eq_iff (opcode := 0x04)

/-- The operation that selects a word, by its opcode, or by its funct where the opcode is 0. -/
theorem Op.Selects.eq (h : op.Selects w) :
    op = if opcodeField w = 0x23 then .lw else if opcodeField w = 0x2B then .sw else if opcodeField w = 0x04 then .beq
      else if functField w = 0x20 then .add else .sub := by
  cases op <;> simp_all [Op.Selects]

theorem Op.Selects.unique (h : op.Selects w) (h' : op'.Selects w) : op = op' := h.eq.trans h'.eq.symm

theorem opRow_eq_of_op_eq : ∀ r ∈ opRows, ∀ r' ∈ opRows, r.op = r'.op → r = r' := by decide

/-- Settles O4: two rows that select a word are rows of one operation, and each operation has one row. -/
theorem opcodeRowsAreDisjoint : Obligations.OpcodeRowsAreDisjoint := by
  intro w r r' hr hr' hsel hsel'
  exact opRow_eq_of_op_eq r hr r' hr' (((selects_iff hr).mp hsel).unique ((selects_iff hr').mp hsel'))

theorem exists_opRow (op : Op) : ∃ r ∈ opRows, r.op = op := by
  cases op <;> decide

theorem selectOp_eq_some_iff : selectOp w = some op ↔ op.Selects w := by
  have hsound : ∀ {op : Op}, selectOp w = some op → op.Selects w := by
    intro op h
    obtain ⟨r, hfind, rfl⟩ := Option.map_eq_some_iff.mp h
    have hsel : r.selects w = true := List.find?_some (p := (OpRow.selects · w)) hfind
    exact (selects_iff (List.mem_of_find?_eq_some hfind)).mp hsel
  refine ⟨hsound, fun h => ?_⟩
  obtain ⟨r, hr, rfl⟩ := exists_opRow op
  have hfound : (opRows.find? (OpRow.selects · w)).isSome := List.find?_isSome.mpr ⟨r, hr, (selects_iff hr).mpr h⟩
  obtain ⟨r', hfind⟩ := Option.isSome_iff_exists.mp hfound
  have hr' : selectOp w = some r'.op := congrArg (Option.map OpRow.op) hfind
  rw [hr', (hsound hr').unique h]

theorem selectOp_eq_none_iff : selectOp w = none ↔ ∀ op : Op, ¬ op.Selects w := by
  simp only [← selectOp_eq_some_iff, Option.eq_none_iff_forall_ne_some, ne_eq]

/-! ### Decoding -/

/-- The record that the fields of a word hold for `op` (30_encoding.md R88). -/
def Op.record (op : Op) (w : Word) : Instr :=
  match op with
  | .add => .add (rdField w) (rsField w) (rtField w)
  | .sub => .sub (rdField w) (rsField w) (rtField w)
  | .lw => .lw (rtField w) (immField w) (rsField w)
  | .sw => .sw (rtField w) (immField w) (rsField w)
  | .beq => .beq (rsField w) (rtField w) (immField w)

theorem decode_of_selects (h : op.Selects w) : decode w = .ok (op.record w) := by
  rw [decode, selectOp_eq_some_iff.mpr h]
  cases op <;> rfl

theorem decode_of_none_selects (h : ∀ op : Op, ¬ op.Selects w) : decode w = .error (illegalReason w) := by
  rw [decode, selectOp_eq_none_iff.mpr h]

/-- A word that decodes is selected by one operation, and decodes to what its fields hold for it. -/
theorem decode_eq_ok_iff {i : Instr} : decode w = .ok i ↔ ∃ op : Op, op.Selects w ∧ i = op.record w := by
  constructor
  · intro h
    by_cases hsel : ∃ op : Op, op.Selects w
    · obtain ⟨op, hop⟩ := hsel
      exact ⟨op, hop, (Except.ok.inj ((decode_of_selects hop).symm.trans h)).symm⟩
    · cases (decode_of_none_selects (not_exists.mp hsel)).symm.trans h
  · rintro ⟨op, hop, rfl⟩
    exact decode_of_selects hop

theorem exists_decode_error_iff : (∃ e, decode w = .error e) ↔ ∀ op : Op, ¬ op.Selects w := by
  constructor
  · rintro ⟨e, he⟩ op hop
    cases (decode_of_selects hop).symm.trans he
  · exact fun h => ⟨_, decode_of_none_selects h⟩

/-- Settles O2: the fields of a record's word select its operation and hold its operands. -/
theorem decodeEncodeAgree : Obligations.DecodeEncodeAgree := by
  intro i
  rw [decode_eq_ok_iff]
  refine ⟨i.op, ?selects, ?record⟩
  case selects => cases i <;> simp [Instr.op, Op.Selects, encode]
  case record => cases i <;> simp [Instr.op, Op.record, encode]

/-- The word of the record that a selected word holds is the word again: what the record drops, the selection fixes. -/
theorem encode_record (h : op.Selects w) : encode (op.record w) = w := by
  cases op with
  | add =>
    obtain ⟨hopcode, hshamt, hfunct⟩ := h
    rw [Op.record, encode, ← hfunct, encodeR_fields hopcode hshamt]
  | sub =>
    obtain ⟨hopcode, hshamt, hfunct⟩ := h
    rw [Op.record, encode, ← hfunct, encodeR_fields hopcode hshamt]
  | lw | sw | beq =>
    have hopcode := encodeI_fields w
    rwa [h] at hopcode

/-- Settles O3: a word that decodes is selected, and its record keeps every field the selection does not fix. -/
theorem encodeDecodeAgree : Obligations.EncodeDecodeAgree := by
  intro w i h
  obtain ⟨op, hop, rfl⟩ := decode_eq_ok_iff.mp h
  exact encode_record hop

theorem Op.forall_iff {P : Op → Prop} : (∀ op, P op) ↔ P .add ∧ P .sub ∧ P .lw ∧ P .sw ∧ P .beq :=
  ⟨fun h => ⟨h _, h _, h _, h _, h _⟩, fun ⟨hadd, hsub, hlw, hsw, hbeq⟩ op => by cases op <;> assumption⟩

/-- Settles O5: the fields select none of the five operations. -/
theorem refusesExactlyIllegalWords : Obligations.RefusesExactlyIllegalWords := by
  intro w
  rw [exists_decode_error_iff, Op.forall_iff]
  simp only [Op.Selects]
  by_cases hopcode : opcodeField w = 0x00
  · have hother : opcodeField w ≠ 0x23 ∧ opcodeField w ≠ 0x2B ∧ opcodeField w ≠ 0x04 := by rw [hopcode]; decide
    tauto
  · tauto

/-- Settles O1: the seven words are decoded by computation. -/
theorem decodesSpecWords : Obligations.DecodesSpecWords := by
  unfold Obligations.DecodesSpecWords
  decide

end Sys2Proof
end

