-- ==== Sys2Proof/Proofs/InvariantStatements.lean ====
section
/-! The invariant of the core and the refinement of one tick, as the statements ask for them: both rest on the two ends of a
tick, an abort and a commit. -/

namespace Sys2Proof.Machine

/-- Settles O55: an abort keeps the latches, and a commit keeps the invariant latch by latch. -/
theorem stepKeepsInvariant : Obligations.StepKeepsInvariant := fun _ _ hinv hstep => hinv.of_step hstep

/-- Settles O11: a launch has a bubble in every latch, and fills registers and data memory with what the invariant asks. -/
theorem launchMeetsInvariant : Obligations.LaunchMeetsInvariant := fun program _ hl => State.launch_inv program hl

theorem Launch.default_wellFormed : Launch.default.wellFormed = true := by decide

/-- The reset state is the launch of no program with the model's own launch values (log entries 4 to 7). -/
theorem State.reset_eq_launch : State.reset = State.launch [] Launch.default := rfl

/-- Settles O10: the reset state is a launch with parameters in range. -/
theorem resetMeetsInvariant : Obligations.ResetMeetsInvariant := by
  unfold Obligations.ResetMeetsInvariant
  rw [State.reset_eq_launch]
  exact State.launch_inv [] Launch.default_wellFormed

/-- Settles O57: an abort is the error the sequential machine has come to or comes to next, a missed hazard being excluded by
the invariant; a commit completes the instruction in EX. -/
theorem stepSimulatesSequentialMachine : Obligations.StepSimulatesSequentialMachine := by
  intro s t hinv hrun hstep
  obtain ⟨D, st, hends, -, rfl⟩ | ⟨em, target, hlatches, -, rfl⟩ := running_step_cases hrun hstep
  · cases st with
    | addressError p c => exact State.sequential_of_addressError hends
    | branchTargetError p c => exact hinv.sequential_of_branchTargetError hrun hends
    | hazardDefect c => exact hinv.noMissedHazard.refExecute_ne_hazardDefect c hends.of_hazardDefect
    | running | terminated | overrun => cases hends.status.1
  · have hseq := hinv.sequential_of_tickLatches hrun hlatches
    obtain ⟨-, hst⟩ | ⟨-, -, hst⟩ | ⟨-, -, hst⟩ := s.refCommitted_status_cases em target
    · rw [hst]
      exact hseq
    · rw [hst]
      exact hseq
    · rw [hst]
      exact hseq

end Sys2Proof.Machine
end

