-- ==== Sys2Proof/Proofs/Loading.lean ====
section
/-! The loader (30_encoding.md R81 to R83, R90, R92): a program is converted element by element, and a line passes its checks
one after another. -/

namespace Sys2Proof.Machine

/-! ### Converting every element -/

section convertAll
variable {α β ε : Type} {f : α → Except ε β} {as : List α} {bs : List β}

theorem convertAll_cons_eq_ok_iff {a : α} :
    convertAll f (a :: as) = .ok bs ↔ ∃ b bs', f a = .ok b ∧ convertAll f as = .ok bs' ∧ bs = b :: bs' := by
  rw [convertAll]
  cases f a with
  | error e => simp
  | ok b =>
    cases convertAll f as with
    | error e => simp
    | ok bs' => simp [eq_comm]

/-- Each element of the result is what the element of the same place converts to. -/
theorem convertAll_eq_ok_iff : convertAll f as = .ok bs ↔ List.Forall₂ (fun a b => f a = .ok b) as bs := by
  induction as generalizing bs with
  | nil => simp [convertAll, eq_comm]
  | cons a as ih => simp only [convertAll_cons_eq_ok_iff, ih, List.forall₂_cons_left_iff]

theorem exists_convertAll_iff : (∃ bs, convertAll f as = .ok bs) ↔ ∀ a ∈ as, ∃ b, f a = .ok b := by
  induction as with
  | nil => simp [convertAll]
  | cons a as ih =>
    rw [List.forall_mem_cons, ← ih]
    constructor
    · rintro ⟨_, h⟩
      obtain ⟨b, bs, hb, hbs, -⟩ := convertAll_cons_eq_ok_iff.mp h
      exact ⟨⟨b, hb⟩, bs, hbs⟩
    · rintro ⟨⟨b, hb⟩, bs, hbs⟩
      exact ⟨b :: bs, convertAll_cons_eq_ok_iff.mpr ⟨b, bs, hb, hbs, rfl⟩⟩

theorem convertAll_length (h : convertAll f as = .ok bs) : bs.length = as.length :=
  (convertAll_eq_ok_iff.mp h).length_eq.symm

theorem convertAll_getElem? (h : convertAll f as = .ok bs) {k : Nat} {a : α} (ha : as[k]? = some a) :
    ∃ b, f a = .ok b ∧ bs[k]? = some b := by
  induction as generalizing bs k with
  | nil => cases ha
  | cons a' as ih =>
    obtain ⟨b, bs', hb, hbs, rfl⟩ := convertAll_cons_eq_ok_iff.mp h
    cases k with
    | zero =>
      cases ha
      exact ⟨b, hb, rfl⟩
    | succ k => exact ih hbs ha

end convertAll

/-! ### Packed words -/

theorem loadWord_eq_ok_iff {w : Word} {i : Instr} : loadWord w = .ok i ↔ decode w = .ok i := by
  unfold loadWord
  cases decode w <;> simp

/-- The record that a word loads as is the one it decodes to, at the place of the word. -/
theorem loadWords_getElem? {ws : List Word} {p : List Instr} (h : loadWords ws = .ok p) {k : Nat} {w : Word}
    (hw : ws[k]? = some w) : ∃ i, decode w = .ok i ∧ p[k]? = some i := by
  obtain ⟨i, hi, hp⟩ := convertAll_getElem? h hw
  exact ⟨i, loadWord_eq_ok_iff.mp hi, hp⟩

/-- Settles O6: the conversion is word by word, and a word loads as what it decodes to. -/
theorem loadWordsDecodesEachWord : Obligations.LoadWordsDecodesEachWord := by
  intro ws
  refine ⟨?loads, fun p hp => ⟨convertAll_length hp, fun k w hw => loadWords_getElem? hp hw⟩⟩
  case loads => simp only [loadWords, exists_convertAll_iff, loadWord_eq_ok_iff]

/-! ### The checks of a line -/

theorem parseLine_eq_ok_iff {l : Line} {i : Instr} :
    parseLine l = .ok i ↔ ∃ w args op r, lineWords false false [] l = some (w :: args) ∧ parseOp w = some op ∧
      parseOperands op args = .ok r ∧ r.check = .ok i := by
  unfold parseLine
  split
  · next hl => simp [hl]
  · next hl => simp [hl]
  · next w args hl =>
    cases hop : parseOp w with
    | none => simp [hl, hop]
    | some op => cases hargs : parseOperands op args <;> simp [hl, hop, hargs, Except.bind]

/-- The mnemonic of an operation, as a line writes it (30_encoding.md R81, R92). -/
def mnemonic (op : Op) : String :=
  match op with
  | .add => "add"
  | .sub => "sub"
  | .lw => "lw"
  | .sw => "sw"
  | .beq => "beq"

theorem parseOp_mnemonic (op : Op) : parseOp (mnemonic op).toList = some op := by
  cases op <;> decide

theorem parseOp_eq_some_iff {w : Line} {op : Op} : parseOp w = some op ↔ w = (mnemonic op).toList := by
  refine ⟨fun h => ?_, by rintro rfl; exact parseOp_mnemonic op⟩
  unfold parseOp at h
  split_ifs at h with hadd hsub hlw hsw hbeq
  · cases h; exact hadd
  · cases h; exact hsub
  · cases h; exact hlw
  · cases h; exact hsw
  · cases h; exact hbeq

section bind
variable {α β : Type} {o : Option α} {f : α → Except InputError β}

/-- An operand that parses is handed on. -/
theorem orIntParse_bind_eq_ok_iff {b : β} : (orIntParse o >>= f) = .ok b ↔ ∃ a, o = some a ∧ f a = .ok b := by
  cases o <;> simp [orIntParse, bind, Except.bind]

/-- An operand that does not parse is named `int_parse`, never `arity`. -/
theorem orIntParse_bind_ne_arity (h : ∀ a, f a ≠ .error .arity) : (orIntParse o >>= f) ≠ .error .arity := by
  cases o with
  | none => simp [orIntParse, bind, Except.bind]
  | some a => exact h a

end bind

theorem pure_eq_ok_iff {r r' : RawRecord} : (pure r : Except InputError RawRecord) = .ok r' ↔ r = r' :=
  ⟨Except.ok.inj, congrArg Except.ok⟩

theorem RawRecord.eq_iff {r : RawRecord} {op : Op} {rs rt rd imm : Int} :
    { op := op, rs := rs, rt := rt, rd := rd, imm := imm } = r ↔
      r.op = op ∧ r.rs = rs ∧ r.rt = rt ∧ r.rd = rd ∧ r.imm = imm := by
  cases r
  simp [eq_comm]

section operands
variable {op : Op} {a b c m : Line} {r : RawRecord}

theorem parseOperands_arith (hop : op = .add ∨ op = .sub) :
    parseOperands op [a, b, c] = .ok r ↔ r.op = op ∧ r.imm = 0 ∧
      parseReg a = some r.rd ∧ parseReg b = some r.rs ∧ parseReg c = some r.rt := by
  obtain rfl | rfl := hop
  all_goals
    simp only [parseOperands, orIntParse_bind_eq_ok_iff, pure_eq_ok_iff, RawRecord.eq_iff]
    constructor
    · rintro ⟨_, hrd, _, hrs, _, hrt, hop, rfl, rfl, rfl, himm⟩
      exact ⟨hop, himm, hrd, hrs, hrt⟩
    · rintro ⟨hop, himm, hrd, hrs, hrt⟩
      exact ⟨_, hrd, _, hrs, _, hrt, hop, rfl, rfl, rfl, himm⟩

theorem parseOperands_mem (hop : op = .lw ∨ op = .sw) :
    parseOperands op [a, m] = .ok r ↔ r.op = op ∧ r.rd = 0 ∧ parseReg a = some r.rt ∧ parseMem m = some (r.imm, r.rs) := by
  obtain rfl | rfl := hop
  all_goals
    simp only [parseOperands, orIntParse_bind_eq_ok_iff, pure_eq_ok_iff, RawRecord.eq_iff]
    constructor
    · rintro ⟨_, hrt, ⟨_, _⟩, hmem, hop, rfl, rfl, hrd, rfl⟩
      exact ⟨hop, hrd, hrt, hmem⟩
    · rintro ⟨hop, hrd, hrt, hmem⟩
      exact ⟨_, hrt, _, hmem, hop, rfl, rfl, hrd, rfl⟩

theorem parseOperands_beq :
    parseOperands .beq [a, b, c] = .ok r ↔ r.op = .beq ∧ r.rd = 0 ∧
      parseReg a = some r.rs ∧ parseReg b = some r.rt ∧ parseInt c = some r.imm := by
  simp only [parseOperands, orIntParse_bind_eq_ok_iff, pure_eq_ok_iff, RawRecord.eq_iff]
  constructor
  · rintro ⟨_, hrs, _, hrt, _, himm, hop, rfl, rfl, hrd, rfl⟩
    exact ⟨hop, hrd, hrs, hrt, himm⟩
  · rintro ⟨hop, hrd, hrs, hrt, himm⟩
    exact ⟨_, hrs, _, hrt, _, himm, hop, rfl, rfl, hrd, rfl⟩

/-- Operands in the right number fail by `int_parse` alone. -/
theorem parseOperands_three_ne_arity (hop : ¬ (op = .lw ∨ op = .sw)) : parseOperands op [a, b, c] ≠ .error .arity := by
  cases op with
  | add | sub | beq =>
    exact orIntParse_bind_ne_arity fun _ => orIntParse_bind_ne_arity fun _ => orIntParse_bind_ne_arity fun _ => nofun
  | lw | sw => simp at hop

theorem parseOperands_two_ne_arity (hop : op = .lw ∨ op = .sw) : parseOperands op [a, m] ≠ .error .arity := by
  obtain rfl | rfl := hop
  all_goals exact orIntParse_bind_ne_arity fun _ => orIntParse_bind_ne_arity fun _ => nofun

/-- `arity` is named for a wrong number of operands, and for nothing else. -/
theorem parseOperands_arity_iff {args : List Line} :
    parseOperands op args = .error .arity ↔ args.length ≠ if op = .lw ∨ op = .sw then 2 else 3 := by
  by_cases hop : op = .lw ∨ op = .sw
  · rw [if_pos hop]
    match args with
    | [a, m] => simp [parseOperands_two_ne_arity hop]
    | [] | [_] | _ :: _ :: _ :: _ => obtain rfl | rfl := hop <;> simp [parseOperands]
  · rw [if_neg hop]
    match args with
    | [a, b, c] => simp [parseOperands_three_ne_arity hop]
    | [] | [_] | [_, _] | _ :: _ :: _ :: _ :: _ => cases op <;> simp_all [parseOperands]

end operands

theorem regInRange_iff {r : Int} : regInRange r = true ↔ 0 ≤ r ∧ r ≤ 31 := by simp [regInRange]

theorem immInRange_iff {v : Int} : immInRange v = true ↔ -32768 ≤ v ∧ v ≤ 32767 := by simp [immInRange]

theorem RawRecord.regsInRange_iff {r : RawRecord} :
    r.regsInRange = true ↔ (0 ≤ r.rs ∧ r.rs ≤ 31) ∧ (0 ≤ r.rt ∧ r.rt ≤ 31) ∧ (0 ≤ r.rd ∧ r.rd ≤ 31) := by
  simp only [RawRecord.regsInRange, Bool.and_eq_true, regInRange_iff, and_assoc]

theorem RawRecord.check_eq (r : RawRecord) :
    r.check =
      if (0 ≤ r.rs ∧ r.rs ≤ 31) ∧ (0 ≤ r.rt ∧ r.rt ≤ 31) ∧ (0 ≤ r.rd ∧ r.rd ≤ 31) then
        if -32768 ≤ r.imm ∧ r.imm ≤ 32767 then .ok r.toInstr else .error .immRange
      else .error .regRange := by
  simp only [RawRecord.check, RawRecord.regsInRange_iff, immInRange_iff]

/-- Settles O7: the conversion is line by line, and the checks of a line are those of its mnemonic, of its operands and of its
record. -/
theorem loadTextIsLineByLine : Obligations.LoadTextIsLineByLine := by
  intro ls
  exact ⟨exists_convertAll_iff, fun p hp => ⟨convertAll_length hp, fun k l hl => convertAll_getElem? hp hl⟩,
    fun l i => parseLine_eq_ok_iff, fun w op => parseOp_eq_some_iff, fun op args => parseOperands_arity_iff,
    fun op a b c r hop => parseOperands_arith hop, fun op a m r hop => parseOperands_mem hop,
    fun a b c r => parseOperands_beq, RawRecord.check_eq⟩

end Sys2Proof.Machine
end

