-- ==== Sys2Proof/Proofs/StageEffects.lean ====
section
/-! What an instruction does in each stage, the whole next state written out (40_pipeline.md R103 to R125). Each stage has one
rule for each way it can go; a statement about one instruction is the rule at its control signals. -/

namespace Sys2Proof.Machine

variable {s t : State} {i : Instr} {d : IfId} {e : IdEx} {m : ExMem} {w : MemWb} {a b : Word} {fa fb : Bool}

/-! ### IF and ID -/

/-- Settles O17: Fetch does not look at the instruction. -/
theorem fetchLatchesTheRecord : Obligations.FetchLatchesTheRecord := fun _ _ hslot => exec_fetch hslot

theorem decodeStage_of_no_hazard (hd : s.ifId = some d) (hz : hazard i s.idEx s.exMem = false) :
    decodeStage i s = .next { s with tick := { s.tick with idEx := some (decodedBundle i d s.x), stall := false } } := by
  simp [decodeStage, hd, hz]

theorem decodeStage_of_hazard (hd : s.ifId = some d) (hz : hazard i s.idEx s.exMem = true) :
    decodeStage i s = .next { s with tick := { s.tick with idEx := none, stall := true } } := by
  simp [decodeStage, hd, hz]

/-- Settles O18: without a hazard ID leaves the decoded bundle; its destination is read off each instruction. -/
theorem decodeLatchesOperands : Obligations.DecodeLatchesOperands := by
  intro i s d hslot hd hz
  rw [exec_decode hslot, decodeStage_of_no_hazard hd hz]
  cases i <;> rfl

theorem loadUse_iff {idEx : Option IdEx} :
    loadUse i idEx = true ↔ ∃ e, idEx = some e ∧ e.ctrl.memRead = true ∧ e.dest ∈ sources i := by
  cases idEx <;> simp [loadUse]

theorem branchHazard_iff {idEx : Option IdEx} {exMem : Option ExMem} :
    branchHazard i idEx exMem = true ↔ i.op = .beq ∧
      ((∃ e, idEx = some e ∧ e.ctrl.regWrite = true ∧ e.dest ∈ sources i) ∨
       (∃ m, exMem = some m ∧ m.ctrl.memRead = true ∧ m.dest ∈ sources i)) := by
  cases idEx <;> cases exMem <;> simp [branchHazard]

/-- The Hazard Unit (41_hazard_forwarding.md R141, R142, R144). -/
theorem hazard_iff {idEx : Option IdEx} {exMem : Option ExMem} :
    hazard i idEx exMem = true ↔ (∃ e, idEx = some e ∧ e.ctrl.memRead = true ∧ e.dest ∈ sources i) ∨
      (i.op = .beq ∧
        ((∃ e, idEx = some e ∧ e.ctrl.regWrite = true ∧ e.dest ∈ sources i) ∨
         (∃ m, exMem = some m ∧ m.ctrl.memRead = true ∧ m.dest ∈ sources i))) := by
  rw [hazard, Bool.or_eq_true, loadUse_iff, branchHazard_iff]

/-- Settles O19: a hazard leaves a bubble; the Hazard Unit and the sources are said case by case. -/
theorem decodeStallsOnHazard : Obligations.DecodeStallsOnHazard := by
  refine ⟨fun i s d hslot hd hz => ?stalls, fun i idEx exMem => hazard_iff, fun i r => ?sources⟩
  case stalls => exact (exec_decode hslot).trans (decodeStage_of_hazard hd hz)
  case sources =>
    rw [mem_sources_iff]
    cases i <;> simp [Instr.op, Instr.rs, Instr.rt, and_comm, or_comm]

/-! ### EX -/

/-- The rt operand of `i` in EX: `lw` alone takes it unforwarded (40_pipeline.md R112; 41_hazard_forwarding.md R156). -/
def rtOperand (i : Instr) (s : State) (e : IdEx) : Operand :=
  if i.op = .lw then .value e.rtVal false else fwd i.rt e.rtVal s.exMem s.memWb

theorem exec_rtOperand (i : Instr) (s : State) (e : IdEx) :
    (if i.op = .lw then unforwardedRt else forwardedRt i s) e = rtOperand i s e := by
  unfold rtOperand
  split <;> rfl

theorem exec_execute_of_values (hslot : s.tick.slot = .execute) (he : s.idEx = some e)
    (ha : fwd i.rs e.rsVal s.exMem s.memWb = .value a fa) (hb : rtOperand i s e = .value b fb) :
    exec i s =
      resolveBranch i e a b (executedBundle i e (alu i.op a (secondOperand e.ctrl i.imm b)) b fa fb) s :=
  (exec_execute hslot).trans (executeStage_of_values he ha ((exec_rtOperand i s e).trans hb))

theorem exec_execute_of_defect (hslot : s.tick.slot = .execute) (he : s.idEx = some e)
    (h : fwd i.rs e.rsVal s.exMem s.memWb = .defect ∨ rtOperand i s e = .defect) :
    exec i s = .next (s.abort (.hazardDefect s.cycle)) :=
  (exec_execute hslot).trans (executeStage_of_defect he (h.imp_right (exec_rtOperand i s e).trans))

/-- EX of an instruction other than `beq`, with its own control signals: its result enters EX/MEM. -/
theorem exec_execute_of_not_beq {result : Word} (hslot : s.tick.slot = .execute) (he : s.idEx = some e)
    (hctrl : e.ctrl = ctrl i.op) (hop : i.op ≠ .beq) (ha : fwd i.rs e.rsVal s.exMem s.memWb = .value a fa)
    (hb : rtOperand i s e = .value b fb) (hresult : alu i.op a (secondOperand (ctrl i.op) i.imm b) = result) :
    exec i s = .next { s with tick := { s.tick with flush := none, exMem := some (executedBundle i e result b fa fb) } } := by
  have hfall : ¬ branchTaken e.ctrl a b = true := hctrl ▸ not_branchTaken hop a b
  rw [exec_execute_of_values hslot he ha hb, resolveBranch, if_neg hfall, hctrl, hresult]

theorem add_eq_ofNat (a b : Word) : a + b = BitVec.ofNat 32 ((a.toNat + b.toNat) % 2 ^ 32) :=
  BitVec.eq_of_toNat_eq (by simp)

theorem sub_eq_ofInt (a b : Word) : a - b = BitVec.ofInt 32 ((a.toInt - b.toInt) % 2 ^ 32) :=
  BitVec.eq_of_toInt_eq (by rw [BitVec.toInt_sub, BitVec.toInt_ofInt]; exact (Int.emod_bmod _ _).symm)

/-- The effective address over the integers (43_load_store.md R180 to R182). -/
theorem add_sext32_eq_ofInt (a : Word) (imm : Imm) : a + sext32 imm = BitVec.ofInt 32 (a.toInt + imm.toInt) :=
  BitVec.eq_of_toInt_eq (by simp [sext32, BitVec.toInt_signExtend_of_le])

/-- Settles O20: the result is the sum, modulo 2^32 over the naturals. -/
theorem addExecutes : Obligations.AddExecutes := by
  intro rd rs rt s e a b fa fb hslot he hctrl ha hb
  exact exec_execute_of_not_beq (i := .add rd rs rt) hslot he hctrl nofun ha hb (add_eq_ofNat a b)

/-- Settles O21: the result is the difference, modulo 2^32 over the integers. -/
theorem subExecutes : Obligations.SubExecutes := by
  intro rd rs rt s e a b fa fb hslot he hctrl ha hb
  exact exec_execute_of_not_beq (i := .sub rd rs rt) hslot he hctrl nofun ha hb (sub_eq_ofInt a b)

/-- Settles O22: the result is the effective address, and rt is as ID read it. -/
theorem lwExecutes : Obligations.LwExecutes := by
  intro rt imm rs s e a fa hslot he hctrl ha
  exact exec_execute_of_not_beq (i := .lw rt imm rs) hslot he hctrl nofun ha rfl (add_sext32_eq_ofInt a imm)

/-- Settles O23: the result is the effective address, and rt is the store data. -/
theorem swExecutes : Obligations.SwExecutes := by
  intro rt imm rs s e a b fa fb hslot he hctrl ha hb
  exact exec_execute_of_not_beq (i := .sw rt imm rs) hslot he hctrl nofun ha hb (add_sext32_eq_ofInt a imm)

/-- EX of a `beq`: the Branch Unit on its two operands. -/
theorem exec_execute_beq {rs rt : RegIdx} {imm : Imm} (hslot : s.tick.slot = .execute) (he : s.idEx = some e)
    (hctrl : e.ctrl = ctrl .beq) (ha : fwd rs e.rsVal s.exMem s.memWb = .value a fa)
    (hb : fwd rt e.rtVal s.exMem s.memWb = .value b fb) :
    exec (.beq rs rt imm) s =
      resolveBranch (.beq rs rt imm) e a b (executedBundle (.beq rs rt imm) e (a - b) b fa fb) s := by
  rw [exec_execute_of_values (i := .beq rs rt imm) hslot he ha hb, hctrl]
  rfl

theorem branchTaken_iff_of_ctrl (hctrl : e.ctrl = ctrl .beq) : branchTaken e.ctrl a b = true ↔ a = b :=
  hctrl ▸ branchTaken_beq_iff

/-- Settles O24: a `beq` is taken exactly when its operands are equal. -/
theorem beqExecutes : Obligations.BeqExecutes := by
  intro rs rt imm s e a b fa fb hslot he hctrl ha hb hpos
  rw [exec_execute_beq hslot he hctrl ha hb, resolveBranch]
  by_cases hab : a = b
  · have hnonneg : ¬ branchTarget e.pidx (Instr.beq rs rt imm).imm < 0 := Int.not_lt.mpr (hpos hab)
    rw [if_pos ((branchTaken_iff_of_ctrl hctrl).mpr hab), if_neg hnonneg, if_pos hab]
    rfl
  · rw [if_neg (mt (branchTaken_iff_of_ctrl hctrl).mp hab), if_neg hab]
    rfl

/-- Settles O25: a taken `beq` with a negative target aborts. -/
theorem beqNegativeTargetEndsTheRun : Obligations.BeqNegativeTargetEndsTheRun := by
  intro rs rt imm s e a fa fb hslot he hctrl ha hb hneg
  have hnegative : branchTarget e.pidx (Instr.beq rs rt imm).imm < 0 := hneg
  rw [exec_execute_beq hslot he hctrl ha hb, resolveBranch, if_pos ((branchTaken_iff_of_ctrl hctrl).mpr rfl),
    if_pos hnegative]
  rfl

/-- A load in EX/MEM supplies no value of its destination (41_hazard_forwarding.md R150). -/
theorem fwd_of_load {r : RegIdx} {v : Word} {memWb : Option MemWb} (hctrl : m.ctrl = ctrl .lw) (hr : r ≠ 0#5)
    (hdest : m.dest = r) : fwd r v (some m) memWb = .defect := by
  rw [fwd_exMem_of_writes hr (by rw [hctrl]; rfl) hdest, hctrl]
  rfl

/-- Settles O26: the load supplies neither rs nor, but for `lw`, rt. -/
theorem missedHazardEndsTheRun : Obligations.MissedHazardEndsTheRun := by
  intro i s e m hslot he hm hctrl hdest hsource
  refine exec_execute_of_defect hslot he ?_
  rw [rtOperand, hm]
  obtain hrs | ⟨hrt, hop⟩ := hsource
  · exact .inl (fwd_of_load hctrl (hrs ▸ hdest) hrs)
  · exact .inr ((if_neg hop).trans (fwd_of_load hctrl (hrt ▸ hdest) hrt))

/-! ### MEM -/

theorem exec_memory_of_access (hslot : s.tick.slot = .memory) (hm : s.exMem = some m)
    (hok : memFaults s.dmemBytes m = false) :
    exec i s = .next { s with
      dmem := accessedMemory m s.dmem, tick := { s.tick with memWb := some (accessedBundle i m s.dmem) } } := by
  simp [exec_memory hslot, memoryStage, hm, hok]

theorem exec_memory_of_fault (hslot : s.tick.slot = .memory) (hm : s.exMem = some m)
    (hfault : memFaults s.dmemBytes m = true) : exec i s = .next (s.abort (.addressError m.pidx s.cycle)) := by
  simp [exec_memory hslot, memoryStage, hm, hfault]

theorem memFaults_of_valid {n : Nat} (h : validAddress n m.aluResult = true) : memFaults n m = false := by
  simp [memFaults, h]

/-- The five rows of the control table, by what they access (40_pipeline.md R109). -/
theorem ctrl_memRead_iff {op : Op} : (ctrl op).memRead = true ↔ op = .lw := by cases op <;> decide

theorem ctrl_memWrite_iff {op : Op} : (ctrl op).memWrite = true ↔ op = .sw := by cases op <;> decide

/-- Settles O27: without an access there is nothing to check, to store or to load. -/
theorem arithAndBranchPassMemory : Obligations.ArithAndBranchPassMemory := by
  intro i s m hop hslot hm hctrl
  have hread : m.ctrl.memRead = false := by
    rw [hctrl]
    obtain h | h | h := hop <;> rw [h] <;> rfl
  have hwrite : m.ctrl.memWrite = false := by
    rw [hctrl]
    obtain h | h | h := hop <;> rw [h] <;> rfl
  rw [exec_memory_of_access hslot hm (by simp [memFaults, hread, hwrite])]
  simp [accessedMemory, accessedBundle, hread, hwrite]

/-- Settles O28: a load at a valid address reads memory and stores nothing. -/
theorem lwLoadsTheWord : Obligations.LwLoadsTheWord := by
  intro rt imm rs s m hslot hm hctrl hvalid
  rw [exec_memory_of_access hslot hm (memFaults_of_valid hvalid)]
  simp [accessedMemory, accessedBundle, hctrl, ctrl, memRead, addressKey, signed]

/-- Settles O29: the store at a valid address is one write, which keeps the canonical form and every other word. -/
theorem swStoresTheWord : Obligations.SwStoresTheWord := by
  intro rt imm rs s m hslot hm hctrl hvalid hwf
  refine ⟨memWrite s.dmem m.aluResult m.storeVal, ?next, Memory.wf_write _ _ hwf, fun a => ?read⟩
  case next =>
    rw [exec_memory_of_access hslot hm (memFaults_of_valid hvalid)]
    simp [accessedMemory, accessedBundle, hctrl, ctrl]
  case read =>
    rw [memWrite, Memory.read_write _ _ _ hwf]
    exact if_congr eq_comm rfl rfl

/-- The three causes of an AddressError (60_exceptions.md R212). -/
theorem validAddress_eq_false {n : Nat} (h : a.toInt < 0 ∨ (n : Int) ≤ a.toInt ∨ a.toInt % 4 ≠ 0) :
    validAddress n a = false := by
  rw [← Bool.not_eq_true, validAddress, signed, wordBytes]
  simp only [Bool.and_eq_true, decide_eq_true_eq]
  omega

/-- Settles O30: a load or store at an address that is not valid aborts. -/
theorem invalidAddressEndsTheRun : Obligations.InvalidAddressEndsTheRun := by
  intro i s m hop hslot hm hctrl hinvalid
  have haccess : (m.ctrl.memRead || m.ctrl.memWrite) = true := by
    rw [hctrl]
    obtain h | h := hop <;> rw [h] <;> rfl
  exact exec_memory_of_fault hslot hm (by rw [memFaults, haccess, validAddress_eq_false hinvalid]; rfl)

/-! ### WB -/

theorem exec_writeBack_of_some (hslot : s.tick.slot = .writeBack) (hw : s.memWb = some w) :
    exec i s = .next { s with x := writtenBack w s.x } := by
  simp [exec_writeBack hslot, writeBackStage, hw]

theorem ctrl_memToReg {op : Op} : (ctrl op).memToReg = decide (op = .lw) := by cases op <;> rfl

/-- Settles O31: a register writer writes its destination and no other register. -/
theorem writeBackWritesTheDestination : Obligations.WriteBackWritesTheDestination := by
  intro i s w hop hslot hw hctrl
  refine ⟨_, exec_writeBack_of_some hslot hw, writtenBack_getElem_zero w s.x, fun r => ?_⟩
  have hwrite : w.ctrl.regWrite = true := hctrl ▸ (ctrl_regWrite_iff i.op).mpr hop
  have hvalue : writeBackValue w = if i.op = .lw then w.loadedValue else w.aluResult := by
    simp [writeBackValue, hctrl, ctrl_memToReg]
  rw [readReg_writtenBack, hvalue]
  exact if_congr ⟨fun ⟨hr, _, hdest⟩ => ⟨hdest.symm, hr⟩, fun ⟨hdest, hr⟩ => ⟨hr, hwrite, hdest.symm⟩⟩ rfl rfl

/-- Settles O32: a bundle without RegWrite writes nothing back. -/
theorem storeAndBranchWriteNoRegister : Obligations.StoreAndBranchWriteNoRegister := by
  intro i s w hop hslot hw hctrl
  have hidle : w.ctrl.regWrite = false := by
    rw [hctrl]
    obtain h | h := hop <;> rw [h] <;> rfl
  rw [exec_writeBack_of_some hslot hw, writtenBack_eq, hidle]
  rfl

/-! ### Effective addresses -/

/-- Settles O54: the sum of bit vectors wraps; the two sums of R182 are the addresses 4 and 0x80000004, which is negative. -/
theorem effectiveAddressWraps : Obligations.EffectiveAddressWraps := by
  have hwraps : effectiveAddress 0xFFFFFFFC (sext32 8) = 4#32 := by decide
  have hnegative : effectiveAddress 0x7FFFFFFC (sext32 8) = 0x80000004#32 := by decide
  refine ⟨fun base offset => BitVec.toNat_add base offset, fun n hn => ?valid, fun n => ⟨hnegative, ?invalid⟩⟩
  case valid =>
    rw [hwraps]
    have hfour : (4#32).toInt = 4 := by decide
    have hlt : (4 : Int) < n := by omega
    simp [validAddress, addressKey, signed, hfour, hlt, wordBytes]
  case invalid =>
    rw [hnegative]
    exact validAddress_eq_false (.inl (by decide))

/-! ### A step as the stages in order -/

/-- Settles O13: what the stages ahead of IF leave has the program and the pc of the start, so IF finds the same record, which
for a loaded program is what the word there decodes to. -/
theorem stepRunsDecodedInstruction : Obligations.StepRunsDecodedInstruction := by
  intro s u i hrun hup hu hstall hfetch
  have hrecord : s.program[s.pc]? = some i := by
    obtain hi | ⟨ws, w, hload, hw, hdecode⟩ := hfetch
    · exact hi
    · obtain ⟨j, hj, hp⟩ := loadWords_getElem? hload hw
      cases hdecode.symm.trans hj
      exact hp
  have hbefore := upstream_beforeFetch hrun hup
  have hin : u.inFetch = some i := by rw [State.inFetch, hbefore.program, hbefore.pc, hrecord]
  have hslot : fetchSlot u = exec i (u.atSlot .fetch) := by
    rw [fetchSlot, if_neg (by simp [hstall]), hin, runSlot_some]
  rw [step, if_pos hrun, clockTick, stages, hup, andThen_running hu, hslot]

/-- The latches of `t` are those of `s`. -/
structure State.SameLatches (s t : State) : Prop where
  ifId : t.ifId = s.ifId
  idEx : t.idEx = s.idEx
  exMem : t.exMem = s.exMem
  memWb : t.memWb = s.memWb

theorem State.SameLatches.trans {u : State} (h : s.SameLatches t) (h' : t.SameLatches u) : s.SameLatches u :=
  ⟨h'.ifId.trans h.ifId, h'.idEx.trans h.idEx, h'.exMem.trans h.exMem, h'.memWb.trans h.memWb⟩

theorem resolveBranch_sameLatches {k : ExMem} (h : resolveBranch i e a b k s = .next t) : s.SameLatches t := by
  obtain ⟨-, rfl⟩ | ⟨-, -, rfl⟩ | ⟨-, -, rfl⟩ := resolveBranch_cases h
  all_goals exact ⟨rfl, rfl, rfl, rfl⟩

/-- Within a tick no stage writes a latch: the commit does (40_pipeline.md R101). -/
theorem exec_sameLatches (h : exec i s = .next t) : s.SameLatches t := by
  cases hp : s.tick.slot with
  | writeBack =>
    obtain ⟨-, rfl⟩ | ⟨w, -, rfl⟩ := writeBackStage_cases (exec_writeBack hp ▸ h)
    all_goals exact ⟨rfl, rfl, rfl, rfl⟩
  | memory =>
    obtain ⟨-, rfl⟩ | ⟨m, -, -, rfl⟩ | ⟨m, -, -, rfl⟩ := memoryStage_cases (exec_memory hp ▸ h)
    all_goals exact ⟨rfl, rfl, rfl, rfl⟩
  | execute =>
    obtain ⟨-, rfl⟩ | ⟨e, -, -, rfl⟩ | ⟨e, a, fa, b, fb, -, -, -, hb⟩ := executeStage_cases (exec_execute hp ▸ h)
    · exact ⟨rfl, rfl, rfl, rfl⟩
    · exact ⟨rfl, rfl, rfl, rfl⟩
    · exact resolveBranch_sameLatches hb
  | decode =>
    obtain ⟨-, rfl⟩ | ⟨d, -, -, rfl⟩ | ⟨d, -, -, rfl⟩ := decodeStage_cases (exec_decode hp ▸ h)
    all_goals exact ⟨rfl, rfl, rfl, rfl⟩
  | fetch =>
    cases (exec_fetch hp).symm.trans h
    exact ⟨rfl, rfl, rfl, rfl⟩

theorem exec_atSlot_sameLatches {p : Slot} (h : exec i (s.atSlot p) = .next t) : s.SameLatches t :=
  State.SameLatches.trans (t := s.atSlot p) ⟨rfl, rfl, rfl, rfl⟩ (exec_sameLatches h)

theorem andThen_assoc (o : Result) (f g : State → Result) :
    andThen (andThen o f) g = andThen o fun u => andThen (f u) g := by
  cases o with
  | next u => by_cases hu : u.status = .running <;> simp [hu]
  | fault r => rfl
  | refused r => rfl

/-- What goes on is looked at only at the state it goes on from. -/
theorem andThen_congr {o : Result} {f g : State → Result} (h : ∀ u, o = .next u → f u = g u) :
    andThen o f = andThen o g := by
  cases o with
  | next u => rw [andThen, andThen, h u rfl]
  | fault r => rfl
  | refused r => rfl

/-- A stage of a full latch is `exec` of the instruction that the latch held when the tick began. -/
theorem runSlot_of_some {p : Slot} {j : Option Instr} (h : j = some i) : runSlot p j s = exec i (s.atSlot p) := by
  rw [h, runSlot_some]

/-- Settles O14: each stage reads the latch as the tick found it. -/
theorem stepRunsEveryStageInOrder : Obligations.StepRunsEveryStageInOrder := by
  intro s d e m w hrun hd he hm hw
  rw [step, if_pos hrun, clockTick, stages, upstream]
  simp only [andThen_assoc]
  rw [runSlot_of_some (i := w.instr) (by rw [State.inWriteBack, hw, Option.map_some])]
  refine andThen_congr fun s1 h1 => ?_
  have hbegin : s.SameLatches s.beginTick := ⟨rfl, rfl, rfl, rfl⟩
  have hl1 : s.SameLatches s1 := hbegin.trans (exec_atSlot_sameLatches h1)
  rw [runSlot_of_some (i := m.instr) (by rw [State.inMemory, hl1.exMem, hm, Option.map_some])]
  refine andThen_congr fun s2 h2 => ?_
  have hl2 : s.SameLatches s2 := hl1.trans (exec_atSlot_sameLatches h2)
  rw [runSlot_of_some (i := e.instr) (by rw [State.inExecute, hl2.idEx, he, Option.map_some])]
  refine andThen_congr fun s3 h3 => ?_
  have hl3 : s.SameLatches s3 := hl2.trans (exec_atSlot_sameLatches h3)
  rw [runSlot_of_some (i := d.instr) (by rw [State.inDecode, hl3.ifId, hd, Option.map_some])]

end Sys2Proof.Machine
end

