-- ==== Sys2Proof/Proofs/TickFrame.lean ====
section
/-! What one tick changes and what it shows (40_pipeline.md R132, R133; 60_exceptions.md R217; 41_hazard_forwarding.md R145,
R147): each statement is read off the two ends of a tick, an abort and a commit. -/

namespace Sys2Proof.Machine

variable {s t : State} {D : Memory} {st : Status} {em : Option ExMem} {target : Option Nat}

/-! ### The frame of a tick -/

/-- Data memory after MEM past the address check: as it was, or with the store of the bundle in EX/MEM. -/
theorem refMemory_fst_cases (hmem : refMemAborts s = none) :
    (refMemory s).1 = s.dmem ∨ ∃ m, s.exMem = some m ∧ m.ctrl.memWrite = true ∧
      validAddress s.dmemBytes m.aluResult = true ∧ (refMemory s).1 = memWrite s.dmem m.aluResult m.storeVal := by
  cases hm : s.exMem with
  | none => exact .inl (by rw [refMemory_of_none hm])
  | some m =>
    rw [refMemory_of_some hm, accessedMemory]
    cases hwrite : m.ctrl.memWrite with
    | false => exact .inl rfl
    | true =>
      have hok := refMemAborts_eq_none_iff.mp hmem m hm
      exact .inr ⟨m, rfl, hwrite, by simpa [memFaults, hwrite] using hok, rfl⟩

theorem State.TickAborts.dmem_cases (h : s.TickAborts D st) :
    D = s.dmem ∨ ∃ m, s.exMem = some m ∧ m.ctrl.memWrite = true ∧ validAddress s.dmemBytes m.aluResult = true ∧
      D = memWrite s.dmem m.aluResult m.storeVal := by
  cases h with
  | memory _ => exact .inl rfl
  | execute hmem _ => exact refMemory_fst_cases hmem

/-- The bundle EX leaves is the one in ID/EX. -/
theorem State.TickLatches.exMem_bundle (h : s.TickLatches em target) :
    em.map (fun m => (m.instr, m.pidx)) = s.idEx.map fun e => (e.instr, e.pidx) := by
  cases h with
  | bubble _ hex => rw [idEx_of_refExecute_bubble hex]; rfl
  | done _ hex =>
    obtain ⟨e, he, hinstr, hpidx, -⟩ := refExecute_done hex
    rw [he, Option.map_some, Option.map_some, hinstr, hpidx]

/-- The bundle ID leaves, when it leaves one, is the one in IF/ID. -/
theorem State.refCommitted_idEx_bundle :
    (s.refCommitted em target).idEx = none ∨
      (s.refCommitted em target).idEx.map (fun e => (e.instr, e.pidx)) = s.ifId.map fun d => (d.instr, d.pidx) := by
  cases he : (s.refCommitted em target).idEx with
  | none => exact .inl rfl
  | some e =>
    obtain ⟨-, d, hd, -, rfl⟩ := State.no_flush_of_idEx he
    exact .inr (by rw [hd]; rfl)

/-- Settles O45: an abort keeps every latch but the registers' write-back and the store before an EX error; a commit hands
each bundle to the next latch. -/
theorem stepFrame : Obligations.StepFrame := by
  intro s t hrun hstep
  obtain ⟨D, st, hends, -, rfl⟩ | ⟨em, target, hlatches, -, rfl⟩ := running_step_cases hrun hstep
  · exact ⟨rfl, rfl, rfl, rfl, refWriteBack_eq_retiredRegs s, hends.dmem_cases,
      fun hfatal => absurd (hends.status.1.symm.trans hfatal) (by decide)⟩
  · refine ⟨rfl, rfl, rfl, rfl, s.refCommitted_x em target, refMemory_fst_cases hlatches.memory, fun _ => ⟨?memWb,
      hlatches.exMem_bundle, State.refCommitted_idEx_bundle⟩⟩
    case memWb =>
      rw [State.refCommitted_memWb, Option.map_map]
      rfl

/-! ### The end state of a fatal error -/

/-- An AddressError stores nothing; before an error of EX the older instruction has made its access. -/
theorem State.TickAborts.cases_of_status (h : s.TickAborts D st) :
    ∃ p c, (st = .addressError p c ∧ D = s.dmem) ∨
      (st = .branchTargetError p c ∨ st = .hazardDefect c) ∧ D = (refMemory s).1 := by
  cases h with
  | memory hmem =>
    obtain ⟨m, -, -, rfl⟩ := refMemAborts_eq_some_iff.mp hmem
    exact ⟨_, _, .inl ⟨rfl, rfl⟩⟩
  | execute _ hex =>
    obtain rfl | ⟨e, -, -, rfl⟩ := refExecute_abort hex
    · exact ⟨0, _, .inr ⟨.inr rfl, rfl⟩⟩
    · exact ⟨_, _, .inr ⟨.inl rfl, rfl⟩⟩

/-- Settles O46: a fatal status is that of an abort, whose state is written out by R100's `abort`. -/
theorem fatalErrorEndState : Obligations.FatalErrorEndState := by
  intro s t hrun hstep hfatal
  obtain ⟨D, hends, ht⟩ := tickAborts_of_fatal hrun hstep hfatal
  obtain ⟨p, c, hst⟩ := hends.cases_of_status
  refine ⟨p, c, D, hst.imp_right fun ⟨hex, hD⟩ => ⟨hex, hD.trans ?memory⟩, ht.trans ?state⟩
  case memory =>
    split
    · next hm => rw [refMemory_of_none hm]
    · next m hm => rw [refMemory_of_some hm]
  case state =>
    rw [refWriteBack_eq_retiredRegs]
    rfl

/-! ### Stalls -/

/-- A tick that shows a stall commits without a flush and stalls. -/
theorem committed_of_stallSignal (hrun : s.status = .running) (hstep : step s = .next t) (hstall : s.stallSignal = true) :
    ∃ em, s.TickLatches em none ∧ refStall s = true ∧ t = s.refCommitted em none := by
  obtain ⟨D, st, -, hrest, rfl⟩ | ⟨em, target, hlatches, htick, rfl⟩ := running_step_cases hrun hstep
  · simp [State.stallSignal, hrest] at hstall
  · rw [State.stallSignal_of_finishedTick htick, Bool.and_eq_true, Option.isNone_iff_eq_none] at hstall
    obtain ⟨hstall, rfl⟩ := hstall
    exact ⟨em, hlatches, hstall, rfl⟩

/-- What a stall holds back: IF/ID is marked and kept, ID/EX is emptied, the pc stays (41_hazard_forwarding.md R145). -/
theorem refCommitted_of_stall {d : IfId} (hd : s.ifId = some d) (hstall : refStall s = true) :
    (s.refCommitted em none).ifId = some { d with stalled := true } ∧ (s.refCommitted em none).idEx = none ∧
      (s.refCommitted em none).pc = s.pc := by
  rw [State.refCommitted_ifId_of_no_flush, State.refCommitted_pc_of_no_flush, State.refCommitted_idEx_of_no_flush,
    refFetch_of_stall hstall, refDecode_of_some hd, if_pos hstall, hd]
  exact ⟨rfl, rfl, rfl⟩

/-- MEM and EX do not look at IF/ID. -/
theorem State.TickLatches.with_ifId (h : s.TickLatches em target) (fd : Option IfId) :
    { s with ifId := fd }.TickLatches em target := by
  cases h with
  | bubble hmem hex => exact .bubble hmem hex
  | done hmem hex => exact .done hmem hex

/-- Settles O43: the stalled tick and the tick with a bubble in IF/ID commit what the same MEM and EX leave. -/
theorem stallHoldsDecode : Obligations.StallHoldsDecode := by
  intro s t t' hrun hstep hsignal hstep'
  obtain ⟨em, hlatches, hstall, rfl⟩ := committed_of_stallSignal hrun hstep hsignal
  obtain ⟨d, hd⟩ := ifId_of_refStall hstall
  obtain ⟨hifId, hidEx, hpc⟩ := refCommitted_of_stall (em := em) hd hstall
  have ht' := (step_of_tickLatches (s := { s with ifId := none }) hrun (hlatches.with_ifId none)).symm.trans hstep'
  cases ht'
  exact ⟨⟨d, hd, hifId⟩, hidEx, hpc, rfl, rfl, rfl, rfl⟩

/-! ### The snapshot -/

/-- EX flushes for a branch with equal operands, to its target (44_branch.md R190, R192). -/
theorem refExecute_flush {m : ExMem} {n : Nat} (h : refExecute s = .done m (some n)) :
    ∃ e a fa fb, s.idEx = some e ∧ e.ctrl.branch = true ∧ fwd e.instr.rs e.rsVal s.exMem s.memWb = .value a fa ∧
      (if e.instr.op = .lw then .value e.rtVal false else fwd e.instr.rt e.rtVal s.exMem s.memWb) = .value a fb ∧
      (n : Int) = (e.pidx : Int) + 1 + e.instr.imm.toInt := by
  unfold refExecute at h
  split at h
  · cases h
  · next e he =>
    split at h
    · next a fa b fb ha hb =>
      simp only at h
      split at h
      · next htaken =>
        obtain ⟨hbranch, rfl⟩ := htaken
        split at h
        · cases h
        · next hpos =>
          cases h
          exact ⟨e, a, fa, fb, he, hbranch, ha, hb, Int.toNat_of_nonneg (Int.not_lt.mp hpos)⟩
      · cases h
    · cases h

theorem State.TickLatches.flush {n : Nat} (h : s.TickLatches em (some n)) :
    ∃ e a fa fb, s.idEx = some e ∧ e.ctrl.branch = true ∧ fwd e.instr.rs e.rsVal s.exMem s.memWb = .value a fa ∧
      (if e.instr.op = .lw then .value e.rtVal false else fwd e.instr.rt e.rtVal s.exMem s.memWb) = .value a fb ∧
      (n : Int) = (e.pidx : Int) + 1 + e.instr.imm.toInt := by
  cases h with
  | done _ hex => exact refExecute_flush hex

/-- A branch with equal operands flushes, in a tick that goes on to the commit. -/
theorem State.TickLatches.flush_of_taken (h : s.TickLatches em target) {e : IdEx} {a : Word} {fa fb : Bool}
    (he : s.idEx = some e) (hbranch : e.ctrl.branch = true) (ha : fwd e.instr.rs e.rsVal s.exMem s.memWb = .value a fa)
    (hb : (if e.instr.op = .lw then .value e.rtVal false else fwd e.instr.rt e.rtVal s.exMem s.memWb) = .value a fb) :
    target.isSome = true := by
  have hex := refExecute_of_values he ha hb
  rw [if_pos ⟨hbranch, rfl⟩] at hex
  cases h with
  | bubble _ hbubble => cases (idEx_of_refExecute_bubble hbubble).symm.trans he
  | done _ hdone =>
    rw [hex] at hdone
    split at hdone
    · cases hdone
    · cases hdone
      rfl

theorem State.flushSignal_of_finishedTick (h : s.cycleTick = s.finishedTick em target) :
    s.flushSignal = target.isSome := by
  rw [State.flushSignal, h]
  rfl

/-- A tick that aborts shows no signal (40_pipeline.md R133). -/
theorem State.signals_of_rest (h : s.cycleTick = Tick.rest) : s.stallSignal = false ∧ s.flushSignal = false := by
  simp [State.stallSignal, State.flushSignal, h]

theorem flushSignal_iff (hrun : s.status = .running) (hstep : step s = .next t) :
    s.flushSignal = true ↔ t.status.fatal = false ∧ ∃ e a fa fb, s.idEx = some e ∧ e.ctrl.branch = true ∧
      fwd e.instr.rs e.rsVal s.exMem s.memWb = .value a fa ∧
      (if e.instr.op = .lw then .value e.rtVal false else fwd e.instr.rt e.rtVal s.exMem s.memWb) = .value a fb ∧
      (t.pc : Int) = (e.pidx : Int) + 1 + e.instr.imm.toInt := by
  obtain ⟨D, st, hends, hrest, rfl⟩ | ⟨em, target, hlatches, htick, rfl⟩ := running_step_cases hrun hstep
  · rw [(State.signals_of_rest hrest).2]
    exact ⟨nofun, fun ⟨hfatal, _⟩ => absurd (hends.status.1.symm.trans hfatal) (by decide)⟩
  · rw [State.flushSignal_of_finishedTick htick]
    constructor
    · intro hflush
      obtain ⟨n, rfl⟩ := Option.isSome_iff_exists.mp hflush
      exact ⟨s.refCommitted_not_fatal em _, hlatches.flush⟩
    · rintro ⟨-, e, a, fa, fb, he, hbranch, ha, hb, -⟩
      exact hlatches.flush_of_taken he hbranch ha hb

/-- A flush empties IF/ID and ID/EX. -/
theorem emptied_of_flushSignal (hrun : s.status = .running) (hstep : step s = .next t) (hflush : s.flushSignal = true) :
    t.ifId = none ∧ t.idEx = none := by
  obtain ⟨D, st, -, hrest, rfl⟩ | ⟨em, target, -, htick, rfl⟩ := running_step_cases hrun hstep
  · cases (State.signals_of_rest hrest).2.symm.trans hflush
  · rw [State.flushSignal_of_finishedTick htick] at hflush
    obtain ⟨n, rfl⟩ := Option.isSome_iff_exists.mp hflush
    exact ⟨rfl, rfl⟩

theorem signals_of_fatal (hrun : s.status = .running) (hstep : step s = .next t) (hfatal : t.status.fatal = true) :
    s.stallSignal = false ∧ s.flushSignal = false := by
  obtain ⟨D, st, -, hrest, rfl⟩ | ⟨em, target, -, -, rfl⟩ := running_step_cases hrun hstep
  · exact State.signals_of_rest hrest
  · cases hfatal.symm.trans (s.refCommitted_not_fatal em target)

theorem State.flushSignal_of_stallSignal (h : s.stallSignal = true) : s.flushSignal = false := by
  rw [State.stallSignal, Bool.and_eq_true, Option.isNone_iff_eq_none] at h
  simp [State.flushSignal, h.2]

theorem stallSignal_iff (hrun : s.status = .running) (hstep : step s = .next t) :
    s.stallSignal = true ↔ t.stallCount = s.stallCount + 1 := by
  rw [stallCountCountsStalls s t hrun hstep]
  cases s.stallSignal <;> simp

/-- Settles O48: the slots and signals of a snapshot are those of the state, and the signals are what the tick does. -/
theorem snapshotReportsTheTick : Obligations.SnapshotReportsTheTick := by
  intro s t n hn hstep
  unfold State.snapshot at hn
  split at hn
  · next hrun =>
    cases hn
    refine ⟨?cycle, State.flushSignal_of_stallSignal, stallSignal_iff hrun hstep, flushSignal_iff hrun hstep, ?stalled,
      emptied_of_flushSignal hrun hstep, signals_of_fatal hrun hstep, rfl, rfl, rfl, rfl, rfl⟩
    case cycle => exact (cycleCountRisesByOne s t hrun hstep).1.symm
    case stalled =>
      intro hstall
      obtain ⟨em, -, hrefStall, -⟩ := committed_of_stallSignal hrun hstep hstall
      obtain ⟨d, hd⟩ := ifId_of_refStall hrefStall
      exact ⟨_, congrArg (Option.map _) hd, hstall⟩
  · cases hn

/-! ### Stall lengths -/

/-- Without a hazard in ID there is no stall. -/
theorem stallSignal_of_no_hazard (hrun : s.status = .running) (h : refStall s = false) : s.stallSignal = false := by
  obtain ⟨t, hstep⟩ := step_next s
  rw [← Bool.not_eq_true]
  intro hstall
  obtain ⟨em, -, htrue, -⟩ := committed_of_stallSignal hrun hstep hstall
  cases h.symm.trans htrue

/-- A hazard in ID, with no branch in EX to flush it, stalls a tick that lets the run go on. -/
theorem stalls_of_hazard (hrun : s.status = .running) (ht : (runState 1 s).status = .running) (hstall : refStall s = true)
    (hbranch : ∀ e, s.idEx = some e → e.ctrl.branch = false) :
    s.stallSignal = true ∧ ∃ em, s.TickLatches em none ∧ runState 1 s = s.refCommitted em none := by
  have hstep : step s = .next (runState 1 s) := step_runState 0 s
  obtain ⟨D, st, hends, -, heq⟩ | ⟨em, target, hlatches, htick, heq⟩ := running_step_cases hrun hstep
  · rw [heq] at ht
    exact absurd ht (Status.ne_running_of_fatal hends.status.1)
  · cases target with
    | some n =>
      obtain ⟨e, he, htrue⟩ := hlatches.branch_of_flush
      cases (hbranch e he).symm.trans htrue
    | none => exact ⟨by rw [State.stallSignal_of_finishedTick htick, hstall]; rfl, em, hlatches, heq⟩

theorem refStall_eq_true_iff {d : IfId} (hd : s.ifId = some d) :
    refStall s = true ↔ (∃ e, s.idEx = some e ∧ e.ctrl.memRead = true ∧ e.dest ∈ sources d.instr) ∨
      (d.instr.op = .beq ∧
        ((∃ e, s.idEx = some e ∧ e.ctrl.regWrite = true ∧ e.dest ∈ sources d.instr) ∨
         (∃ m, s.exMem = some m ∧ m.ctrl.memRead = true ∧ m.dest ∈ sources d.instr))) := by
  rw [refStall_of_some hd, hazard_iff]

/-- Behind a bubble in EX, only a `beq` stalls, and only for a load in MEM (41_hazard_forwarding.md R142). -/
theorem refStall_behind_bubble {d : IfId} (hd : s.ifId = some d) (hidEx : s.idEx = none) :
    refStall s = true ↔
      d.instr.op = .beq ∧ ∃ m, s.exMem = some m ∧ m.ctrl.memRead = true ∧ m.dest ∈ sources d.instr := by
  rw [refStall_eq_true_iff hd, hidEx]
  simp

/-- A register writer is no branch. -/
theorem ctrl_branch_of_regWrite {op : Op} (h : (ctrl op).regWrite = true) : (ctrl op).branch = false := by
  cases op <;> simp_all [ctrl]

/-- A consumer in ID directly behind its producer in EX, which writes a register, with no load in MEM. -/
structure State.Behind (s : State) (d : IfId) (e : IdEx) : Prop where
  running : s.status = .running
  ifId : s.ifId = some d
  idEx : s.idEx = some e
  ctrl : e.ctrl = ctrl e.instr.op
  writes : e.ctrl.regWrite = true
  source : e.dest ∈ sources d.instr
  noLoad : ∀ m, s.exMem = some m → m.ctrl.memRead = false

namespace State.Behind
variable {d : IfId} {e : IdEx}

theorem memRead_iff (h : s.Behind d e) : e.ctrl.memRead = true ↔ e.instr.op = .lw := by rw [h.ctrl, ctrl_memRead_iff]

/-- The consumer stalls behind a load, and a `beq` behind every register writer. -/
theorem refStall_iff (h : s.Behind d e) : refStall s = true ↔ e.instr.op = .lw ∨ d.instr.op = .beq := by
  rw [refStall_eq_true_iff h.ifId, ← h.memRead_iff, h.idEx]
  constructor
  · rintro (⟨e', he', hload, -⟩ | ⟨hbeq, -⟩)
    · cases he'
      exact .inl hload
    · exact .inr hbeq
  · rintro (hload | hbeq)
    · exact .inl ⟨e, rfl, hload, h.source⟩
    · exact .inr ⟨hbeq, .inl ⟨e, rfl, h.writes, h.source⟩⟩

/-- One cycle of stall: the consumer is held, and its producer is in MEM ahead of a bubble. -/
theorem stalls (h : s.Behind d e) (hop : e.instr.op = .lw ∨ d.instr.op = .beq) (ht : (runState 1 s).status = .running) :
    s.stallSignal = true ∧ (runState 1 s).ifId = some { d with stalled := true } ∧ (runState 1 s).idEx = none ∧
      ∃ m, (runState 1 s).exMem = some m ∧ m.ctrl = e.ctrl ∧ m.dest = e.dest := by
  have hstall := h.refStall_iff.mpr hop
  have hbranch : ∀ e', s.idEx = some e' → e'.ctrl.branch = false := by
    intro e' he'
    cases h.idEx.symm.trans he'
    have hwrites := h.writes
    rw [h.ctrl] at hwrites ⊢
    exact ctrl_branch_of_regWrite hwrites
  obtain ⟨hsignal, em, hlatches, heq⟩ := stalls_of_hazard h.running ht hstall hbranch
  obtain ⟨hifId, hidEx, -⟩ := refCommitted_of_stall (em := em) h.ifId hstall
  rw [heq]
  refine ⟨hsignal, hifId, hidEx, ?_⟩
  obtain ⟨m, rfl⟩ := Option.isSome_iff_exists.mp (hlatches.isSome_eq.trans (by rw [h.idEx]; rfl))
  obtain ⟨e', he', hctrl, hdest⟩ := hlatches.idEx_of_some
  cases h.idEx.symm.trans he'
  exact ⟨m, rfl, hctrl, hdest⟩

/-- The second cycle: only a `beq` behind a load goes on to stall (41_hazard_forwarding.md R147). -/
theorem refStall_after_stall (h : s.Behind d e) (hop : e.instr.op = .lw ∨ d.instr.op = .beq)
    (ht : (runState 1 s).status = .running) :
    refStall (runState 1 s) = true ↔ e.instr.op = .lw ∧ d.instr.op = .beq := by
  obtain ⟨-, hifId, hidEx, m, hm, hctrl, hdest⟩ := h.stalls hop ht
  rw [refStall_behind_bubble hifId hidEx, ← h.memRead_iff, hm]
  constructor
  · rintro ⟨hbeq, m', hm', hload, -⟩
    cases hm'
    exact ⟨hctrl ▸ hload, hbeq⟩
  · rintro ⟨hload, hbeq⟩
    exact ⟨hbeq, m, rfl, hctrl ▸ hload, hdest ▸ h.source⟩

/-- The third cycle: the producer has left MEM, and nothing holds the consumer. -/
theorem stalls_twice (h : s.Behind d e) (hload : e.instr.op = .lw) (hbeq : d.instr.op = .beq)
    (ht : (runState 1 s).status = .running) (hu : (runState 2 s).status = .running) :
    (runState 1 s).stallSignal = true ∧ (runState 2 s).stallSignal = false := by
  obtain ⟨-, hifId, hidEx, -⟩ := h.stalls (.inl hload) ht
  have hstall := (h.refStall_after_stall (.inl hload) ht).mpr ⟨hload, hbeq⟩
  have hrun2 : runState 2 s = runState 1 (runState 1 s) := runState_add 1 1 s
  rw [hrun2] at hu ⊢
  obtain ⟨hsignal, em, hlatches, heq⟩ := stalls_of_hazard ht hu hstall (by simp [hidEx])
  obtain ⟨hifId2, hidEx2, -⟩ := refCommitted_of_stall (em := em) hifId hstall
  have hem : em = none := by
    have hsome := hlatches.isSome_eq
    rw [hidEx] at hsome
    simpa using hsome
  refine ⟨hsignal, ?_⟩
  rw [heq] at hu ⊢
  refine stallSignal_of_no_hazard hu ?_
  rw [← Bool.not_eq_true, refStall_behind_bubble hifId2 hidEx2]
  rintro ⟨-, m, hm, -⟩
  cases hem.symm.trans hm

end State.Behind

/-- Settles O53: the first cycle stalls behind a load or for a `beq`, the second for both together, the third for neither. -/
theorem stallLengthsAtDistanceOne : Obligations.StallLengthsAtDistanceOne := by
  intro s d e hinv hrun hd he hwrites hsource hnoLoad
  obtain ⟨-, hctrl, -⟩ := hinv.idEx e he
  have h : s.Behind d e := ⟨hrun, hd, he, hctrl, hwrites, hsource, hnoLoad⟩
  refine ⟨fun hload hbeq => ?none, fun hload hbeq ht => ?branch, fun hload hbeq ht => ?load, fun hload hbeq ht hu => ?both⟩
  case none => exact stallSignal_of_no_hazard hrun (by rw [← Bool.not_eq_true, h.refStall_iff]; tauto)
  case branch =>
    obtain ⟨hsignal, -⟩ := h.stalls (.inr hbeq) ht
    have hnext := h.refStall_after_stall (.inr hbeq) ht
    exact ⟨hsignal, stallSignal_of_no_hazard ht (by rw [← Bool.not_eq_true, hnext]; tauto)⟩
  case load =>
    obtain ⟨hsignal, -⟩ := h.stalls (.inl hload) ht
    have hnext := h.refStall_after_stall (.inl hload) ht
    exact ⟨hsignal, stallSignal_of_no_hazard ht (by rw [← Bool.not_eq_true, hnext]; tauto)⟩
  case both =>
    obtain ⟨hsignal, -⟩ := h.stalls (.inl hload) ht
    exact ⟨hsignal, h.stalls_twice hload hbeq ht hu⟩

end Sys2Proof.Machine
end

