-- ==== Sys2Proof/Proofs/OneInstruction.lean ====
section
/-! One instruction on its own, from fetch to write-back (42_arith.md, 43_load_store.md, 44_branch.md;
70_reset_and_hazards.md R241). It is the last of the program and finds the pipeline empty, so in each of the five ticks one
latch is full and the next one takes its bundle on. -/

namespace Sys2Proof.Machine

variable {s : State} {i : Instr} {m : ExMem} {w : MemWb} {target : Option Nat} {D : Memory} {pc : Nat}

/-! ### The commit of a tick without a stall -/

/-- R100's next state without a stall, but for the status. -/
def State.advanced (s : State) (em : Option ExMem) (target : Option Nat) : State :=
  { s with
    x := refWriteBack s, dmem := (refMemory s).1, pc := target.getD (refFetch s).2
    ifId := if target.isSome then none else (refFetch s).1
    idEx := if target.isSome then none else refDecode s (refWriteBack s)
    exMem := em, memWb := (refMemory s).2, cycleCount := s.cycleCount + 1, tick := Tick.rest }

theorem State.refCommitted_eq_advanced {em : Option ExMem} (hstall : refStall s = false) :
    s.refCommitted em target = { s.advanced em target with status := (s.refCommitted em target).status } := by
  simp [State.refCommitted, refCommit, State.advanced, hstall]

theorem step_of_busy {em : Option ExMem} (hrun : s.status = .running) (hlatches : s.TickLatches em target)
    (hstall : refStall s = false) (hbusy : ¬ (s.refCommitted em target).RanOut) (hcap : s.cycleCount + 1 < s.maxCycles) :
    step s = .next (s.advanced em target) := by
  have hst : (s.refCommitted em target).status = .running := by
    obtain ⟨hout, -⟩ | ⟨-, hover, -⟩ | ⟨-, -, hst⟩ := s.refCommitted_status_cases em target
    · exact absurd hout hbusy
    · exact absurd hover (Nat.not_le.mpr hcap)
    · exact hst
  rw [step_of_tickLatches hrun hlatches, State.refCommitted_eq_advanced hstall, hst, ← hrun]
  rfl

theorem step_of_ranOut {em : Option ExMem} (hrun : s.status = .running) (hlatches : s.TickLatches em target)
    (hstall : refStall s = false) (hout : (s.refCommitted em target).RanOut) :
    step s = .next { s.advanced em target with status := .terminated } := by
  have hst : (s.refCommitted em target).status = .terminated := by
    obtain ⟨-, hst⟩ | ⟨hbusy, -⟩ | ⟨hbusy, -⟩ := s.refCommitted_status_cases em target
    · exact hst
    · exact absurd hout hbusy
    · exact absurd hout hbusy
  rw [step_of_tickLatches hrun hlatches, State.refCommitted_eq_advanced hstall, hst]

/-! ### The five ticks -/

/-- The run goes on with an empty pipeline, `i` is the last instruction of the program and the next one to fetch, and the
watchdog is at least five cycles off. -/
structure State.Alone (s : State) (i : Instr) : Prop where
  running : s.status = .running
  ifId : s.ifId = none
  idEx : s.idEx = none
  exMem : s.exMem = none
  memWb : s.memWb = none
  record : s.program[s.pc]? = some i
  last : s.progLen = s.pc + 1
  cap : s.cycleCount + 4 < s.maxCycles

/-- `s` `k` cycles on, with the latches, the pc and data memory given. -/
def State.after (s : State) (k pc : Nat) (D : Memory) (fd : Option IfId) (ie : Option IdEx) (em : Option ExMem)
    (mw : Option MemWb) : State :=
  { s with dmem := D, pc := pc, ifId := fd, idEx := ie, exMem := em, memWb := mw, cycleCount := s.cycleCount + k
           tick := Tick.rest }

/-- The bundle of `i` in IF/ID. -/
def State.fetchedAlone (s : State) (i : Instr) : IfId := { instr := i, pidx := s.pc, stalled := false }

/-- The bundle of `i` in ID/EX. -/
def State.decodedAlone (s : State) (i : Instr) : IdEx := decodedBundle i (s.fetchedAlone i) s.x

/-- `s` with `i` in IF/ID. -/
def State.inIdAlone (s : State) (i : Instr) : State :=
  s.after 1 (s.pc + 1) s.dmem (some (s.fetchedAlone i)) none none none

/-- `s` with `i` in ID/EX. -/
def State.inExAlone (s : State) (i : Instr) : State :=
  s.after 2 (s.pc + 1) s.dmem none (some (s.decodedAlone i)) none none

/-- `s` with the bundle `m` in EX/MEM. -/
def State.inMemAlone (s : State) (m : ExMem) (pc : Nat) : State := s.after 3 pc s.dmem none none (some m) none

/-- `s` with the bundle `w` in MEM/WB. -/
def State.inWbAlone (s : State) (w : MemWb) (pc : Nat) (D : Memory) : State := s.after 4 pc D none none none (some w)

theorem refExecute_of_bubble (h : s.idEx = none) : refExecute s = .bubble := by simp [refExecute, h]

/-- With bubbles in MEM and EX a tick goes on to the commit. -/
theorem tickLatches_of_bubbles (hexMem : s.exMem = none) (hidEx : s.idEx = none) : s.TickLatches none none :=
  .bubble (refMemAborts_of_bubble hexMem) (refExecute_of_bubble hidEx)

theorem not_ranOut_of_ifId {d : IfId} (h : s.ifId = some d) : ¬ s.RanOut := fun hout => by cases h.symm.trans hout.ifId

theorem not_ranOut_of_idEx {e : IdEx} (h : s.idEx = some e) : ¬ s.RanOut := fun hout => by cases h.symm.trans hout.idEx

theorem not_ranOut_of_exMem (h : s.exMem = some m) : ¬ s.RanOut := fun hout => by cases h.symm.trans hout.exMem

theorem not_ranOut_of_memWb (h : s.memWb = some w) : ¬ s.RanOut := fun hout => by cases h.symm.trans hout.memWb

namespace State.Alone

theorem cap_of_lt (h : s.Alone i) {k : Nat} (hk : k < 4) : s.cycleCount + k + 1 < s.maxCycles := by
  have hcap := h.cap
  omega

/-- IF (40_pipeline.md R103). -/
theorem step_fetch (h : s.Alone i) : step s = .next (s.inIdAlone i) := by
  have hstall := refStall_of_none h.ifId
  have hfetch : refFetch s = (some (s.fetchedAlone i), s.pc + 1) := refFetch_of_some hstall h.record
  have hlatches := tickLatches_of_bubbles h.exMem h.idEx
  have hbusy : ¬ (s.refCommitted none none).RanOut := not_ranOut_of_ifId (congrArg Prod.fst hfetch)
  rw [step_of_busy h.running hlatches hstall hbusy (h.cap_of_lt (k := 0) (by omega)), State.advanced, hfetch,
    refDecode_of_none h.ifId, refMemory_of_none h.exMem, refWriteBack_of_none h.memWb]
  rfl

/-- ID (40_pipeline.md R106): nothing is ahead, so there is no hazard. -/
theorem step_decode (h : s.Alone i) : step (s.inIdAlone i) = .next (s.inExAlone i) := by
  have hrun : (s.inIdAlone i).status = .running := h.running
  have hlatches : (s.inIdAlone i).TickLatches none none := tickLatches_of_bubbles rfl rfl
  have hstall : refStall (s.inIdAlone i) = false := by
    rw [refStall_of_some rfl]
    simp [State.inIdAlone, State.after, hazard, loadUse, branchHazard]
  have hfetch : refFetch (s.inIdAlone i) = (none, s.pc + 1) := refFetch_of_exhausted hstall h.last.le
  have hdecode : refDecode (s.inIdAlone i) (refWriteBack (s.inIdAlone i)) = some (s.decodedAlone i) := by
    rw [refDecode_of_some rfl, hstall]
    rfl
  have hbusy : ¬ ((s.inIdAlone i).refCommitted none none).RanOut := not_ranOut_of_idEx hdecode
  rw [step_of_busy hrun hlatches hstall hbusy (h.cap_of_lt (k := 1) (by omega)), State.advanced, hfetch, hdecode]
  rfl

/-- EX (40_pipeline.md R112 to R115). -/
theorem step_execute (h : s.Alone i) (hex : refExecute (s.inExAlone i) = .done m target) :
    step (s.inExAlone i) = .next (s.inMemAlone m (target.getD (s.pc + 1))) := by
  have hrun : (s.inExAlone i).status = .running := h.running
  have hlatches : (s.inExAlone i).TickLatches (some m) target := .done (refMemAborts_of_bubble rfl) hex
  have hstall : refStall (s.inExAlone i) = false := refStall_of_none rfl
  have hfetch : refFetch (s.inExAlone i) = (none, s.pc + 1) := refFetch_of_exhausted hstall h.last.le
  have hbusy : ¬ ((s.inExAlone i).refCommitted (some m) target).RanOut := not_ranOut_of_exMem rfl
  rw [step_of_busy hrun hlatches hstall hbusy (h.cap_of_lt (k := 2) (by omega)), State.advanced, hfetch,
    refDecode_of_none rfl, ite_self, ite_self]
  rfl

/-- MEM (40_pipeline.md R116 to R121). -/
theorem step_memory (h : s.Alone i) (hpc : s.progLen ≤ pc) (hok : memFaults s.dmemBytes m = false) :
    step (s.inMemAlone m pc) = .next (s.inWbAlone (accessedBundle m.instr m s.dmem) pc (accessedMemory m s.dmem)) := by
  have hrun : (s.inMemAlone m pc).status = .running := h.running
  have hmem : refMemAborts (s.inMemAlone m pc) = none := refMemAborts_eq_none_iff.mpr fun m' hm' => by cases hm'; exact hok
  have hlatches : (s.inMemAlone m pc).TickLatches none none := .bubble hmem (refExecute_of_bubble rfl)
  have hstall : refStall (s.inMemAlone m pc) = false := refStall_of_none rfl
  have hfetch : refFetch (s.inMemAlone m pc) = (none, pc) := refFetch_of_exhausted hstall hpc
  have hbusy : ¬ ((s.inMemAlone m pc).refCommitted none none).RanOut :=
    not_ranOut_of_memWb (w := accessedBundle m.instr m s.dmem) rfl
  rw [step_of_busy hrun hlatches hstall hbusy (h.cap_of_lt (k := 3) (by omega)), State.advanced, hfetch,
    refDecode_of_none rfl]
  rfl

/-- WB, and the end of the run (40_pipeline.md R122 to R125, R127). -/
theorem step_writeBack (h : s.Alone i) (hpc : s.progLen ≤ pc) :
    step (s.inWbAlone w pc D) = .next { s with
      x := writtenBack w s.x, dmem := D, pc := pc, cycleCount := s.cycleCount + 5, status := .terminated
      tick := Tick.rest } := by
  have hrun : (s.inWbAlone w pc D).status = .running := h.running
  have hlatches : (s.inWbAlone w pc D).TickLatches none none := tickLatches_of_bubbles rfl rfl
  have hstall : refStall (s.inWbAlone w pc D) = false := refStall_of_none rfl
  have hfetch : refFetch (s.inWbAlone w pc D) = (none, pc) := refFetch_of_exhausted hstall hpc
  have hout : ((s.inWbAlone w pc D).refCommitted none none).RanOut :=
    ⟨hpc.trans_eq (congrArg Prod.snd hfetch).symm, congrArg Prod.fst hfetch, rfl, rfl, rfl⟩
  rw [step_of_ranOut hrun hlatches hstall hout, State.advanced, hfetch, refDecode_of_none rfl, refWriteBack_of_some rfl,
    refMemory_of_none rfl]
  simp [State.inWbAlone, State.after, h.ifId, h.idEx, h.exMem, h.memWb]

/-! ### The ways a run can go -/

theorem runState_two (h : s.Alone i) : runState 2 s = s.inExAlone i := by
  rw [runState_succ_of_step 1 h.step_fetch, runState_succ_of_step 0 h.step_decode]
  rfl

theorem runState_three (h : s.Alone i) (hex : refExecute (s.inExAlone i) = .done m target) :
    runState 3 s = s.inMemAlone m (target.getD (s.pc + 1)) := by
  rw [runState_add 2 1, h.runState_two, runState_succ_of_step 0 (h.step_execute hex)]
  rfl

/-- All five ticks, where EX and MEM end in no error and nothing is left to fetch. -/
theorem runState_five (h : s.Alone i) (hex : refExecute (s.inExAlone i) = .done m target)
    (hpc : s.progLen ≤ target.getD (s.pc + 1)) (hok : memFaults s.dmemBytes m = false) :
    runState 5 s = { s with
      x := writtenBack (accessedBundle m.instr m s.dmem) s.x, dmem := accessedMemory m s.dmem
      pc := target.getD (s.pc + 1), cycleCount := s.cycleCount + 5, status := .terminated, tick := Tick.rest } := by
  rw [runState_add 3 2, h.runState_three hex, runState_succ_of_step 1 (h.step_memory hpc hok),
    runState_succ_of_step 0 (h.step_writeBack hpc)]
  rfl

/-- An error of MEM, in the fourth tick. -/
theorem runState_four_of_fault (h : s.Alone i) (hex : refExecute (s.inExAlone i) = .done m target)
    (hfault : memFaults s.dmemBytes m = true) :
    runState 4 s = (s.inMemAlone m (target.getD (s.pc + 1))).abort (.addressError m.pidx (s.cycleCount + 4)) := by
  have hrun : (s.inMemAlone m (target.getD (s.pc + 1))).status = .running := h.running
  have hends : (s.inMemAlone m (target.getD (s.pc + 1))).TickAborts s.dmem (.addressError m.pidx (s.cycleCount + 4)) :=
    .memory (refMemAborts_eq_some_iff.mpr ⟨m, rfl, hfault, rfl⟩)
  rw [runState_add 3 1, h.runState_three hex, runState_succ_of_step 0 (step_of_tickAborts hrun hends)]
  rfl

/-- An error of EX, in the third tick. -/
theorem runState_three_of_abort (h : s.Alone i) {st : Status} (hex : refExecute (s.inExAlone i) = .abort st) :
    runState 3 s = (s.inExAlone i).abort st := by
  have hrun : (s.inExAlone i).status = .running := h.running
  have hends : (s.inExAlone i).TickAborts s.dmem st := .execute (refMemAborts_of_bubble rfl) hex
  rw [runState_add 2 1, h.runState_two, runState_succ_of_step 0 (step_of_tickAborts hrun hends)]
  rfl

end State.Alone

/-! ### What EX computes -/

/-- With bubbles ahead the Forwarding Unit passes on what ID read. -/
theorem fwd_of_bubbles (x : Vector Word 32) (r : RegIdx) : fwd r (readReg x r) none none = .value (readReg x r) false := by
  by_cases hr : r = 0#5
  · rw [hr, fwd_zero, readReg_zero]
  · simp [fwd, hr, fwdMemWb]

/-- The instruction in EX computes with the registers of `s`. -/
theorem refExecute_inExAlone (s : State) (i : Instr) :
    refExecute (s.inExAlone i) =
      (s.decodedAlone i).exOutcome (s.cycleCount + 3) (readReg s.x i.rs) (readReg s.x i.rt) false false := by
  have hrs := fwd_of_bubbles s.x i.rs
  have hrt : (if i.op = .lw then .value (readReg s.x i.rt) false else fwd i.rt (readReg s.x i.rt) none none) =
      .value (readReg s.x i.rt) false := by rw [fwd_of_bubbles, ite_self]
  exact refExecute_eq_of_operands (s := s.inExAlone i) rfl hrs hrt

/-- The bundle that EX of `i` leaves. -/
def State.executedAlone (s : State) (i : Instr) : ExMem :=
  (s.decodedAlone i).executed (readReg s.x i.rs) (readReg s.x i.rt) false false

theorem refExecute_inExAlone_of_not_beq (s : State) (hop : i.op ≠ .beq) :
    refExecute (s.inExAlone i) = .done (s.executedAlone i) none := by
  rw [refExecute_inExAlone, IdEx.exOutcome]
  exact if_neg (not_branchTaken hop _ _)

/-- The effective address of a load or store in EX. -/
theorem memFaults_executedAlone {addr : Word} (haccess : (ctrl i.op).memRead = true ∨ (ctrl i.op).memWrite = true)
    (haddr : (s.executedAlone i).aluResult = addr) (n : Nat) :
    memFaults n (s.executedAlone i) = !validAddress n addr := by
  have hctrl : (s.executedAlone i).ctrl = ctrl i.op := rfl
  rw [memFaults, hctrl, haddr, Bool.or_eq_true_iff.mpr haccess, Bool.true_and]

namespace State.Alone

/-- An instruction other than `beq` that MEM lets pass. -/
theorem completes (h : s.Alone i) (hop : i.op ≠ .beq) (hok : memFaults s.dmemBytes (s.executedAlone i) = false) :
    runState 5 s = { s with
      x := writtenBack (accessedBundle i (s.executedAlone i) s.dmem) s.x, dmem := accessedMemory (s.executedAlone i) s.dmem
      pc := s.pc + 1, cycleCount := s.cycleCount + 5, status := .terminated, tick := Tick.rest } :=
  h.runState_five (refExecute_inExAlone_of_not_beq s hop) h.last.le hok

/-- An instruction that MEM does not let pass leaves everything but pc, cycle count and status as it was. -/
theorem faults (h : s.Alone i) (hop : i.op ≠ .beq) (hfault : memFaults s.dmemBytes (s.executedAlone i) = true) :
    (runState 4 s).status = .addressError s.pc (s.cycleCount + 4) ∧ (runState 4 s).x = s.x ∧ (runState 4 s).dmem = s.dmem ∧
      (runState 4 s).pc = s.pc + 1 ∧ (runState 4 s).cycleCount = s.cycleCount + 4 ∧
      (runState 4 s).stallCount = s.stallCount := by
  rw [h.runState_four_of_fault (refExecute_inExAlone_of_not_beq s hop) hfault]
  exact ⟨rfl, rfl, rfl, rfl, rfl, rfl⟩

end State.Alone

/-! ### The five instructions -/

/-- A register writer other than a load writes back its ALU result and leaves data memory as it is. -/
theorem State.Alone.completes_arith (h : s.Alone i) (hctrl : ctrl i.op = ctrl .add) (hop : i.op ≠ .beq) :
    runState 5 s = { s with
      x := writeReg s.x (destOf i) (s.executedAlone i).aluResult, pc := s.pc + 1, cycleCount := s.cycleCount + 5
      status := .terminated, tick := Tick.rest } := by
  have hbundle : (s.executedAlone i).ctrl = ctrl .add := hctrl
  rw [h.completes hop (by rw [memFaults, hbundle]; rfl), accessedMemory, hbundle, writtenBack_eq, writeBackValue,
    accessedBundle, hbundle]
  rfl

/-- Settles O33: the ALU result is the sum. -/
theorem addCompletesInFiveTicks : Obligations.AddCompletesInFiveTicks := by
  intro rd rs rt s hrun hifId hidEx hexMem hmemWb hrecord hlast hcap
  have h : s.Alone (.add rd rs rt) := ⟨hrun, hifId, hidEx, hexMem, hmemWb, hrecord, hlast, hcap⟩
  exact h.completes_arith rfl nofun

/-- Settles O34: the ALU result is the difference. -/
theorem subCompletesInFiveTicks : Obligations.SubCompletesInFiveTicks := by
  intro rd rs rt s hrun hifId hidEx hexMem hmemWb hrecord hlast hcap
  have h : s.Alone (.sub rd rs rt) := ⟨hrun, hifId, hidEx, hexMem, hmemWb, hrecord, hlast, hcap⟩
  exact h.completes_arith rfl nofun

/-- Settles O35: MEM lets a load pass exactly at a valid address. -/
theorem lwCompletesOrFaults : Obligations.LwCompletesOrFaults := by
  intro rt imm rs s hrun hifId hidEx hexMem hmemWb hrecord hlast hcap
  have h : s.Alone (.lw rt imm rs) := ⟨hrun, hifId, hidEx, hexMem, hmemWb, hrecord, hlast, hcap⟩
  have hfaults := memFaults_executedAlone (s := s) (i := .lw rt imm rs) (addr := readReg s.x rs + sext32 imm) (.inl rfl) rfl
    s.dmemBytes
  split
  · next hvalid =>
    rw [h.completes nofun (by rw [hfaults, hvalid]; rfl), writtenBack_eq]
    rfl
  · next hinvalid => exact h.faults nofun (by rw [hfaults, eq_false_of_ne_true hinvalid]; rfl)

/-- Settles O36: MEM lets a store pass exactly at a valid address, and then makes one write. -/
theorem swCompletesOrFaults : Obligations.SwCompletesOrFaults := by
  intro rt imm rs s hrun hifId hidEx hexMem hmemWb hrecord hlast hcap hwf
  have h : s.Alone (.sw rt imm rs) := ⟨hrun, hifId, hidEx, hexMem, hmemWb, hrecord, hlast, hcap⟩
  have hfaults := memFaults_executedAlone (s := s) (i := .sw rt imm rs) (addr := readReg s.x rs + sext32 imm) (.inr rfl) rfl
    s.dmemBytes
  split
  · next hvalid =>
    refine ⟨memWrite s.dmem (readReg s.x rs + sext32 imm) (readReg s.x rt), ?_, fun a => ?_⟩
    · rw [h.completes nofun (by rw [hfaults, hvalid]; rfl), writtenBack_eq]
      rfl
    · rw [memWrite, Memory.read_write _ _ _ hwf]
      exact if_congr eq_comm rfl rfl
  · next hinvalid => exact h.faults nofun (by rw [hfaults, eq_false_of_ne_true hinvalid]; rfl)

/-- EX of a `beq`: nothing where the operands differ, and else its target decides (44_branch.md R190 to R193). -/
theorem refExecute_inExAlone_beq (s : State) (rs rt : RegIdx) (imm : Imm) :
    refExecute (s.inExAlone (.beq rs rt imm)) =
      if readReg s.x rs = readReg s.x rt then
        if (s.pc : Int) + 1 + imm.toInt < 0 then .abort (.branchTargetError s.pc (s.cycleCount + 3))
        else .done (s.executedAlone (.beq rs rt imm)) (some ((s.pc : Int) + 1 + imm.toInt).toNat)
      else .done (s.executedAlone (.beq rs rt imm)) none := by
  rw [refExecute_inExAlone, IdEx.exOutcome]
  exact if_congr branchTaken_beq_iff rfl rfl

/-- A `beq` that leaves nothing to fetch changes nothing but pc and cycle count. -/
theorem State.Alone.completes_beq {rs rt : RegIdx} {imm : Imm} (h : s.Alone (.beq rs rt imm))
    (hex : refExecute (s.inExAlone (.beq rs rt imm)) = .done (s.executedAlone (.beq rs rt imm)) target)
    (hpc : s.progLen ≤ target.getD (s.pc + 1)) :
    runState 5 s = { s with
      pc := target.getD (s.pc + 1), cycleCount := s.cycleCount + 5, status := .terminated, tick := Tick.rest } := by
  rw [h.runState_five hex hpc rfl, writtenBack_eq]
  rfl

/-- Settles O37: the operands decide whether the branch is taken, and the target what a taken one does. -/
theorem beqCompletesOrRedirectsOrFaults : Obligations.BeqCompletesOrRedirectsOrFaults := by
  intro rs rt imm s hrun hifId hidEx hexMem hmemWb hrecord hlast hcap
  have h : s.Alone (.beq rs rt imm) := ⟨hrun, hifId, hidEx, hexMem, hmemWb, hrecord, hlast, hcap⟩
  have hex := refExecute_inExAlone_beq s rs rt imm
  split
  · next heq =>
    rw [if_pos heq] at hex
    split
    · next hneg =>
      rw [if_pos hneg] at hex
      rw [h.runState_three_of_abort hex]
      exact ⟨rfl, rfl, rfl, rfl, rfl⟩
    · next hpos =>
      rw [if_neg hpos] at hex
      split
      · rw [h.runState_three hex]
        exact ⟨Int.toNat_of_nonneg (Int.not_lt.mp hpos), rfl, rfl, hrun, rfl, rfl, rfl⟩
      · next hpast => exact h.completes_beq hex ((Int.le_toNat (Int.not_lt.mp hpos)).mpr (Int.not_lt.mp hpast))
  · next hne =>
    rw [if_neg hne] at hex
    exact h.completes_beq hex h.last.le

end Sys2Proof.Machine
end
